-- ==== Sys2Proof/Word.lean ====
section
/-! DEFINITION. The word types of the block (00_scope.md R11, R14): bytes, 64-bit words and
addresses. All values are unsigned bit vectors; bit 0 is the least significant bit. -/

namespace Sys2Proof

/-- One byte, the unit of the transport and of the target memory (R11, R50). -/
abbrev Byte := BitVec 8

/-- A 64-bit word: an argument word, the Execute result (R11). -/
abbrev Word := BitVec 64

/-- A 64-bit byte address of the target memory (R50); `+` wraps modulo 2^64 (R55). -/
abbrev Addr := BitVec 64

end Sys2Proof
end

