-- ==== Sys2Proof/Config.lean ====
section
/-! DEFINITION. What is fixed for one machine: the implementation parameters of 00_scope.md R8 and
the free values the spec leaves to the platform (10_state.md R37). -/

namespace Sys2Proof

/-- `POLICY_FAIL_CRC` (R8, 92_eei_decisions.md D7): is the trailing checksum byte of a rejected
Write or Execute consumed, its comparison discarded, or left in the stream? -/
inductive PolicyFailCrc where
  | consumeMasked
  | skip
deriving DecidableEq, Repr

/-- `UNKNOWN_CMD_CRC` (R8, 92_eei_decisions.md D8): what is done with the trailing checksum byte
after an unrecognised command code. -/
inductive UnknownCmdCrc where
  | consumeMasked
  | skip
  | consumeReported
deriving DecidableEq, Repr

/-- `CMD_GET_BASE_ADDRESS` (R8, the source's). -/
def cmdGetBaseAddress : BitVec 16 := 0x0001

/-- `CMD_ERROR`, the Error sentinel (R8, the source's). -/
def cmdError : BitVec 16 := 0x0006

/-- The arguments of the machine (R8), fixed for one power cycle: no rule writes them (10_state.md
R23). The two codes the source gives, 0x0001 and 0x0006, are not arguments. DESIGN CHOICE (log 3):
State carries them, so that statements hold for every value. -/
structure Params where
  /-- `GUARD_ADDRESS` (R10). -/
  guardAddress : Addr
  /-- `PROTOCOL_VERSION` (R9). -/
  protocolVersion : BitVec 16
  cmdGetVersion : BitVec 16
  cmdRead : BitVec 16
  cmdWrite : BitVec 16
  cmdExecute : BitVec 16
  cmdReset : BitVec 16
  policyFailCrc : PolicyFailCrc
  unknownCmdCrc : UnknownCmdCrc
deriving DecidableEq, Repr

/-- What one `ExecCall` does when it returns (20_memory.md R59, 92_eei_decisions.md D26): the 64-bit
value, and the bytes of memory the called code has changed, in the order of its stores; they are in
memory from the return on (log 35). -/
structure CallOutcome where
  value : Word
  stores : List (Addr × Byte)
deriving DecidableEq, Repr

/-- `GUARD_ADDRESS` has no value in any source (R10, D4): uninterpreted (log 3). -/
opaque Config.guardAddress : Addr

/-- `PROTOCOL_VERSION` has no value in any source (R9, D3): uninterpreted (log 3). -/
opaque Config.protocolVersion : BitVec 16

/-- The outcomes of the `ExecCall`s to come at power-on (R59, U3, U4): free (log 8). -/
opaque Config.callOutcomes : List CallOutcome

/-- What the receive stream holds after the n-th hard reset (70_reset_and_hazards.md R262, U11):
free (log 9). -/
opaque Config.rxAfterReset : Nat → List Byte

/-- The byte an address of the platform's memory holds from the n-th power-on on, until something
stores there; the first power-on is number 0 (10_state.md R37, 20_memory.md R50, 70 R262, U11): free
(log 6, 9). -/
opaque Config.powerOnByte : Nat → Addr → Byte

/-- The addresses lo to hi, both included. -/
structure AddrRange where
  lo : Addr
  hi : Addr
deriving DecidableEq, Repr

/-- Where the platform's device memory lies at power-on (R60, U16): free (log 32). -/
opaque Config.deviceRanges : List AddrRange

/-- What the `MemRead` with a given number answers at an address of device memory: any value (R37,
R60, U16): free (log 32). -/
opaque Config.deviceAnswer : Nat → Addr → Byte

end Sys2Proof
end

