-- ==== Sys2Proof/Syntax.lean ====
section
/-! DEFINITION. The instructions of the block (00_scope.md R5, 30_encoding.md R94): one constructor
for each row of `opcode_table.json`, and the response frames as a host reads them (R85, R92). -/

namespace Sys2Proof

/-- The three layers of R5. A request carries the fields of its frame (30_encoding.md R84), its
checksum byte included, right or wrong. A response takes its fields from the block's registers
(R85). An internal operation has no encoding; its operands are those of its rule. -/
inductive Instr where
  /-- GETVERSION, format Q0 (42_commands.md R183). -/
  | getVersion (crc : Byte)
  /-- GETBASE, format Q0 (R184). -/
  | getBase (crc : Byte)
  /-- READ, format QAL (R185). -/
  | read (addr : Addr) (len : BitVec 32) (crc : Byte)
  /-- WRITE, format QALD (R186). -/
  | write (addr : Addr) (len : BitVec 32) (data : List Byte) (crc : Byte)
  /-- EXECUTE, format QA; `addr` is the address of the execution context (R187). -/
  | execute (addr : Addr) (crc : Byte)
  /-- RESET, format Q0 (R188). -/
  | reset (crc : Byte)
  /-- UNRECOGNISED: any other code, with one checksum byte, or with none where `UNKNOWN_CMD_CRC`
  is skip (R87, R189). -/
  | unrecognised (code : BitVec 16) (crc : Option Byte)
  /-- RSP_VERSION, format SV (R183). -/
  | rspVersion
  /-- RSP_BASE, format SB (R184). -/
  | rspBase
  /-- RSP_DATA, format SALD (R185). -/
  | rspData
  /-- RSP_WROTE, format SAL (R186). -/
  | rspWrote
  /-- RSP_RESULT, format SAR (R187). -/
  | rspResult
  /-- RSP_RESETTING, format S0, then flush and reset (R188). -/
  | rspResetting
  /-- ERROR_INVALID_CRC, code 1 (60_exceptions.md R230, R231). -/
  | errorInvalidCrc
  /-- ERROR_INVALID_COMMAND, code 2 (R230, R232). -/
  | errorInvalidCommand
  /-- ERROR_INVALID_ARGUMENT, code 3 (R230, R233). -/
  | errorInvalidArgument
  /-- crc8_step(acc, b) (40_crc8.md R120). -/
  | crc8Step (acc b : Byte)
  /-- rx_start() (41_codec_ops.md R140). -/
  | rxStart
  /-- tx_start() (R141). -/
  | txStart
  /-- rx_u8() (R142). -/
  | rxU8
  /-- rx_u16() (R143). -/
  | rxU16
  /-- rx_u32() (R144). -/
  | rxU32
  /-- rx_u64() (R145). -/
  | rxU64
  /-- tx_u8(v) (R146). -/
  | txU8 (v : BitVec 8)
  /-- tx_u16(v) (R147). -/
  | txU16 (v : BitVec 16)
  /-- tx_u32(v) (R148). -/
  | txU32 (v : BitVec 32)
  /-- tx_u64(v) (R149). -/
  | txU64 (v : BitVec 64)
  /-- rx_data(addr, len) (R150). -/
  | rxData (addr : Addr) (len : BitVec 32)
  /-- tx_data(addr, len) (R151). -/
  | txData (addr : Addr) (len : BitVec 32)
  /-- rx_ignore_data(len) (R152). -/
  | rxIgnoreData (len : BitVec 32)
  /-- rx_validate_crc() (R153). -/
  | rxValidateCrc
  /-- tx_crc() (R154). -/
  | txCrc
deriving DecidableEq, Repr

/-- Which of the seven request cases a command code selects (30_encoding.md R86, 42_commands.md
R181). -/
inductive Command where
  | getVersion
  | getBase
  | read
  | write
  | execute
  | reset
  | unrecognised
deriving DecidableEq, Repr

/-- The three error codes (00_scope.md R8, 30_encoding.md R89). -/
inductive ErrorCode where
  | invalidCrc
  | invalidCommand
  | invalidArgument
deriving DecidableEq, Repr

/-- A response frame as the host at the far end reads it (R85, R92), its checksum byte included. -/
inductive Response where
  | version (version : BitVec 16) (crc : Byte)
  | base (guard : Addr) (crc : Byte)
  | data (addr : Addr) (len : BitVec 32) (bytes : List Byte) (crc : Byte)
  | wrote (addr : Addr) (len : BitVec 32) (crc : Byte)
  | result (addr : Addr) (value : Word) (crc : Byte)
  | resetting (crc : Byte)
  | error (code : BitVec 16) (crc : Byte)
deriving DecidableEq, Repr

end Sys2Proof
end

