-- ==== Sys2Proof/WellFormed.lean ====
section
/-! DEFINITION. What the spec asks of the machine's arguments (00_scope.md R8) and of the operands
of an instruction (30_encoding.md R84, R87; 42_commands.md R189). -/

namespace Sys2Proof

/-- The codes of the six commands, in the source's listing order (30_encoding.md R86). -/
def Params.commandCodes (p : Params) : List (BitVec 16) :=
  [p.cmdGetVersion, cmdGetBaseAddress, p.cmdRead, p.cmdWrite, p.cmdExecute, p.cmdReset]

/-- R8: "The six command codes and `CMD_ERROR` must be pairwise distinct." -/
def Params.wf (p : Params) : Bool :=
  decide (p.commandCodes ++ [cmdError]).Nodup

/-- An instruction whose operands its format admits: a Write declares the length of the data it
carries (R84, format QALD); an unrecognised code is none of the six (R87) and its frame has a
checksum byte exactly when `UNKNOWN_CMD_CRC` is not skip (R189). Every other operand of every
instruction may have every value (R88). -/
def Instr.wf (p : Params) : Instr → Bool
  | .getVersion _ => true
  | .getBase _ => true
  | .read _ _ _ => true
  | .write _ len data _ => data.length == len.toNat
  | .execute _ _ => true
  | .reset _ => true
  | .unrecognised code crc =>
      !p.commandCodes.contains code && (crc.isNone == decide (p.unknownCmdCrc = .skip))
  | .rspVersion => true
  | .rspBase => true
  | .rspData => true
  | .rspWrote => true
  | .rspResult => true
  | .rspResetting => true
  | .errorInvalidCrc => true
  | .errorInvalidCommand => true
  | .errorInvalidArgument => true
  | .crc8Step _ _ => true
  | .rxStart => true
  | .txStart => true
  | .rxU8 => true
  | .rxU16 => true
  | .rxU32 => true
  | .rxU64 => true
  | .txU8 _ => true
  | .txU16 _ => true
  | .txU32 _ => true
  | .txU64 _ => true
  | .rxData _ _ => true
  | .txData _ _ => true
  | .rxIgnoreData _ => true
  | .rxValidateCrc => true
  | .txCrc => true

/-- The seven instructions that arrive on the wire (30_encoding.md R94 (a)): the only ones the
block decodes. -/
def Instr.isRequest : Instr → Bool
  | .getVersion _ => true
  | .getBase _ => true
  | .read _ _ _ => true
  | .write _ _ _ _ => true
  | .execute _ _ => true
  | .reset _ => true
  | .unrecognised _ _ => true
  | .rspVersion => false
  | .rspBase => false
  | .rspData => false
  | .rspWrote => false
  | .rspResult => false
  | .rspResetting => false
  | .errorInvalidCrc => false
  | .errorInvalidCommand => false
  | .errorInvalidArgument => false
  | .crc8Step _ _ => false
  | .rxStart => false
  | .txStart => false
  | .rxU8 => false
  | .rxU16 => false
  | .rxU32 => false
  | .rxU64 => false
  | .txU8 _ => false
  | .txU16 _ => false
  | .txU32 _ => false
  | .txU64 _ => false
  | .rxData _ _ => false
  | .txData _ _ => false
  | .rxIgnoreData _ => false
  | .rxValidateCrc => false
  | .txCrc => false

/-- A response frame whose data field has the length it declares (R85, format SALD). -/
def Response.wf : Response → Bool
  | .version _ _ => true
  | .base _ _ => true
  | .data _ len bytes _ => bytes.length == len.toNat
  | .wrote _ _ _ => true
  | .result _ _ _ => true
  | .resetting _ => true
  | .error _ _ => true

end Sys2Proof
end

