-- ==== Sys2Proof/Decode.lean ====
section
/-! DEFINITION. Byte order, the opcode map, the decoder of request frames and, after it, the
encoder; then the same for the response frames a host reads (30_encoding.md). -/

namespace Sys2Proof

/-! ## Byte order -/

/-- The `n` wire bytes of a field, least significant first: byte `k` is `v[8k+7:8k]` (R81). -/
def leBytes (n : Nat) {w : Nat} (v : BitVec w) : List Byte :=
  (List.range n).map fun k => v.extractLsb' (8 * k) 8

/-- The value assembled from bytes received least significant first:
`zext(b_0) | zext(b_1) << 8 | ...` (R81). -/
def leValue (w : Nat) : List Byte → BitVec w
  | [] => 0
  | b :: bs => b.setWidth w ||| (leValue w bs <<< 8)

/-! ## The opcode map -/

/-- The default arguments (00_scope.md R8; 30_encoding.md R86, D2, D7, D8; log 4, 14, 15), with the
two open ones uninterpreted (log 3). -/
def Params.initial : Params where
  guardAddress := Config.guardAddress
  protocolVersion := Config.protocolVersion
  cmdGetVersion := 0x0000
  cmdRead := 0x0002
  cmdWrite := 0x0003
  cmdExecute := 0x0004
  cmdReset := 0x0005
  policyFailCrc := .consumeMasked
  unknownCmdCrc := .consumeMasked

/-- Dispatch on the full 16-bit command code (R86, R87; 42_commands.md R181). -/
def Params.commandOf (p : Params) (code : BitVec 16) : Command :=
  if code = p.cmdGetVersion then .getVersion
  else if code = cmdGetBaseAddress then .getBase
  else if code = p.cmdRead then .read
  else if code = p.cmdWrite then .write
  else if code = p.cmdExecute then .execute
  else if code = p.cmdReset then .reset
  else .unrecognised

/-! ## The decoder of request frames -/

/-- Why bytes are not yet a request frame (R90): the decoder rejects by the part that is missing.
There is no other rejection, since every code is a command or unrecognised (R87, R88). -/
inductive DecodeError where
  | codeMissing
  | addressMissing
  | lengthMissing
  | dataMissing
  | checksumMissing
deriving DecidableEq, Repr

/-- The first `n` bytes and the rest, if there are `n`. -/
def takeBytes : Nat → List Byte → Option (List Byte × List Byte)
  | 0, bs => some ([], bs)
  | _ + 1, [] => none
  | n + 1, b :: bs =>
    match takeBytes n bs with
    | some (xs, rest) => some (b :: xs, rest)
    | none => none

/-- The trailing checksum byte (R80). -/
def decodeChecksum (mk : Byte → Instr) : List Byte → Except DecodeError (Instr × List Byte)
  | [] => .error .checksumMissing
  | c :: rest => .ok (mk c, rest)

/-- The fields after a Read's command code (R84, format QAL). -/
def decodeRead (bs : List Byte) : Except DecodeError (Instr × List Byte) :=
  match takeBytes 8 bs with
  | none => .error .addressMissing
  | some (a, bs) =>
    match takeBytes 4 bs with
    | none => .error .lengthMissing
    | some (l, bs) => decodeChecksum (.read (leValue 64 a) (leValue 32 l)) bs

/-- The fields after a Write's command code (R84, format QALD). -/
def decodeWrite (bs : List Byte) : Except DecodeError (Instr × List Byte) :=
  match takeBytes 8 bs with
  | none => .error .addressMissing
  | some (a, bs) =>
    match takeBytes 4 bs with
    | none => .error .lengthMissing
    | some (l, bs) =>
      match takeBytes (leValue 32 l).toNat bs with
      | none => .error .dataMissing
      | some (d, bs) => decodeChecksum (.write (leValue 64 a) (leValue 32 l) d) bs

/-- The field after an Execute's command code (R84, format QA). -/
def decodeExecute (bs : List Byte) : Except DecodeError (Instr × List Byte) :=
  match takeBytes 8 bs with
  | none => .error .addressMissing
  | some (a, bs) => decodeChecksum (.execute (leValue 64 a)) bs

/-- What follows an unrecognised code: one checksum byte, or nothing (R189). -/
def decodeUnrecognised (p : Params) (code : BitVec 16) (bs : List Byte) :
    Except DecodeError (Instr × List Byte) :=
  match p.unknownCmdCrc with
  | .skip => .ok (.unrecognised code none, bs)
  | .consumeMasked => decodeChecksum (fun c => .unrecognised code (some c)) bs
  | .consumeReported => decodeChecksum (fun c => .unrecognised code (some c)) bs

/-- The request frame at the head of a byte stream, and the bytes after it (R80, R84, R86, R90). -/
def decode (p : Params) : List Byte → Except DecodeError (Instr × List Byte)
  | [] => .error .codeMissing
  | [_] => .error .codeMissing
  | b0 :: b1 :: bs =>
    match p.commandOf (leValue 16 [b0, b1]) with
    | .getVersion => decodeChecksum .getVersion bs
    | .getBase => decodeChecksum .getBase bs
    | .read => decodeRead bs
    | .write => decodeWrite bs
    | .execute => decodeExecute bs
    | .reset => decodeChecksum .reset bs
    | .unrecognised => decodeUnrecognised p (leValue 16 [b0, b1]) bs

/-- The bytes of the host's numbered word: bit 0 is the least significant bit of the first byte.
Bits from `nbits` on are 0, up to the 15 bytes of the longest request without data. -/
def wordBytes (nbits w : Nat) : List Byte :=
  (List.range (max 15 ((nbits + 7) / 8))).map fun k => BitVec.ofNat 8 (w % 2 ^ nbits / 2 ^ (8 * k))

/-- What the decoder reads from the bits of one table row, under the default arguments. A response
row's word is read as the request of the same code: the block never decodes a response (R94 (b);
log 11). -/
def decodeTableWord (nbits w : Nat) : Option Instr :=
  match decode Params.initial (wordBytes nbits w) with
  | .ok (i, _) => some i
  | .error _ => none

/-! ## The encoder of request frames -/

/-- A frame: the command code, the fields, the checksum byte (R80). -/
def frameBytes (code : BitVec 16) (fields : List Byte) (crc : Byte) : List Byte :=
  leBytes 2 code ++ fields ++ [crc]

/-- The wire bytes of a request (R84). A response has no operands of its own and an internal
operation has no encoding (R94 (b), (c)). -/
def encode (p : Params) : Instr → Option (List Byte)
  | .getVersion crc => some (frameBytes p.cmdGetVersion [] crc)
  | .getBase crc => some (frameBytes cmdGetBaseAddress [] crc)
  | .read addr len crc => some (frameBytes p.cmdRead (leBytes 8 addr ++ leBytes 4 len) crc)
  | .write addr len data crc =>
      some (frameBytes p.cmdWrite (leBytes 8 addr ++ leBytes 4 len ++ data) crc)
  | .execute addr crc => some (frameBytes p.cmdExecute (leBytes 8 addr) crc)
  | .reset crc => some (frameBytes p.cmdReset [] crc)
  | .unrecognised code crc => some (leBytes 2 code ++ crc.toList)
  | .rspVersion => none
  | .rspBase => none
  | .rspData => none
  | .rspWrote => none
  | .rspResult => none
  | .rspResetting => none
  | .errorInvalidCrc => none
  | .errorInvalidCommand => none
  | .errorInvalidArgument => none
  | .crc8Step _ _ => none
  | .rxStart => none
  | .txStart => none
  | .rxU8 => none
  | .rxU16 => none
  | .rxU32 => none
  | .rxU64 => none
  | .txU8 _ => none
  | .txU16 _ => none
  | .txU32 _ => none
  | .txU64 _ => none
  | .rxData _ _ => none
  | .txData _ _ => none
  | .rxIgnoreData _ => none
  | .rxValidateCrc => none
  | .txCrc => none

/-! ## Response frames, on the host's side -/

/-- The wire bytes of a response frame (R85). -/
def encodeResponse (p : Params) : Response → List Byte
  | .version v crc => frameBytes p.cmdGetVersion (leBytes 2 v) crc
  | .base g crc => frameBytes cmdGetBaseAddress (leBytes 8 g) crc
  | .data addr len bytes crc =>
      frameBytes p.cmdRead (leBytes 8 addr ++ leBytes 4 len ++ bytes) crc
  | .wrote addr len crc => frameBytes p.cmdWrite (leBytes 8 addr ++ leBytes 4 len) crc
  | .result addr v crc => frameBytes p.cmdExecute (leBytes 8 addr ++ leBytes 8 v) crc
  | .resetting crc => frameBytes p.cmdReset [] crc
  | .error code crc => frameBytes cmdError (leBytes 2 code) crc

/-- A response that is only a checksum byte after its fields. -/
def responseChecksum (mk : Byte → Response) : List Byte → Option (Response × List Byte)
  | [] => none
  | c :: rest => some (mk c, rest)

/-- The response frame at the head of the transmit stream and the bytes after it, as the host tells
it by its first 16 bits (R92); `none` where the frame is not complete or its code is no response's. -/
def decodeResponse (p : Params) : List Byte → Option (Response × List Byte)
  | b0 :: b1 :: bs =>
    if leValue 16 [b0, b1] = cmdError then do
      let (e, bs) ← takeBytes 2 bs
      responseChecksum (.error (leValue 16 e)) bs
    else
      match p.commandOf (leValue 16 [b0, b1]) with
      | .getVersion => do
        let (v, bs) ← takeBytes 2 bs
        responseChecksum (.version (leValue 16 v)) bs
      | .getBase => do
        let (g, bs) ← takeBytes 8 bs
        responseChecksum (.base (leValue 64 g)) bs
      | .read => do
        let (a, bs) ← takeBytes 8 bs
        let (l, bs) ← takeBytes 4 bs
        let (d, bs) ← takeBytes (leValue 32 l).toNat bs
        responseChecksum (.data (leValue 64 a) (leValue 32 l) d) bs
      | .write => do
        let (a, bs) ← takeBytes 8 bs
        let (l, bs) ← takeBytes 4 bs
        responseChecksum (.wrote (leValue 64 a) (leValue 32 l)) bs
      | .execute => do
        let (a, bs) ← takeBytes 8 bs
        let (r, bs) ← takeBytes 8 bs
        responseChecksum (.result (leValue 64 a) (leValue 64 r)) bs
      | .reset => responseChecksum .resetting bs
      | .unrecognised => none
  | _ => none

end Sys2Proof
end

