-- ==== Sys2Proof/Machine/State.lean ====
section
/-! DEFINITION. The state of the machine, as plain data: the ten registers of 10_state.md R20, the
sequencer's finer position (R24), the machine's arguments (00_scope.md R8), what its ports see and
answer (R12), and the state after reset (70_reset_and_hazards.md R260). -/

namespace Sys2Proof.Machine

/-- `STATE`, the four values the source names (10_state.md R24). -/
inductive Phase where
  | awaitCommand
  | decodingFields
  | validatingCrc
  | responding
deriving DecidableEq, Repr

/-- Where a received integer goes: a latch of R25 to R27, or `RET` for a codec operation that is
driven on its own (log 12). -/
inductive Dest where
  | ret
  | cmd
  | addr
  | len
deriving DecidableEq, Repr

/-- Where a value that is sent or used comes from: an immediate operand, a latch (R25 to R27, R29)
or one of the two constants (R23). -/
inductive Src where
  | imm (v : BitVec 64)
  | cmd
  | addr
  | len
  | result
  | guardAddress
  | protocolVersion
deriving DecidableEq, Repr

/-- One operation of the pseudocode. Those marked IN PROGRESS are what is left of an operation
that a port has stopped part of the way (00_scope.md R13, 41_codec_ops.md R156). -/
inductive Op where
  /-- `STATE <- p`. -/
  | setPhase (p : Phase)
  /-- `rx_start` (R140). -/
  | rxStart
  /-- `tx_start` (R141). -/
  | txStart
  /-- `d <- rx_u8/16/32/64` (R142 to R145): `left` bytes are still to come after `got`. -/
  | rxInt (d : Dest) (left : Nat) (got : List Byte)
  /-- `tx_u8/16/32/64(v)`, `n` bytes (R146 to R149). -/
  | txInt (n : Nat) (v : Src)
  /-- IN PROGRESS `txInt`: the bytes still to be sent. -/
  | txBytes (bs : List Byte)
  /-- `POLICY_OK <- (ADDR >=u GUARD_ADDRESS)` (42_commands.md R182). -/
  | checkPolicy
  /-- `rx_data(addr, len)` (R150). -/
  | rxData (start count : Src)
  /-- IN PROGRESS `rxData`, from `CNT` on; `held` is a byte received and not yet stored. -/
  | rxDataFrom (addr : Addr) (len : BitVec 32) (held : Option Byte)
  /-- `tx_data(addr, len)` (R151). -/
  | txData (start count : Src)
  /-- IN PROGRESS `txData`, from `CNT` on; `held` is a byte read and not yet sent. -/
  | txDataFrom (addr : Addr) (len : BitVec 32) (held : Option Byte)
  /-- `rx_ignore_data(len)` (R152). -/
  | rxIgnoreData (count : Src)
  /-- IN PROGRESS `rxIgnoreData`, from `CNT` on. -/
  | rxIgnoreFrom (len : BitVec 32)
  /-- `CRC_OK <- rx_validate_crc()` (R153). -/
  | rxValidateCrc
  /-- `tx_crc()` (R154). -/
  | txCrc
  /-- `TxFlush()` (R12). -/
  | txFlush
  /-- `fn <- MemRead(ADDR, 8)` and `a_k <- MemRead(ADDR + 8 + 8k, 8)` for k = 0 .. 7 (R187):
  `left` of the context's 72 bytes are still to be read after `got`. -/
  | loadContext (left : Nat) (got : List Byte)
  /-- `r <- ExecCall(fn, a_0 .. a_7)` (R187, R193). -/
  | execCall
  /-- `MemWrite(ADDR + 8, 8, r)` (R187). -/
  | storeSlot
  /-- IN PROGRESS `storeSlot`: the bytes still to be stored, from `addr` on. -/
  | storeBytes (addr : Addr) (bs : List Byte)
  /-- `RESULT <- MemRead(ADDR + 8, 8)` (R187): `left` bytes are still to be read after `got`. -/
  | loadSlot (left : Nat) (got : List Byte)
deriving DecidableEq, Repr

/-- The rest of a frame's pseudocode, the block's finer program counter (R24, D17). -/
inductive Prog where
  /-- The frame is over: the top of the loop of R180. -/
  | done
  /-- The command code has been received: dispatch on `CMD` (R181). -/
  | dispatch
  /-- `HardReset()` (R12, R188). -/
  | hardReset
  /-- `HardReset` has been invoked: no further step in this power cycle (R262). -/
  | resetting
  | op (o : Op) (next : Prog)
  /-- `if CRC_OK then … else …` (R190). -/
  | onCrcOk (yes no : Prog)
  /-- `if POLICY_OK then … else …` (R186, R187). -/
  | onPolicyOk (yes no : Prog)
deriving DecidableEq, Repr

/-- One action of the block on a port (00_scope.md R12). A memory access of 8 bytes is eight
accesses of one byte (20_memory.md R56). -/
inductive PortAction where
  | rxByte (b : Byte)
  | txByte (b : Byte)
  | txFlush
  | memRead (addr : Addr) (b : Byte)
  | memWrite (addr : Addr) (b : Byte)
  | execCall (fn : Word) (args : List Word) (r : Word)
  | hardReset
deriving DecidableEq, Repr

/-- What has been stored in the platform's memory (20_memory.md R50) in this power cycle: address
and byte, addresses strictly rising (`Memory.wf` in Ops.lean). An address that is not listed has no
stored byte; what it holds is free (`State.memByte`; log 6). -/
abbrev Memory := List Host.Cell

/-- The state of the machine. INVENTORY.md lists every field with the rule that names it. -/
structure State where
  /-- `RXCRC` (R21). -/
  rxcrc : Byte
  /-- `TXCRC` (R22). -/
  txcrc : Byte
  /-- `STATE` (R24). -/
  phase : Phase
  /-- `CMD` (R25). -/
  cmd : BitVec 16
  /-- `ADDR` (R26). -/
  addr : Addr
  /-- `LEN` (R27). -/
  len : BitVec 32
  /-- `CNT` (R28). -/
  cnt : BitVec 32
  /-- `RESULT` (R29). -/
  result : Word
  /-- `CRC_OK` (R30). -/
  crcOk : Bool
  /-- `POLICY_OK` (R31). -/
  policyOk : Bool
  /-- The finer position inside `STATE` (R24). -/
  pos : Prog
  /-- The model's own: what a codec operation returns, and `r` of R187 (log 12). -/
  ret : Word
  /-- The model's own: the locals `fn, a_0 .. a_7` of R187 (log 19). -/
  ctx : List Word
  /-- The machine's arguments (00_scope.md R8); no step writes them (R23; log 3). -/
  params : Params
  /-- The receive stream not yet consumed (R34 (b); log 21). -/
  rx : List Byte
  /-- The model's own: every port action so far, oldest first (log 13). The transmit stream
  (R34 (c)) is its `txByte` entries. -/
  log : List PortAction
  /-- The target memory (R34 (a), 20_memory.md R50): what has been stored in it. -/
  mem : Memory
  /-- Addresses of device memory, where a `MemRead` answers any value (20_memory.md R60, U16;
  log 32). -/
  devices : List AddrRange
  /-- The model's own: `MemRead`s answered so far, the argument of U16's free values (log 32). -/
  reads : Nat
  /-- Addresses a `MemRead` of which the platform never completes (20_memory.md R61; log 24). -/
  noRead : List AddrRange
  /-- Addresses a `MemWrite` of which the platform never completes (R61; log 24). -/
  noWrite : List AddrRange
  /-- How many more bytes the transport accepts; `none` is no limit (00_scope.md R13; log 7). -/
  txRoom : Option Nat
  /-- Whether `TxFlush` can complete (R12; log 7). -/
  flushReady : Bool
  /-- The free outcomes of the `ExecCall`s to come; where there is none, the call has not returned
  (20_memory.md R59; log 8). -/
  calls : List CallOutcome
  /-- The model's own: power cycles that have ended, the argument of the free values of a power-on
  (R262; log 6, 9). -/
  cycle : Nat
deriving DecidableEq, Repr

/-- No constructor: the spec has no condition that stops the block with a fault. The three errors
are reported on the wire (60_exceptions.md R230, R234), and a port that does not answer is waiting
(00_scope.md R13). Safe (log 29). -/
inductive Fault where
deriving DecidableEq, Repr

/-- Why the machine gives an instruction no meaning. -/
inductive Refusal where
  /-- Raised by `exec` alone, for an instruction that has no meaning yet (none is left): safe. -/
  | notModelled (mnemonic : String)
deriving DecidableEq, Repr

/-- The state at power-on (70_reset_and_hazards.md R260, 10_state.md R35). The two accumulators,
`STATE` and the top of the loop are the spec's; the latches are DESIGN CHOICE (log 5); the platform
answers every port (log 7); what its memory holds (log 6), where its devices are (log 32) and the
outcomes of its calls (log 8) are free; no byte has been received or sent. -/
def State.reset : State where
  rxcrc := 0xFF
  txcrc := 0xFF
  phase := .awaitCommand
  cmd := 0
  addr := 0
  len := 0
  cnt := 0
  result := 0
  crcOk := false
  policyOk := false
  pos := .done
  ret := 0
  ctx := []
  params := Params.initial
  rx := []
  log := []
  mem := []
  devices := Config.deviceRanges
  reads := 0
  noRead := []
  noWrite := []
  txRoom := none
  flushReady := true
  calls := Config.callOutcomes
  cycle := 0

end Sys2Proof.Machine
end

