-- ==== Sys2Proof/Machine/Flags.lean ====
section
/-! DEFINITION. The checksum accumulator (40_crc8.md) and the two flags (10_state.md R30, R31). -/

namespace Sys2Proof.Machine

/-- One of the eight iterations of R120: bit 7 is tested before the shift, the polynomial 0x07 is
exclusive-ored into the shifted value (reading (a) of R121, D6; log 25). -/
def crcShift (a : Byte) : Byte :=
  if a.getLsbD 7 then (a <<< 1) ^^^ 0x07 else a <<< 1

/-- `n` iterations of `crcShift`. -/
def crcShifts : Nat → Byte → Byte
  | 0, a => a
  | n + 1, a => crcShifts n (crcShift a)

/-- `crc8_step(acc, b)` (R120). -/
def crc8Step (acc b : Byte) : Byte := crcShifts 8 (acc ^^^ b)

/-- The accumulator after a byte sequence, from a given seed (R123, R129). -/
def crcFold (seed : Byte) (bs : List Byte) : Byte := bs.foldl crc8Step seed

/-- The seed `rx_start` and `tx_start` set (`CRC_FRAME_SEED`, R8, R140, R141). -/
def crcFrameSeed : Byte := 0x00

/-- The checksum of a byte sequence (R123). -/
def crc8 (bs : List Byte) : Byte := crcFold crcFrameSeed bs

/-- `CRC_OK`: the received checksum byte equals `RXCRC` (R30, 41_codec_ops.md R153). -/
def crcMatches (c : Byte) (s : State) : Bool := c == s.rxcrc

/-- `POLICY_OK`: `ADDR >=u GUARD_ADDRESS`, unsigned (R31, 42_commands.md R182, D12; log 26). -/
def policyPasses (p : Params) (addr : Addr) : Bool := decide (p.guardAddress ≤ addr)

end Sys2Proof.Machine
end

