-- ==== Sys2Proof/Machine/Operands.lean ====
section
/-! DEFINITION. The operand forms of the pseudocode: where a value comes from and where a received
integer goes (00_scope.md R14, R15; 10_state.md R23 to R29). -/

namespace Sys2Proof.Machine

/-- The value of a source, zero-extended to 64 bits; its user takes the low bytes it needs. -/
def Src.eval (s : State) : Src → BitVec 64
  | .imm v => v
  | .cmd => s.cmd.setWidth 64
  | .addr => s.addr
  | .len => s.len.setWidth 64
  | .result => s.result
  | .guardAddress => s.params.guardAddress
  | .protocolVersion => s.params.protocolVersion.setWidth 64

/-- Write a received integer, already zero-extended, to its destination (R142 to R145). -/
def State.setDest (s : State) (v : BitVec 64) : Dest → State
  | .ret => { s with ret := v }
  | .cmd => { s with cmd := v.setWidth 16 }
  | .addr => { s with addr := v }
  | .len => { s with len := v.setWidth 32 }

/-- The nine words of an execution context, from its 72 bytes (20_memory.md R57; log 19). -/
def contextWords (bs : List Byte) : List Word :=
  (List.range 9).map fun k => leValue 64 ((bs.drop (8 * k)).take 8)

end Sys2Proof.Machine
end

