-- ==== Sys2Proof/Machine/Ops.lean ====
section
/-! DEFINITION. The operations every meaning is built from: the target memory (20_memory.md), the
seven ports (00_scope.md R12), the codec's loops (41_codec_ops.md), the run of a piece of
pseudocode until it is over or a port does not answer, raising an error (60_exceptions.md R230),
and the power-on after a hard reset (70_reset_and_hazards.md R262). -/

namespace Sys2Proof.Machine

/-! ## The target memory -/

/-- The byte stored at an address, if one has been. -/
def Memory.read : Memory → Nat → Option Byte
  | [], _ => none
  | (k, b) :: m, a => if k = a then some b else Memory.read m a

/-- Store a byte, keeping the canonical form. -/
def Memory.write : Memory → Nat → Byte → Memory
  | [], a, v => [(a, v)]
  | (k, b) :: m, a, v =>
    if a < k then (a, v) :: (k, b) :: m
    else if a = k then (a, v) :: m
    else (k, b) :: Memory.write m a v

/-- Store bytes one after the other, the first of the list first. -/
def Memory.writeAll (m : Memory) (stores : List (Addr × Byte)) : Memory :=
  stores.foldl (fun m x => m.write x.1.toNat x.2) m

/-- Every address is at least `lo`, they rise strictly, and all are 64-bit. An unlisted address has
no stored byte, so no entry is equal to what one has. -/
def Memory.wfFrom : Nat → Memory → Bool
  | _, [] => true
  | lo, (k, _) :: m => decide (lo ≤ k) && decide (k < 2 ^ 64) && Memory.wfFrom (k + 1) m

/-- The canonical form of memory. -/
def Memory.wf (m : Memory) : Bool := Memory.wfFrom 0 m

/-- Whether an address lies in one of the ranges. -/
def inRanges (rs : List AddrRange) (a : Addr) : Bool :=
  rs.any fun r => decide (r.lo ≤ a) && decide (a ≤ r.hi)

/-- The byte memory holds at an address: the one last stored, or, where nothing has been stored in
this power cycle, a free one (10_state.md R37, 20_memory.md R50; log 6). -/
def State.memByte (s : State) (a : Addr) : Byte :=
  (s.mem.read a.toNat).getD (Config.powerOnByte s.cycle a)

/-- What a `MemRead` of an address answers after `k` further ones, memory as it is: at an address of
device memory any value (R60, 93_implementation_defined.md U16; log 32), elsewhere the byte memory
holds there (R70). -/
def State.memAnswer (s : State) (k : Nat) (a : Addr) : Byte :=
  if inRanges s.devices a then Config.deviceAnswer (s.reads + k) a else s.memByte a

/-! ## The ports (00_scope.md R12). `none`: the port does not answer, nothing has changed (R13). -/

/-- Record a port action (log 13). -/
def State.act (s : State) (p : PortAction) : State := { s with log := s.log ++ [p] }

/-- `RxByte()`: the next byte of the receive stream. -/
def rxByte (s : State) : Option (Byte × State) :=
  match s.rx with
  | [] => none
  | b :: rest => some (b, { s with rx := rest }.act (.rxByte b))

/-- `TxByte(b)`: accepted while the transport has room. -/
def txByte (b : Byte) (s : State) : Option State :=
  match s.txRoom with
  | none => some (s.act (.txByte b))
  | some 0 => none
  | some (n + 1) => some ({ s with txRoom := some n }.act (.txByte b))

/-- `TxFlush()`. -/
def flushTx (s : State) : Option State :=
  if s.flushReady then some (s.act .txFlush) else none

/-- `MemRead(a, 1)` (20_memory.md R52, R61): the platform's answer, a parameter of the machine
(10_state.md R37; log 6, 32). -/
def memRead (a : Addr) (s : State) : Option (Byte × State) :=
  if inRanges s.noRead a then none
  else some (s.memAnswer 0 a,
    { s with reads := s.reads + 1 }.act (.memRead a (s.memAnswer 0 a)))

/-- `MemWrite(a, 1, b)` (20_memory.md R52, R61). The port action is all that a device sees of it
(R60; log 32). DESIGN CHOICE (log 36): a `MemWrite` that the platform never completes leaves the
byte at its address as it was. -/
def memWrite (a : Addr) (b : Byte) (s : State) : Option State :=
  if inRanges s.noWrite a then none
  else some ({ s with mem := s.mem.write a.toNat b }.act (.memWrite a b))

/-- `ExecCall(fn, args)`: the next free outcome, its value in `RET` and its stores in memory; no
outcome, no return (20_memory.md R59, D26; log 8). DESIGN CHOICE (log 35): what the called code
stores is in memory from its return on and not before, though R59 and R244 let it write during the
call. -/
def callOut (fn : Word) (args : List Word) (s : State) : Option State :=
  match s.calls with
  | [] => none
  | o :: rest =>
    some ({ s with calls := rest, mem := s.mem.writeAll o.stores, ret := o.value }.act
      (.execCall fn args o.value))

/-! ## The codec (41_codec_ops.md) -/

/-- `rx_u8()` (R142): receive one byte and fold it into `RXCRC`. -/
def recvU8 (s : State) : Option (Byte × State) :=
  match rxByte s with
  | none => none
  | some (b, s) => some (b, { s with rxcrc := crc8Step s.rxcrc b })

/-- `tx_u8(b)` (R146): send one byte and fold it into `TXCRC`. -/
def sendU8 (b : Byte) (s : State) : Option State :=
  match txByte b s with
  | none => none
  | some s => some { s with txcrc := crc8Step s.txcrc b }

/-- How far an operation came: it is over, or a port has stopped it and `rest` is left. -/
inductive Progress where
  | done (s : State)
  | waits (s : State) (rest : Op)
deriving DecidableEq, Repr

/-- Receive `left` more bytes of an integer after `got`, then write it to its destination, the
first byte received its least significant (R143 to R145). -/
def recvInt (d : Dest) : Nat → List Byte → State → Progress
  | 0, got, s => .done (s.setDest (leValue 64 got) d)
  | left + 1, got, s =>
    match recvU8 s with
    | none => .waits s (.rxInt d (left + 1) got)
    | some (b, s) => recvInt d left (got ++ [b]) s

/-- Send bytes in order, each folded (R147 to R149). -/
def sendBytes : List Byte → State → Progress
  | [], s => .done s
  | b :: bs, s =>
    match sendU8 b s with
    | none => .waits s (.txBytes (b :: bs))
    | some s => sendBytes bs s

/-- The address of the data byte with index `CNT` (20_memory.md R55). -/
def State.dataAddr (s : State) (addr : Addr) : Addr := addr + s.cnt.setWidth 64

/-- The data bytes of a bulk operation of `len` bytes that are still to be moved (R28). -/
def State.dataLeft (s : State) (len : BitVec 32) : Nat := (len - s.cnt).toNat

/-- One more data byte has been moved (R28). -/
def State.bumpCnt (s : State) : State := { s with cnt := s.cnt + 1 }

/-- `n` more iterations of `rx_data`: each byte is stored as soon as it has been received and
folded, before the next is received (R150, 20_memory.md R54). -/
def recvData (addr : Addr) (len : BitVec 32) : Nat → State → Progress
  | 0, s => .done s
  | n + 1, s =>
    match recvU8 s with
    | none => .waits s (.rxDataFrom addr len none)
    | some (b, s) =>
      match memWrite (s.dataAddr addr) b s with
      | none => .waits s (.rxDataFrom addr len (some b))
      | some s => recvData addr len n s.bumpCnt

/-- `rx_data` from `CNT` on, the byte already received and not yet stored first. -/
def recvDataFrom (addr : Addr) (len : BitVec 32) (held : Option Byte) (s : State) : Progress :=
  match held with
  | none => recvData addr len (s.dataLeft len) s
  | some b =>
    match memWrite (s.dataAddr addr) b s with
    | none => .waits s (.rxDataFrom addr len (some b))
    | some s => recvData addr len (s.dataLeft len - 1) s.bumpCnt

/-- `n` more iterations of `tx_data`: each byte is read from memory immediately before it is sent
(R151, 20_memory.md R53, D22; log 33). -/
def sendData (addr : Addr) (len : BitVec 32) : Nat → State → Progress
  | 0, s => .done s
  | n + 1, s =>
    match memRead (s.dataAddr addr) s with
    | none => .waits s (.txDataFrom addr len none)
    | some (b, s) =>
      match sendU8 b s with
      | none => .waits s (.txDataFrom addr len (some b))
      | some s => sendData addr len n s.bumpCnt

/-- `tx_data` from `CNT` on, the byte already read and not yet sent first: no byte is read twice
(R53, R60). -/
def sendDataFrom (addr : Addr) (len : BitVec 32) (held : Option Byte) (s : State) : Progress :=
  match held with
  | none => sendData addr len (s.dataLeft len) s
  | some b =>
    match sendU8 b s with
    | none => .waits s (.txDataFrom addr len (some b))
    | some s => sendData addr len (s.dataLeft len - 1) s.bumpCnt

/-- `n` more iterations of `rx_ignore_data`: each byte is received, folded and dropped (R152). -/
def recvIgnore (len : BitVec 32) : Nat → State → Progress
  | 0, s => .done s
  | n + 1, s =>
    match recvU8 s with
    | none => .waits s (.rxIgnoreFrom len)
    | some (_, s) => recvIgnore len n s.bumpCnt

/-- `rx_ignore_data` from `CNT` on. -/
def recvIgnoreFrom (len : BitVec 32) (s : State) : Progress :=
  recvIgnore len (s.dataLeft len) s

/-- `rx_validate_crc()`: the trailing byte is compared with `RXCRC`, not folded into it; the
boolean is latched in `CRC_OK` (R153, D16; log 20). -/
def validateCrc (s : State) : Progress :=
  match rxByte s with
  | none => .waits s .rxValidateCrc
  | some (c, s) => .done { s with crcOk := crcMatches c s }

/-- `tx_crc()`: `TXCRC` is sent, not folded (R154, D16; log 20). -/
def sendCrc (s : State) : Progress :=
  match txByte s.txcrc s with
  | none => .waits s .txCrc
  | some s => .done s

/-! ## Execute's memory accesses (42_commands.md R187, 20_memory.md R56, R57) -/

/-- The bytes of the context record and of the 8-byte result slot. -/
def contextSize : Nat := 72

/-- The address of the first argument slot. -/
def State.slotAddr (s : State) : Addr := s.addr + 8

/-- Read `left` more bytes of the context after `got`, in ascending order, then take its nine
words: `fn` and `a_0` to `a_7`. -/
def readContext : Nat → List Byte → State → Progress
  | 0, got, s => .done { s with ctx := contextWords got }
  | left + 1, got, s =>
    match memRead (s.addr + BitVec.ofNat 64 got.length) s with
    | none => .waits s (.loadContext (left + 1) got)
    | some (b, s) => readContext left (got ++ [b]) s

/-- `ExecCall` with the function pointer and the eight argument words. -/
def callContext (s : State) : Progress :=
  match callOut (s.ctx.headD 0) s.ctx.tail s with
  | none => .waits s .execCall
  | some s => .done s

/-- Store bytes at ascending addresses (R56). -/
def writeBytes : Addr → List Byte → State → Progress
  | _, [], s => .done s
  | a, b :: bs, s =>
    match memWrite a b s with
    | none => .waits s (.storeBytes a (b :: bs))
    | some s => writeBytes (a + 1) bs s

/-- Read `left` more bytes of the result slot after `got`, then latch `RESULT` (R29, D25;
log 33). -/
def readSlot : Nat → List Byte → State → Progress
  | 0, got, s => .done { s with result := leValue 64 got }
  | left + 1, got, s =>
    match memRead (s.slotAddr + BitVec.ofNat 64 got.length) s with
    | none => .waits s (.loadSlot (left + 1) got)
    | some (b, s) => readSlot left (got ++ [b]) s

/-! ## Running pseudocode -/

/-- One operation, from where it is. -/
def Op.run : Op → State → Progress
  | .setPhase p, s => .done { s with phase := p }
  | .rxStart, s => .done { s with rxcrc := crcFrameSeed }
  | .txStart, s => .done { s with txcrc := crcFrameSeed }
  | .rxInt d left got, s => recvInt d left got s
  | .txInt n v, s => sendBytes (leBytes n (v.eval s)) s
  | .txBytes bs, s => sendBytes bs s
  | .checkPolicy, s => .done { s with policyOk := policyPasses s.params s.addr }
  | .rxData a l, s =>
      recvDataFrom (a.eval s) ((l.eval s).setWidth 32) none { s with cnt := 0 }
  | .rxDataFrom a l held, s => recvDataFrom a l held s
  | .txData a l, s =>
      sendDataFrom (a.eval s) ((l.eval s).setWidth 32) none { s with cnt := 0 }
  | .txDataFrom a l held, s => sendDataFrom a l held s
  | .rxIgnoreData l, s => recvIgnoreFrom ((l.eval s).setWidth 32) { s with cnt := 0 }
  | .rxIgnoreFrom l, s => recvIgnoreFrom l s
  | .rxValidateCrc, s => validateCrc s
  | .txCrc, s => sendCrc s
  | .txFlush, s =>
      match flushTx s with
      | none => .waits s .txFlush
      | some s => .done s
  | .loadContext left got, s => readContext left got s
  | .execCall, s => callContext s
  | .storeSlot, s => writeBytes s.slotAddr (leBytes 8 s.ret) s
  | .storeBytes a bs, s => writeBytes a bs s
  | .loadSlot left got, s => readSlot left got s

/-- Run pseudocode until it is over, or until a port does not answer; `pos` then says what is left
(R24, R13). -/
def Prog.run : Prog → State → State
  | .done, s => { s with pos := .done }
  | .dispatch, s => { s with pos := .dispatch }
  | .hardReset, s => { s with pos := .resetting }.act .hardReset
  | .resetting, s => { s with pos := .resetting }
  | .op o next, s =>
    match o.run s with
    | .done s => next.run s
    | .waits s rest => { s with pos := .op rest next }
  | .onCrcOk yes no, s => if s.crcOk then yes.run s else no.run s
  | .onPolicyOk yes no, s => if s.policyOk then yes.run s else no.run s

/-- Run one codec operation that is driven on its own (R270): the sequencer's position is left as
it is, or, where a port stops the operation, what is left of it comes before it (log 12). -/
def Op.runAlone (o : Op) (s : State) : State :=
  match o.run s with
  | .done s => s
  | .waits s rest => { s with pos := .op rest s.pos }

/-- Straight-line pseudocode. -/
def Prog.seq : List Op → Prog → Prog
  | [], k => k
  | o :: os, k => .op o (Prog.seq os k)

/-! ## Frames and errors -/

/-- The 16-bit error code (00_scope.md R8). -/
def errorValue : ErrorCode → BitVec 16
  | .invalidCrc => 1
  | .invalidCommand => 2
  | .invalidArgument => 3

/-- `raise Error(code)`: one Error frame, then back to `AwaitCommand`, and nothing more of the
current frame (60_exceptions.md R230, R236). Nothing is saved; there is no return (R238). -/
def raiseError (e : ErrorCode) : Prog :=
  Prog.seq
    [.setPhase .responding, .txStart, .txInt 2 (.imm (cmdError.setWidth 64)),
      .txInt 2 (.imm ((errorValue e).setWidth 64)), .txCrc, .setPhase .awaitCommand]
    .done

/-- A success response: `STATE <- Responding`, the echoed command code, the fields, the checksum
(30_encoding.md R85), then `k`. -/
def respond (fields : List Op) (k : Prog) : Prog :=
  Prog.seq ([.setPhase .responding, .txStart, .txInt 2 .cmd] ++ fields ++ [.txCrc]) k

/-- The end of an iteration (42_commands.md R191). -/
def endFrame : Prog := .op (.setPhase .awaitCommand) .done

/-- The common tail: validate, and go on only if the checksum is right (42_commands.md R190). -/
def validated (k : Prog) : Prog :=
  .op (.setPhase .validatingCrc) (.op .rxValidateCrc (.onCrcOk k (raiseError .invalidCrc)))

/-- The end of a rejected request: the checksum byte is consumed and its comparison not used, or
it is left in the stream (42_commands.md R186, R187, D7; log 14). -/
def rejected (p : Params) (e : ErrorCode) : Prog :=
  match p.policyFailCrc with
  | .consumeMasked => .op .rxValidateCrc (raiseError e)
  | .skip => raiseError e

/-- Waiting for the first byte of a command code, `rx_start` performed (42_commands.md R180). -/
def awaitCode (body : Prog) : Prog :=
  Prog.seq [.rxInt .cmd 2 [], .setPhase .decodingFields] body

/-- The start of an iteration (42_commands.md R180). -/
def frame (body : Prog) : Prog :=
  Prog.seq [.setPhase .awaitCommand, .rxStart] (awaitCode body)

/-- The block handles one request frame whose bytes arrive before what the receive stream still
holds (log 10). -/
def receiveFrame (bytes : List Byte) (body : Prog) (s : State) : State :=
  (frame body).run { s with rx := bytes ++ s.rx }

/-! ## Hard reset (70_reset_and_hazards.md R262, R263) -/

/-- The power-on that follows a hard reset: the state of R260 with the same arguments; what memory
(`State.memByte` of the new power cycle) and the receive stream hold is free (D18; log 9). The
platform and the port log go on. -/
def powerOn (s : State) : State :=
  { State.reset with
    params := s.params
    log := s.log
    devices := s.devices
    reads := s.reads
    noRead := s.noRead
    noWrite := s.noWrite
    txRoom := s.txRoom
    flushReady := s.flushReady
    calls := s.calls
    rx := Config.rxAfterReset s.cycle
    cycle := s.cycle + 1 }

/-- A reset of the platform from outside has the same effect, at whatever point of a frame (R263;
log 27). It is an event of the host interface, not a step. -/
def externalReset (s : State) : State := powerOn s

end Sys2Proof.Machine
end

