-- ==== Sys2Proof/Machine/Codec.lean ====
section
/-! DEFINITION. The meanings of the internal operations: `crc8_step` (40_crc8.md R120) and the
fifteen codec operations (41_codec_ops.md R140 to R154), each driven on its own (R270). An integer
they return is in `RET` (log 12). -/

namespace Sys2Proof.Machine

/-- crc8_step(acc, b) (R120): a pure function; its value is returned, nothing else changes. -/
def execCrc8Step (acc b : Byte) (s : State) : Host.Outcome State Fault Refusal :=
  .next { s with ret := (crc8Step acc b).setWidth 64 }

/-- rx_start() (R140). -/
def execRxStart (s : State) : Host.Outcome State Fault Refusal :=
  .next (Op.rxStart.runAlone s)

/-- tx_start() (R141). -/
def execTxStart (s : State) : Host.Outcome State Fault Refusal :=
  .next (Op.txStart.runAlone s)

/-- rx_u8() (R142). -/
def execRxU8 (s : State) : Host.Outcome State Fault Refusal :=
  .next ((Op.rxInt .ret 1 []).runAlone s)

/-- rx_u16() (R143). -/
def execRxU16 (s : State) : Host.Outcome State Fault Refusal :=
  .next ((Op.rxInt .ret 2 []).runAlone s)

/-- rx_u32() (R144). -/
def execRxU32 (s : State) : Host.Outcome State Fault Refusal :=
  .next ((Op.rxInt .ret 4 []).runAlone s)

/-- rx_u64() (R145). -/
def execRxU64 (s : State) : Host.Outcome State Fault Refusal :=
  .next ((Op.rxInt .ret 8 []).runAlone s)

/-- tx_u8(v) (R146). -/
def execTxU8 (v : BitVec 8) (s : State) : Host.Outcome State Fault Refusal :=
  .next ((Op.txInt 1 (.imm (v.setWidth 64))).runAlone s)

/-- tx_u16(v) (R147). -/
def execTxU16 (v : BitVec 16) (s : State) : Host.Outcome State Fault Refusal :=
  .next ((Op.txInt 2 (.imm (v.setWidth 64))).runAlone s)

/-- tx_u32(v) (R148). -/
def execTxU32 (v : BitVec 32) (s : State) : Host.Outcome State Fault Refusal :=
  .next ((Op.txInt 4 (.imm (v.setWidth 64))).runAlone s)

/-- tx_u64(v) (R149). -/
def execTxU64 (v : BitVec 64) (s : State) : Host.Outcome State Fault Refusal :=
  .next ((Op.txInt 8 (.imm v)).runAlone s)

/-- rx_data(addr, len) (R150). -/
def execRxData (addr : Addr) (len : BitVec 32) (s : State) : Host.Outcome State Fault Refusal :=
  .next ((Op.rxData (.imm addr) (.imm (len.setWidth 64))).runAlone s)

/-- tx_data(addr, len) (R151). -/
def execTxData (addr : Addr) (len : BitVec 32) (s : State) : Host.Outcome State Fault Refusal :=
  .next ((Op.txData (.imm addr) (.imm (len.setWidth 64))).runAlone s)

/-- rx_ignore_data(len) (R152). -/
def execRxIgnoreData (len : BitVec 32) (s : State) : Host.Outcome State Fault Refusal :=
  .next ((Op.rxIgnoreData (.imm (len.setWidth 64))).runAlone s)

/-- rx_validate_crc() (R153); the boolean it returns is in `CRC_OK`. -/
def execRxValidateCrc (s : State) : Host.Outcome State Fault Refusal :=
  .next (Op.rxValidateCrc.runAlone s)

/-- tx_crc() (R154). -/
def execTxCrc (s : State) : Host.Outcome State Fault Refusal :=
  .next (Op.txCrc.runAlone s)

end Sys2Proof.Machine
end

