-- ==== Sys2Proof/Machine/Responses.lean ====
section
/-! DEFINITION. The six success responses (30_encoding.md R85, 42_commands.md R183 to R188) and the
three Error responses (60_exceptions.md R230): the responding part of a frame, its fields taken
from the block's registers, and the return to `AwaitCommand` (R191; log 28). -/

namespace Sys2Proof.Machine

/-- Format SV: command code, version (R183). -/
def respondVersion : Prog := respond [.txInt 2 .protocolVersion] endFrame

/-- Format SB: command code, guard address (R184). -/
def respondBase : Prog := respond [.txInt 8 .guardAddress] endFrame

/-- Format SALD: command code, address, length, then each data byte read and sent (R185, R53). -/
def respondData : Prog :=
  respond [.txInt 8 .addr, .txInt 4 .len, .txData .addr .len] endFrame

/-- Format SAL: command code, address, length (R186). -/
def respondWrote : Prog := respond [.txInt 8 .addr, .txInt 4 .len] endFrame

/-- Format SAR: command code, address, result (R187). -/
def respondResult : Prog := respond [.txInt 8 .addr, .txInt 8 .result] endFrame

/-- Format S0: command code only, then flush the transport and invoke the reset, which never
returns (R188; log 23). -/
def respondResetting : Prog := respond [] (.op .txFlush .hardReset)

/-- RSP_VERSION. -/
def execRspVersion (s : State) : Host.Outcome State Fault Refusal :=
  .next (respondVersion.run s)

/-- RSP_BASE. -/
def execRspBase (s : State) : Host.Outcome State Fault Refusal :=
  .next (respondBase.run s)

/-- RSP_DATA. -/
def execRspData (s : State) : Host.Outcome State Fault Refusal :=
  .next (respondData.run s)

/-- RSP_WROTE. -/
def execRspWrote (s : State) : Host.Outcome State Fault Refusal :=
  .next (respondWrote.run s)

/-- RSP_RESULT. -/
def execRspResult (s : State) : Host.Outcome State Fault Refusal :=
  .next (respondResult.run s)

/-- RSP_RESETTING. -/
def execRspResetting (s : State) : Host.Outcome State Fault Refusal :=
  .next (respondResetting.run s)

/-- ERROR_INVALID_CRC (60_exceptions.md R231). -/
def execErrorInvalidCrc (s : State) : Host.Outcome State Fault Refusal :=
  .next ((raiseError .invalidCrc).run s)

/-- ERROR_INVALID_COMMAND (R232). -/
def execErrorInvalidCommand (s : State) : Host.Outcome State Fault Refusal :=
  .next ((raiseError .invalidCommand).run s)

/-- ERROR_INVALID_ARGUMENT (R233). -/
def execErrorInvalidArgument (s : State) : Host.Outcome State Fault Refusal :=
  .next ((raiseError .invalidArgument).run s)

end Sys2Proof.Machine
end

