-- ==== Sys2Proof/Machine/Requests.lean ====
section
/-! DEFINITION. The seven request cases of the Command Dispatcher (42_commands.md R183 to R189).
The pseudocode of each stands here as a `Prog`, from the moment the command code is in `CMD`; a
meaning is the block handling the whole request frame (log 10). -/

namespace Sys2Proof.Machine

/-- GetVersion (R183). -/
def getVersionBody : Prog := validated respondVersion

/-- GetBaseAddress (R184). -/
def getBaseBody : Prog := validated respondBase

/-- Read (R185): no policy check; the memory is read during the response. -/
def readBody : Prog :=
  Prog.seq [.rxInt .addr 8 [], .rxInt .len 4 []] (validated respondData)

/-- Write (R186): the data is stored as it arrives, before validation (R54, D9; log 16), or
drained without a memory access. -/
def writeBody (p : Params) : Prog :=
  Prog.seq [.rxInt .addr 8 [], .rxInt .len 4 [], .checkPolicy]
    (.onPolicyOk
      (.op (.rxData .addr .len) (validated respondWrote))
      (.op (.rxIgnoreData .len) (rejected p .invalidArgument)))

/-- Execute (R187): the call only after the checksum has been found right (D10; log 17). -/
def executeBody (p : Params) : Prog :=
  Prog.seq [.rxInt .addr 8 [], .checkPolicy]
    (.onPolicyOk
      (validated
        (Prog.seq
          [.setPhase .responding, .loadContext contextSize [], .execCall, .storeSlot,
            .loadSlot 8 []]
          respondResult))
      (rejected p .invalidArgument))

/-- Reset (R188). -/
def resetBody : Prog := validated respondResetting

/-- Unrecognised (R189), by `UNKNOWN_CMD_CRC` (D8; log 15). -/
def unrecognisedBody (p : Params) : Prog :=
  match p.unknownCmdCrc with
  | .consumeMasked => .op .rxValidateCrc (raiseError .invalidCommand)
  | .skip => raiseError .invalidCommand
  | .consumeReported =>
      .op .rxValidateCrc (.onCrcOk (raiseError .invalidCommand) (raiseError .invalidCrc))

/-- What the dispatch performs for a received code (R181). -/
def commandBody (p : Params) (code : BitVec 16) : Prog :=
  match p.commandOf code with
  | .getVersion => getVersionBody
  | .getBase => getBaseBody
  | .read => readBody
  | .write => writeBody p
  | .execute => executeBody p
  | .reset => resetBody
  | .unrecognised => unrecognisedBody p

/-- The block runs on from a position, through the dispatch if it comes to it (R180, R181). -/
def advance (p : Prog) (s : State) : State :=
  match (p.run s).pos with
  | .dispatch => (commandBody (p.run s).params (p.run s).cmd).run (p.run s)
  | _ => p.run s

/-- One iteration of the loop, byte by byte, on whatever the receive stream holds (R180). -/
def serveFrame (s : State) : State := advance (frame .dispatch) s

/-- GETVERSION. -/
def execGetVersion (crc : Byte) (s : State) : Host.Outcome State Fault Refusal :=
  .next (receiveFrame (frameBytes s.params.cmdGetVersion [] crc) getVersionBody s)

/-- GETBASE. -/
def execGetBase (crc : Byte) (s : State) : Host.Outcome State Fault Refusal :=
  .next (receiveFrame (frameBytes cmdGetBaseAddress [] crc) getBaseBody s)

/-- READ. -/
def execRead (addr : Addr) (len : BitVec 32) (crc : Byte) (s : State) :
    Host.Outcome State Fault Refusal :=
  .next (receiveFrame (frameBytes s.params.cmdRead (leBytes 8 addr ++ leBytes 4 len) crc)
    readBody s)

/-- WRITE. -/
def execWrite (addr : Addr) (len : BitVec 32) (data : List Byte) (crc : Byte) (s : State) :
    Host.Outcome State Fault Refusal :=
  .next (receiveFrame
    (frameBytes s.params.cmdWrite (leBytes 8 addr ++ leBytes 4 len ++ data) crc)
    (writeBody s.params) s)

/-- EXECUTE. -/
def execExecute (addr : Addr) (crc : Byte) (s : State) : Host.Outcome State Fault Refusal :=
  .next (receiveFrame (frameBytes s.params.cmdExecute (leBytes 8 addr) crc)
    (executeBody s.params) s)

/-- RESET. -/
def execReset (crc : Byte) (s : State) : Host.Outcome State Fault Refusal :=
  .next (receiveFrame (frameBytes s.params.cmdReset [] crc) resetBody s)

/-- UNRECOGNISED. -/
def execUnrecognised (code : BitVec 16) (crc : Option Byte) (s : State) :
    Host.Outcome State Fault Refusal :=
  .next (receiveFrame (leBytes 2 code ++ crc.toList) (unrecognisedBody s.params) s)

end Sys2Proof.Machine
end

