-- ==== Sys2Proof/Machine/Dispatch.lean ====
section
/-! DEFINITION. One arm per instruction, each the call of its meaning. -/

namespace Sys2Proof.Machine

def exec (i : Instr) (s : State) : Host.Outcome State Fault Refusal :=
  match i with
  -- requests (42_commands.md)
  | .getVersion crc => Sys2Proof.Machine.execGetVersion crc s
  | .getBase crc => Sys2Proof.Machine.execGetBase crc s
  | .read addr len crc => Sys2Proof.Machine.execRead addr len crc s
  | .write addr len data crc => Sys2Proof.Machine.execWrite addr len data crc s
  | .execute addr crc => Sys2Proof.Machine.execExecute addr crc s
  | .reset crc => Sys2Proof.Machine.execReset crc s
  | .unrecognised code crc => Sys2Proof.Machine.execUnrecognised code crc s
  -- responses (30_encoding.md R85, 60_exceptions.md R230)
  | .rspVersion => Sys2Proof.Machine.execRspVersion s
  | .rspBase => Sys2Proof.Machine.execRspBase s
  | .rspData => Sys2Proof.Machine.execRspData s
  | .rspWrote => Sys2Proof.Machine.execRspWrote s
  | .rspResult => Sys2Proof.Machine.execRspResult s
  | .rspResetting => Sys2Proof.Machine.execRspResetting s
  | .errorInvalidCrc => Sys2Proof.Machine.execErrorInvalidCrc s
  | .errorInvalidCommand => Sys2Proof.Machine.execErrorInvalidCommand s
  | .errorInvalidArgument => Sys2Proof.Machine.execErrorInvalidArgument s
  -- internal operations (40_crc8.md, 41_codec_ops.md)
  | .crc8Step acc b => Sys2Proof.Machine.execCrc8Step acc b s
  | .rxStart => Sys2Proof.Machine.execRxStart s
  | .txStart => Sys2Proof.Machine.execTxStart s
  | .rxU8 => Sys2Proof.Machine.execRxU8 s
  | .rxU16 => Sys2Proof.Machine.execRxU16 s
  | .rxU32 => Sys2Proof.Machine.execRxU32 s
  | .rxU64 => Sys2Proof.Machine.execRxU64 s
  | .txU8 v => Sys2Proof.Machine.execTxU8 v s
  | .txU16 v => Sys2Proof.Machine.execTxU16 v s
  | .txU32 v => Sys2Proof.Machine.execTxU32 v s
  | .txU64 v => Sys2Proof.Machine.execTxU64 v s
  | .rxData addr len => Sys2Proof.Machine.execRxData addr len s
  | .txData addr len => Sys2Proof.Machine.execTxData addr len s
  | .rxIgnoreData len => Sys2Proof.Machine.execRxIgnoreData len s
  | .rxValidateCrc => Sys2Proof.Machine.execRxValidateCrc s
  | .txCrc => Sys2Proof.Machine.execTxCrc s

end Sys2Proof.Machine
end

