-- ==== Sys2Proof/Machine/Step.lean ====
section
/-! DEFINITION. One step of the machine: at the top of the loop it serves the next request frame, in
the middle of a frame it goes on from where a port stopped it, after a hard reset it powers on
(log 1, 2, 9). -/

namespace Sys2Proof.Machine

/-- A step serves one request frame, or as much of it as the ports allow. At the top of the loop
(42_commands.md R180) a complete frame is decoded, taken from the receive stream and executed; an
incomplete one is received byte by byte as far as it goes. In the middle of a frame the step goes
on from `pos`; where the port still does not answer it leaves the state as it is, which is the
block waiting (00_scope.md R13). After `HardReset` the next power cycle begins (R262). -/
def step (s : State) : Host.Outcome State Fault Refusal :=
  match s.pos with
  | .done =>
    match decode s.params s.rx with
    | .ok (i, rest) => exec i { s with rx := rest }
    | .error _ => .next (serveFrame s)
  | .resetting => .next (powerOn s)
  | p => .next (advance p s)

/-- The instruction's bytes, put where the next step receives its frame: at the head of the receive
stream, the block at the top of the loop (log 10). -/
def State.withFetchWord (s : State) (nbits w : Nat) : State :=
  { s with pos := .done, rx := wordBytes nbits w ++ s.rx }

end Sys2Proof.Machine
end

