-- ==== Sys2Proof/Safety.lean ====
section
/-! DEFINITION. The terms in which statements speak of runs: what has been received and sent, when a
port answers, when the block is quiescent or a run complete (70_reset_and_hazards.md R266), and
which frames are right. -/

namespace Sys2Proof

/-- The length of a request frame (the `length_bytes` of the table; 30_encoding.md R84, R90). An
instruction that does not arrive on the wire has none. -/
def Instr.frameLength (p : Params) : Instr → Nat
  | .getVersion _ => 3
  | .getBase _ => 3
  | .read _ _ _ => 15
  | .write _ len _ _ => 15 + len.toNat
  | .execute _ _ => 11
  | .reset _ => 3
  | .unrecognised _ _ => if p.unknownCmdCrc = .skip then 2 else 3
  | .rspVersion => 0
  | .rspBase => 0
  | .rspData => 0
  | .rspWrote => 0
  | .rspResult => 0
  | .rspResetting => 0
  | .errorInvalidCrc => 0
  | .errorInvalidCommand => 0
  | .errorInvalidArgument => 0
  | .crc8Step _ _ => 0
  | .rxStart => 0
  | .txStart => 0
  | .rxU8 => 0
  | .rxU16 => 0
  | .rxU32 => 0
  | .rxU64 => 0
  | .txU8 _ => 0
  | .txU16 _ => 0
  | .txU32 _ => 0
  | .txU64 _ => 0
  | .rxData _ _ => 0
  | .txData _ _ => 0
  | .rxIgnoreData _ => 0
  | .rxValidateCrc => 0
  | .txCrc => 0

end Sys2Proof

namespace Sys2Proof.Machine

/-- The bytes handed to `TxByte` by a list of port actions, in order. -/
def sentBytes : List PortAction → List Byte
  | [] => []
  | .txByte b :: ps => b :: sentBytes ps
  | .rxByte _ :: ps => sentBytes ps
  | .txFlush :: ps => sentBytes ps
  | .memRead _ _ :: ps => sentBytes ps
  | .memWrite _ _ :: ps => sentBytes ps
  | .execCall _ _ _ :: ps => sentBytes ps
  | .hardReset :: ps => sentBytes ps

/-- The transmit stream so far (10_state.md R34 (c)). -/
def State.transmitted (s : State) : List Byte := sentBytes s.log

/-- Whether a port action reaches the target memory or leaves the block through the call
(20_memory.md R51). -/
def PortAction.touchesMemory : PortAction → Bool
  | .memRead _ _ => true
  | .memWrite _ _ => true
  | .execCall _ _ _ => true
  | .rxByte _ => false
  | .txByte _ => false
  | .txFlush => false
  | .hardReset => false

/-- The transport will accept `n` more bytes (00_scope.md R13). -/
abbrev State.accepts (s : State) (n : Nat) : Prop :=
  match s.txRoom with
  | none => True
  | some room => n ≤ room

/-- The transport's room after `n` more bytes. -/
def State.roomAfter (s : State) (n : Nat) : Option Nat := s.txRoom.map (· - n)

/-- The platform completes a `MemRead` of each of `n` addresses from `a` on, modulo 2^64 (R61). -/
abbrev State.readable (s : State) (a : Addr) (n : Nat) : Prop :=
  ∀ k < n, inRanges s.noRead (a + BitVec.ofNat 64 k) = false

/-- The platform completes a `MemWrite` of each of `n` addresses from `a` on, modulo 2^64 (R61). -/
abbrev State.writable (s : State) (a : Addr) (n : Nat) : Prop :=
  ∀ k < n, inRanges s.noWrite (a + BitVec.ofNat 64 k) = false

/-- None of `n` addresses from `a` on, modulo 2^64, is device memory: a `MemRead` of one answers the
byte last stored there, the premise of 20_memory.md R70. -/
abbrev State.ordinary (s : State) (a : Addr) (n : Nat) : Prop :=
  ∀ k < n, inRanges s.devices (a + BitVec.ofNat 64 k) = false

/-- What the next `n` `MemRead`s answer, at ascending addresses from `a` on, modulo 2^64 (R53,
R82). -/
def State.bytesAt (s : State) (a : Addr) (n : Nat) : List Byte :=
  (List.range n).map fun k => s.memAnswer k (a + BitVec.ofNat 64 k)

/-- Memory after bytes have been stored at ascending addresses from `a` on (R54). -/
def Memory.storeBytesAt (m : Memory) (a : Addr) : List Byte → Memory
  | [] => m
  | b :: bs => Memory.storeBytesAt (m.write a.toNat b) (a + 1) bs

/-- The port actions of receiving bytes (R12). -/
def receiveActions (bs : List Byte) : List PortAction := bs.map PortAction.rxByte

/-- The port actions of sending bytes (R12). -/
def sendActions (bs : List Byte) : List PortAction := bs.map PortAction.txByte

/-- The port actions that read `bs` from ascending addresses from `a` on (R53, R56). -/
def readActions (a : Addr) : List Byte → List PortAction
  | [] => []
  | b :: bs => .memRead a b :: readActions (a + 1) bs

/-- The port actions that store `bs` at ascending addresses from `a` on (R56). -/
def writeActions (a : Addr) : List Byte → List PortAction
  | [] => []
  | b :: bs => .memWrite a b :: writeActions (a + 1) bs

/-- The port actions of `tx_data`: each byte read, then sent (R53, R151). -/
def readAndSendActions (a : Addr) : List Byte → List PortAction
  | [] => []
  | b :: bs => .memRead a b :: .txByte b :: readAndSendActions (a + 1) bs

/-- The port actions of `rx_data`: each byte received, then stored (R54, R150). -/
def receiveAndStoreActions (a : Addr) : List Byte → List PortAction
  | [] => []
  | b :: bs => .rxByte b :: .memWrite a b :: receiveAndStoreActions (a + 1) bs

/-- The 64-bit little-endian word that a `MemRead` of 8 bytes answers after `k` further `MemRead`s
(20_memory.md R56). -/
def State.wordAt (s : State) (k : Nat) (a : Addr) : Word :=
  leValue 64 ((List.range 8).map fun i => s.memAnswer (k + i) (a + BitVec.ofNat 64 i))

/-- The execution context that the next 72 `MemRead`s answer: the function pointer at +0, argument
word `k` at `+8 + 8k` (20_memory.md R57). -/
def State.contextAt (s : State) (a : Addr) : List Word :=
  s.wordAt 0 a :: (List.range 8).map fun k => s.wordAt (8 + 8 * k) (a + 8 + BitVec.ofNat 64 (8 * k))

/-- A frame with the right checksum byte: the payload, then its CRC-8 (30_encoding.md R80, R83). -/
def withCrc (payload : List Byte) : List Byte := payload ++ [crc8 payload]

/-- The payload of an Error frame (60_exceptions.md R230). -/
def errorPayload (e : ErrorCode) : List Byte := leBytes 2 cmdError ++ leBytes 2 (errorValue e)

/-- The Error frame with a given code, five constant bytes (R230). -/
def errorFrame (e : ErrorCode) : List Byte := withCrc (errorPayload e)

/-- The state in which one response frame with a given payload has been handed to the transport
and the block is back at the top of the loop (42_commands.md R191); nothing else has changed. -/
def State.answer (s : State) (payload : List Byte) : State :=
  { s with
    txcrc := crc8 payload
    phase := .awaitCommand
    pos := .done
    txRoom := s.roomAfter (payload.length + 1)
    log := s.log ++ sendActions (withCrc payload) }

/-- The state in which an error has been reported by its Error frame (R230, R236). -/
def State.answerError (s : State) (e : ErrorCode) : State := s.answer (errorPayload e)

/-- The state in which the bytes of a request have been received, `payload` of them folded into
`RXCRC` from the frame seed (30_encoding.md R83). -/
def State.received (s : State) (code : BitVec 16) (payload : List Byte)
    (actions : List PortAction) : State :=
  { s with cmd := code, rxcrc := crc8 payload, log := s.log ++ actions }

/-- The frame's response header that Read and Write echo (30_encoding.md R85). -/
def echoHeader (code : BitVec 16) (addr : Addr) (len : BitVec 32) : List Byte :=
  leBytes 2 code ++ leBytes 8 addr ++ leBytes 4 len

/-- The table of `crc8_step(0x00, x)` as 40_crc8.md R127 prints it, row by row. -/
def crcTable : List Byte :=
  [0x00, 0x07, 0x0E, 0x09, 0x1C, 0x1B, 0x12, 0x15, 0x38, 0x3F, 0x36, 0x31, 0x24, 0x23, 0x2A, 0x2D] ++
  [0x70, 0x77, 0x7E, 0x79, 0x6C, 0x6B, 0x62, 0x65, 0x48, 0x4F, 0x46, 0x41, 0x54, 0x53, 0x5A, 0x5D] ++
  [0xE0, 0xE7, 0xEE, 0xE9, 0xFC, 0xFB, 0xF2, 0xF5, 0xD8, 0xDF, 0xD6, 0xD1, 0xC4, 0xC3, 0xCA, 0xCD] ++
  [0x90, 0x97, 0x9E, 0x99, 0x8C, 0x8B, 0x82, 0x85, 0xA8, 0xAF, 0xA6, 0xA1, 0xB4, 0xB3, 0xBA, 0xBD] ++
  [0xC7, 0xC0, 0xC9, 0xCE, 0xDB, 0xDC, 0xD5, 0xD2, 0xFF, 0xF8, 0xF1, 0xF6, 0xE3, 0xE4, 0xED, 0xEA] ++
  [0xB7, 0xB0, 0xB9, 0xBE, 0xAB, 0xAC, 0xA5, 0xA2, 0x8F, 0x88, 0x81, 0x86, 0x93, 0x94, 0x9D, 0x9A] ++
  [0x27, 0x20, 0x29, 0x2E, 0x3B, 0x3C, 0x35, 0x32, 0x1F, 0x18, 0x11, 0x16, 0x03, 0x04, 0x0D, 0x0A] ++
  [0x57, 0x50, 0x59, 0x5E, 0x4B, 0x4C, 0x45, 0x42, 0x6F, 0x68, 0x61, 0x66, 0x73, 0x74, 0x7D, 0x7A] ++
  [0x89, 0x8E, 0x87, 0x80, 0x95, 0x92, 0x9B, 0x9C, 0xB1, 0xB6, 0xBF, 0xB8, 0xAD, 0xAA, 0xA3, 0xA4] ++
  [0xF9, 0xFE, 0xF7, 0xF0, 0xE5, 0xE2, 0xEB, 0xEC, 0xC1, 0xC6, 0xCF, 0xC8, 0xDD, 0xDA, 0xD3, 0xD4] ++
  [0x69, 0x6E, 0x67, 0x60, 0x75, 0x72, 0x7B, 0x7C, 0x51, 0x56, 0x5F, 0x58, 0x4D, 0x4A, 0x43, 0x44] ++
  [0x19, 0x1E, 0x17, 0x10, 0x05, 0x02, 0x0B, 0x0C, 0x21, 0x26, 0x2F, 0x28, 0x3D, 0x3A, 0x33, 0x34] ++
  [0x4E, 0x49, 0x40, 0x47, 0x52, 0x55, 0x5C, 0x5B, 0x76, 0x71, 0x78, 0x7F, 0x6A, 0x6D, 0x64, 0x63] ++
  [0x3E, 0x39, 0x30, 0x37, 0x22, 0x25, 0x2C, 0x2B, 0x06, 0x01, 0x08, 0x0F, 0x1A, 0x1D, 0x14, 0x13] ++
  [0xAE, 0xA9, 0xA0, 0xA7, 0xB2, 0xB5, 0xBC, 0xBB, 0x96, 0x91, 0x98, 0x9F, 0x8A, 0x8D, 0x84, 0x83] ++
  [0xDE, 0xD9, 0xD0, 0xD7, 0xC2, 0xC5, 0xCC, 0xCB, 0xE6, 0xE1, 0xE8, 0xEF, 0xFA, 0xFD, 0xF4, 0xF3]

/-- The phase after an operation: only `STATE <- p` writes it (10_state.md R24). -/
def Op.phaseAfter : Op → Phase → Phase
  | .setPhase p, _ => p
  | _, ph => ph

/-- Run from a phase, this rest of a frame reaches the top of the loop only in `AwaitCommand`, the
dispatch only in `DecodingFields`, and the hard reset only in `Responding` (10_state.md R24, 42_commands.md R180,
R188, R191). -/
def Prog.phasesRight : Prog → Phase → Bool
  | .done, ph => decide (ph = .awaitCommand)
  | .dispatch, ph => decide (ph = .decodingFields)
  | .hardReset, ph => decide (ph = .responding)
  | .resetting, ph => decide (ph = .responding)
  | .op o next, ph => next.phasesRight (o.phaseAfter ph)
  | .onCrcOk yes no, ph => yes.phasesRight ph && no.phasesRight ph
  | .onPolicyOk yes no, ph => yes.phasesRight ph && no.phasesRight ph

/-- The invariant of the machine: memory is in its canonical form, and the block can be at the top
of the loop only in `AwaitCommand`, and so on for the other ends of a frame. -/
def State.inv (s : State) : Prop := s.mem.wf = true ∧ s.pos.phasesRight s.phase = true

/-- The bytes taken from `RxByte` by a list of port actions, in order. -/
def receivedBytes : List PortAction → List Byte
  | [] => []
  | .rxByte b :: ps => b :: receivedBytes ps
  | .txByte _ :: ps => receivedBytes ps
  | .txFlush :: ps => receivedBytes ps
  | .memRead _ _ :: ps => receivedBytes ps
  | .memWrite _ _ :: ps => receivedBytes ps
  | .execCall _ _ _ :: ps => receivedBytes ps
  | .hardReset :: ps => receivedBytes ps

/-- Two states in which the outside is the same: the arguments, the receive stream, the memory and
what the platform and the transport answer. The registers and the port log may differ. -/
def State.sameOutside (s t : State) : Prop :=
  s.params = t.params ∧ s.rx = t.rx ∧ s.mem = t.mem ∧ s.noRead = t.noRead ∧
    s.noWrite = t.noWrite ∧ s.txRoom = t.txRoom ∧ s.flushReady = t.flushReady ∧ s.calls = t.calls ∧
    s.devices = t.devices ∧ s.reads = t.reads ∧ s.cycle = t.cycle

/-- Quiescent (R266): `AwaitCommand`, `rx_start` performed, no byte of the next command code
consumed, and the receive stream offers no byte. -/
def State.quiescent (s : State) : Prop :=
  s.phase = .awaitCommand ∧ s.pos = awaitCode .dispatch ∧ s.rx = []

/-- A run is complete when the block is quiescent or has invoked `HardReset` (R266). -/
def State.runComplete (s : State) : Prop := s.quiescent ∨ s.pos = .resetting

/-- The block waits: the step leaves the state as it is (00_scope.md R13; log 1). -/
def State.waiting (s : State) : Prop := step s = .next s

/-- Codec operations, or other instructions, driven one after the other; the first that does not
answer a next state ends the run (40_crc8.md R128, 41_codec_ops.md R155). -/
def runInstrs : List Instr → State → Host.Outcome State Fault Refusal
  | [], s => .next s
  | i :: is, s =>
    match exec i s with
    | .next t => runInstrs is t
    | .fault f => .fault f
    | .refused r => .refused r

/-- The host sends bytes: they join the end of the receive stream (70_reset_and_hazards.md R274;
log 21). -/
def State.hostSends (s : State) (bs : List Byte) : State := { s with rx := s.rx ++ bs }

/-- The called code returns, if a call is waiting: its outcome joins the coming ones (R59; log 8). -/
def State.callReturns (s : State) (o : CallOutcome) : State := { s with calls := s.calls ++ [o] }

end Sys2Proof.Machine
end

