-- ==== Sys2Proof/Certificates/Slice0/Obligations.lean ====
section
/-! DEFINITION. The statements for the provers. Each names the rule of spec/ it formalises. Where a
statement gives the next state as an update of the first, every field it does not name is
unchanged: that is the frame of the instruction. -/

open Sys2Proof Sys2Proof.Machine

/-! ## The checksum step (40_crc8.md) -/

/-- R120: the eight iterations, bit 7 tested before the shift. That bit 7 is tested before the shift
and the polynomial exclusive-ored into the shifted value is the spec's own decision D6 (log 25). -/
def Obligations.CrcStepFollowsItsPseudocode : Prop :=
  ∀ acc b : Byte,
    crc8Step acc b = (fun a : Byte => if a.msb then (a <<< 1) ^^^ 0x07#8 else a <<< 1)^[8] (acc ^^^ b)

/-- R120, R127: driven on its own, the step returns the entry of the printed table at `acc ^ b`, and
nothing but the returned value changes. That the value is in `RET` is the model's choice (log 12).
The table's entries are those of the spec's own decision D6 (log 25). -/
def Obligations.CrcStepReturnsTheTableEntry : Prop :=
  ∀ (acc b : Byte) (s : State),
    exec (.crc8Step acc b) s =
      .next { s with ret := (crcTable.getD (acc ^^^ b).toNat 0).setWidth 64 }

/-- R127, then R126, (a) to (g). The table rests on the spec's own decision D6 (log 25); that
validation leaves RXCRC as it was is D16 (log 20), in R153. -/
def Obligations.CrcLaws : Prop :=
  (∀ x : Byte, crc8Step 0 x = crcTable.getD x.toNat 0) ∧
  (∀ acc b : Byte, crc8Step acc b = crcTable.getD (acc ^^^ b).toNat 0) ∧
  Function.Bijective (crc8Step 0) ∧
  (∀ b : Byte, Function.Bijective fun acc => crc8Step acc b) ∧
  (∀ acc : Byte, Function.Bijective fun b => crc8Step acc b) ∧
  (∀ x y : Byte, crc8Step 0 (x ^^^ y) = crc8Step 0 x ^^^ crc8Step 0 y) ∧
  crc8Step 0 0 = 0 ∧
  (∀ a : Byte, crc8Step a a = 0) ∧
  (∀ n : Nat, crc8 (List.replicate n 0) = 0) ∧
  (∀ (xs ys : List Byte) (b c : Byte), b ≠ c → crc8 (xs ++ b :: ys) ≠ crc8 (xs ++ c :: ys)) ∧
  (∀ (s : State) (payload rest : List Byte) (c : Byte), s.rxcrc = crc8 payload → s.rx = c :: rest →
    c ≠ crc8 payload →
    exec .rxValidateCrc s = .next { s with
      rx := rest
      crcOk := false
      log := s.log ++ [.rxByte c] })

/-! ## The codec operations (41_codec_ops.md), driven on their own -/

/-- R140, R141: each start resets its own accumulator and nothing else. -/
def Obligations.StartsResetTheirAccumulator : Prop :=
  ∀ s : State,
    exec .rxStart s = .next { s with rxcrc := 0x00 } ∧
    exec .txStart s = .next { s with txcrc := 0x00 }

/-- R142 to R145: each receive operation takes its bytes, folds each, and returns them assembled
with the first byte received in bits 7:0. That the value is in `RET` is the model's choice (log 12).
The byte order is the spec's own decision D1 (log 18). -/
def Obligations.RxIntegersAssembleTheirBytes : Prop :=
  (∀ (s : State) (b0 : Byte) (rest : List Byte), s.rx = b0 :: rest →
    exec .rxU8 s = .next { s with
      rx := rest
      rxcrc := crc8Step s.rxcrc b0
      ret := b0.setWidth 64
      log := s.log ++ [.rxByte b0] }) ∧
  (∀ (s : State) (b0 b1 : Byte) (rest : List Byte), s.rx = b0 :: b1 :: rest →
    exec .rxU16 s = .next { s with
      rx := rest
      rxcrc := crc8Step (crc8Step s.rxcrc b0) b1
      ret := (b1 ++ b0).setWidth 64
      log := s.log ++ [.rxByte b0, .rxByte b1] }) ∧
  (∀ (s : State) (b0 b1 b2 b3 : Byte) (rest : List Byte), s.rx = [b0, b1, b2, b3] ++ rest →
    exec .rxU32 s = .next { s with
      rx := rest
      rxcrc := crcFold s.rxcrc [b0, b1, b2, b3]
      ret := (b3 ++ b2 ++ b1 ++ b0).setWidth 64
      log := s.log ++ receiveActions [b0, b1, b2, b3] }) ∧
  (∀ (s : State) (b0 b1 b2 b3 b4 b5 b6 b7 : Byte) (rest : List Byte),
    s.rx = [b0, b1, b2, b3, b4, b5, b6, b7] ++ rest →
    exec .rxU64 s = .next { s with
      rx := rest
      rxcrc := crcFold s.rxcrc [b0, b1, b2, b3, b4, b5, b6, b7]
      ret := b7 ++ b6 ++ b5 ++ b4 ++ b3 ++ b2 ++ b1 ++ b0
      log := s.log ++ receiveActions [b0, b1, b2, b3, b4, b5, b6, b7] })

/-- R146 to R149: each transmit operation sends its bytes, bits 7:0 first, and folds each. The byte
order is the spec's own decision D1 (log 18). -/
def Obligations.TxIntegersSendTheirBytes : Prop :=
  (∀ (s : State) (v : BitVec 8), s.accepts 1 →
    exec (.txU8 v) s = .next { s with
      txcrc := crc8Step s.txcrc v
      txRoom := s.roomAfter 1
      log := s.log ++ [.txByte v] }) ∧
  (∀ (s : State) (v : BitVec 16), s.accepts 2 →
    exec (.txU16 v) s = .next { s with
      txcrc := crcFold s.txcrc [v.extractLsb' 0 8, v.extractLsb' 8 8]
      txRoom := s.roomAfter 2
      log := s.log ++ sendActions [v.extractLsb' 0 8, v.extractLsb' 8 8] }) ∧
  (∀ (s : State) (v : BitVec 32), s.accepts 4 →
    exec (.txU32 v) s = .next { s with
      txcrc := crcFold s.txcrc
        [v.extractLsb' 0 8, v.extractLsb' 8 8, v.extractLsb' 16 8, v.extractLsb' 24 8]
      txRoom := s.roomAfter 4
      log := s.log ++ sendActions
        [v.extractLsb' 0 8, v.extractLsb' 8 8, v.extractLsb' 16 8, v.extractLsb' 24 8] }) ∧
  (∀ (s : State) (v : BitVec 64), s.accepts 8 →
    exec (.txU64 v) s = .next { s with
      txcrc := crcFold s.txcrc
        [v.extractLsb' 0 8, v.extractLsb' 8 8, v.extractLsb' 16 8, v.extractLsb' 24 8,
          v.extractLsb' 32 8, v.extractLsb' 40 8, v.extractLsb' 48 8, v.extractLsb' 56 8]
      txRoom := s.roomAfter 8
      log := s.log ++ sendActions
        [v.extractLsb' 0 8, v.extractLsb' 8 8, v.extractLsb' 16 8, v.extractLsb' 24 8,
          v.extractLsb' 32 8, v.extractLsb' 40 8, v.extractLsb' 48 8, v.extractLsb' 56 8] })

/-- R150: each byte is received, folded and stored at its own address before the next. Storing each
byte as it arrives is the spec's own decision D9 (log 16), the byte accesses are D14 (log 33).
Addresses advance modulo 2^64 by D13 (log 26); that CNT counts to the length is D17 (log 30). -/
def Obligations.RxDataStoresEachByteAsItArrives : Prop :=
  ∀ (s : State) (addr : Addr) (len : BitVec 32) (data rest : List Byte),
    data.length = len.toNat → s.rx = data ++ rest → s.writable addr len.toNat →
    exec (.rxData addr len) s = .next { s with
      rx := rest
      rxcrc := crcFold s.rxcrc data
      cnt := len
      mem := s.mem.storeBytesAt addr data
      log := s.log ++ receiveAndStoreActions addr data }

/-- R151: each byte is read from memory immediately before it is sent and folded. Reading it then is
the spec's own decision D22, with D14 (log 33); what a read answers is the platform's: free where
nothing has been stored (log 6) and at a device's address (log 32), and counting the reads answered
is the model's (log 32). Addresses advance modulo 2^64 by D13 (log 26); that CNT counts to the
length is D17 (log 30). -/
def Obligations.TxDataReadsEachByteAndSendsIt : Prop :=
  ∀ (s : State) (addr : Addr) (len : BitVec 32),
    s.accepts len.toNat → s.readable addr len.toNat →
    exec (.txData addr len) s = .next { s with
      txcrc := crcFold s.txcrc (s.bytesAt addr len.toNat)
      cnt := len
      reads := s.reads + len.toNat
      txRoom := s.roomAfter len.toNat
      log := s.log ++ readAndSendActions addr (s.bytesAt addr len.toNat) }

/-- R152: the bytes are received, folded and dropped; no memory access of any kind. That CNT counts
to the length is D17 (log 30). -/
def Obligations.RxIgnoreDataDrainsWithoutStoring : Prop :=
  ∀ (s : State) (len : BitVec 32) (data rest : List Byte),
    data.length = len.toNat → s.rx = data ++ rest →
    exec (.rxIgnoreData len) s = .next { s with
      rx := rest
      rxcrc := crcFold s.rxcrc data
      cnt := len
      log := s.log ++ receiveActions data }

/-- R152: the bytes are consumed, folded and discarded, by no memory port and without a flag; and
`RXCRC` and the stream are then exactly what `rx_data` of the same bytes, to any address the
platform completes the stores at, would have left. -/
def Obligations.RxIgnoreDataLeavesTheChecksumOfRxData : Prop :=
  ∀ (s : State) (len : BitVec 32) (data rest : List Byte),
    data.length = len.toNat → s.rx = data ++ rest →
    ∃ t l, exec (.rxIgnoreData len) s = .next t ∧ t.rx = rest ∧ t.rxcrc = crcFold s.rxcrc data ∧
      t.crcOk = s.crcOk ∧ t.policyOk = s.policyOk ∧ t.mem = s.mem ∧ t.log = s.log ++ l ∧
      (∀ p ∈ l, p.touchesMemory = false) ∧
      ∀ addr : Addr, s.writable addr len.toNat →
        ∃ u, exec (.rxData addr len) s = .next u ∧ u.rxcrc = t.rxcrc ∧ u.rx = t.rx

/-- R153: one byte is received and compared; it is not folded, which is the spec's own decision D16,
one it says may equally be left unspecified (U10; log 20). -/
def Obligations.RxValidateCrcComparesOneByte : Prop :=
  ∀ (s : State) (c : Byte) (rest : List Byte), s.rx = c :: rest →
    exec .rxValidateCrc s = .next { s with
      rx := rest
      crcOk := decide (c = s.rxcrc)
      log := s.log ++ [.rxByte c] }

/-- R154: the accumulator is sent; it is not folded, which is the spec's own decision D16, one it
says may equally be left unspecified (U10; log 20). -/
def Obligations.TxCrcSendsTheAccumulator : Prop :=
  ∀ s : State, s.accepts 1 →
    exec .txCrc s = .next { s with
      txRoom := s.roomAfter 1
      log := s.log ++ [.txByte s.txcrc] }

/-- R128: a sender performs `tx_start`, `tx_u8` of each payload byte and `tx_crc`; a receiver whose
stream begins with the bytes sent performs `rx_start`, as many `rx_u8` and `rx_validate_crc`. Both
accumulators hold `crc8(payload)` before the checksum byte, and the validation is true. -/
def Obligations.WhatIsEncodedValidates : Prop :=
  ∀ (s : State) (payload : List Byte), s.accepts (payload.length + 1) →
    ∃ t t', runInstrs (.txStart :: payload.map .txU8) s = .next t ∧ t.txcrc = crc8 payload ∧
      exec .txCrc t = .next t' ∧ t'.transmitted = s.transmitted ++ withCrc payload ∧
      ∀ (r : State) (rest : List Byte), r.rx = withCrc payload ++ rest →
        ∃ u u', runInstrs (.rxStart :: payload.map fun _ => .rxU8) r = .next u ∧
          u.rxcrc = crc8 payload ∧ exec .rxValidateCrc u = .next u' ∧ u'.crcOk = true ∧
          u'.rx = rest

/-- R13 and R156 for `rx_u64`: with fewer than eight bytes the operation keeps what it has received
and folded, and then waits: a further step changes nothing. The form of the position is the model's
choice (log 1, 12). -/
def Obligations.RxU64KeepsWhatItReceivedAndWaits : Prop :=
  ∀ (s : State) (bs : List Byte), s.rx = bs → bs.length < 8 →
    ∃ t, exec .rxU64 s = .next t ∧
      t = { s with
        rx := []
        rxcrc := crcFold s.rxcrc bs
        log := s.log ++ receiveActions bs
        pos := .op (.rxInt .ret (8 - bs.length) bs) s.pos } ∧
      t.waiting

/-- R22, R21: a receive operation neither reads nor writes `TXCRC`, a transmit operation neither
reads nor writes `RXCRC`, in every state, waiting or not. That no access to memory reaches an
accumulator is the spec's own decision D27 (log 22). -/
def Obligations.AccumulatorsAreIndependent : Prop :=
  ∀ (s : State) (v : Byte) (addr : Addr) (len : BitVec 32),
    (∀ i ∈ [Instr.rxStart, .rxU8, .rxU16, .rxU32, .rxU64, .rxData addr len, .rxIgnoreData len,
        .rxValidateCrc],
      ∃ t, exec i s = .next t ∧ exec i { s with txcrc := v } = .next { t with txcrc := v }) ∧
    (∀ (b : BitVec 8) (h : BitVec 16) (w : BitVec 32) (d : BitVec 64),
      ∀ i ∈ [Instr.txStart, .txU8 b, .txU16 h, .txU32 w, .txU64 d, .txData addr len, .txCrc],
      ∃ t, exec i s = .next t ∧ exec i { s with rxcrc := v } = .next { t with rxcrc := v })

/-! ## Responses (30_encoding.md R85, 60_exceptions.md R230) -/

/-- R85, formats SV, SB, SAL, SAR: the command code is the echo of `CMD`, the fields follow, then
the checksum of all of them; the block is back at the top of the loop, which is the model's reading
of a response driven on its own (log 28). The byte order is the spec's own decision D1 (log 18),
that the checksum covers the code D5 (log 25), that the accumulators keep their value past a
checksum byte D16 (log 20). -/
def Obligations.IntegerResponsesHaveTheirFormats : Prop :=
  ∀ s : State,
    (s.accepts 5 → exec .rspVersion s =
      .next (s.answer (leBytes 2 s.cmd ++ leBytes 2 s.params.protocolVersion))) ∧
    (s.accepts 11 → exec .rspBase s =
      .next (s.answer (leBytes 2 s.cmd ++ leBytes 8 s.params.guardAddress))) ∧
    (s.accepts 15 → exec .rspWrote s = .next (s.answer (echoHeader s.cmd s.addr s.len))) ∧
    (s.accepts 19 → exec .rspResult s =
      .next (s.answer (leBytes 2 s.cmd ++ leBytes 8 s.addr ++ leBytes 8 s.result)))

/-- R85, format SALD, with R53: the header, then each byte of memory read and sent, then the
checksum of all of them; then the top of the loop (log 28). The order of reading and sending is D22
(log 33); what a read answers is the platform's: free where nothing has been stored (log 6) and at a
device's address (log 32), and counting the reads answered is the model's (log 32). The byte order
is the spec's own decision D1 (log 18), that the checksum covers the code D5 (log 25), that the
accumulators keep their value past a checksum byte D16 (log 20). Single byte accesses in ascending
order are D14 (log 33); addresses advance modulo 2^64 by D13 (log 26); that CNT counts to the length
is D17 (log 30). -/
def Obligations.DataResponseCarriesMemory : Prop :=
  ∀ s : State,
    let data := s.bytesAt s.addr s.len.toNat
    let payload := echoHeader s.cmd s.addr s.len ++ data
    s.accepts (15 + s.len.toNat) → s.readable s.addr s.len.toNat →
    exec .rspData s = .next { s with
      txcrc := crc8 payload
      phase := .awaitCommand
      pos := .done
      cnt := s.len
      reads := s.reads + s.len.toNat
      txRoom := s.roomAfter (15 + s.len.toNat)
      log := s.log ++ sendActions (echoHeader s.cmd s.addr s.len) ++
        readAndSendActions s.addr data ++ sendActions [crc8 payload] }

/-- R188, the responding part, format S0: the command code and its checksum, then the flush, then
the hard reset, after which the block takes no further step in this power cycle. That the response
row includes the flush and the reset is the model's reading (log 23). The byte order is the spec's
own decision D1 (log 18), that the checksum covers the code D5 (log 25), that the accumulators keep
their value past a checksum byte D16 (log 20). -/
def Obligations.ResettingResponseFlushesAndResets : Prop :=
  ∀ s : State, s.accepts 3 → s.flushReady = true →
    exec .rspResetting s = .next { s with
      txcrc := crc8 (leBytes 2 s.cmd)
      phase := .responding
      pos := .resetting
      txRoom := s.roomAfter 3
      log := s.log ++ sendActions (withCrc (leBytes 2 s.cmd)) ++ [.txFlush, .hardReset] }

/-- R230: the three Error frames are constant byte strings; `TXCRC` and `STATE` are written and the
frame is over. The byte order is the spec's own decision D1 (log 18), that the checksum covers the
code D5 (log 25), that the accumulators keep their value past a checksum byte D16 (log 20). -/
def Obligations.ErrorFramesAreConstant : Prop :=
  ∀ s : State, s.accepts 5 →
    exec .errorInvalidCrc s = .next { s with
      txcrc := 0x61
      phase := .awaitCommand
      pos := .done
      txRoom := s.roomAfter 5
      log := s.log ++ sendActions [0x06, 0x00, 0x01, 0x00, 0x61] } ∧
    exec .errorInvalidCommand s = .next { s with
      txcrc := 0x5E
      phase := .awaitCommand
      pos := .done
      txRoom := s.roomAfter 5
      log := s.log ++ sendActions [0x06, 0x00, 0x02, 0x00, 0x5E] } ∧
    exec .errorInvalidArgument s = .next { s with
      txcrc := 0x4B
      phase := .awaitCommand
      pos := .done
      txRoom := s.roomAfter 5
      log := s.log ++ sendActions [0x06, 0x00, 0x03, 0x00, 0x4B] }

/-! ## Requests (42_commands.md) -/

/-- R183: the version under a right checksum, Invalid-CRC under a wrong one. The byte order is the
spec's own decision D1 (log 18), that the checksum covers the code D5 (log 25), that the
accumulators keep their value past a checksum byte D16 (log 20). -/
def Obligations.GetVersionFollowsItsRule : Prop :=
  ∀ (s : State) (crc : Byte), s.accepts 5 →
    let code := s.params.cmdGetVersion
    let req := leBytes 2 code
    let t := { s.received code req (receiveActions (req ++ [crc])) with
      crcOk := decide (crc = crc8 req) }
    exec (.getVersion crc) s = .next
      (if crc = crc8 req then t.answer (leBytes 2 code ++ leBytes 2 s.params.protocolVersion)
       else t.answerError .invalidCrc)

/-- R184: the guard address under a right checksum, Invalid-CRC under a wrong one. The byte order is
the spec's own decision D1 (log 18), that the checksum covers the code D5 (log 25), that the
accumulators keep their value past a checksum byte D16 (log 20). -/
def Obligations.GetBaseFollowsItsRule : Prop :=
  ∀ (s : State) (crc : Byte),
    let req := leBytes 2 cmdGetBaseAddress
    let t := { s.received cmdGetBaseAddress req (receiveActions (req ++ [crc])) with
      crcOk := decide (crc = crc8 req) }
    (crc = crc8 req → s.accepts 11 →
      exec (.getBase crc) s =
        .next (t.answer (leBytes 2 cmdGetBaseAddress ++ leBytes 8 s.params.guardAddress))) ∧
    (crc ≠ crc8 req → s.accepts 5 →
      exec (.getBase crc) s = .next (t.answerError .invalidCrc))

/-- R185: no policy check. Under a right checksum the header is sent, then each of the `LEN` bytes
is read and sent; under a wrong one Invalid-CRC is sent and no memory is read. Reading after
validation is D10 (log 17), each byte immediately before it is sent D22 (log 33), the byte order D1
(log 18); what a read answers is the platform's: free where nothing has been stored (log 6) and at a
device's address (log 32), and counting the reads answered is the model's (log 32). That the
checksum covers the code is D5 (log 25), that the accumulators keep their value past a checksum byte
D16 (log 20). Single byte accesses in ascending order are D14 (log 33); addresses advance modulo
2^64 by D13 (log 26); that CNT counts to the length is D17 (log 30). -/
def Obligations.ReadFollowsItsRule : Prop :=
  ∀ (s : State) (addr : Addr) (len : BitVec 32) (crc : Byte),
    let code := s.params.cmdRead
    let req := echoHeader code addr len
    let data := s.bytesAt addr len.toNat
    let t := { s.received code req (receiveActions (req ++ [crc])) with
      addr := addr
      len := len
      crcOk := decide (crc = crc8 req) }
    (crc = crc8 req → s.accepts (15 + len.toNat) → s.readable addr len.toNat →
      exec (.read addr len crc) s = .next { t with
        txcrc := crc8 (req ++ data)
        phase := .awaitCommand
        pos := .done
        cnt := len
        reads := s.reads + len.toNat
        txRoom := s.roomAfter (15 + len.toNat)
        log := t.log ++ sendActions req ++ readAndSendActions addr data ++
          sendActions [crc8 (req ++ data)] }) ∧
    (crc ≠ crc8 req → s.accepts 5 →
      exec (.read addr len crc) s = .next (t.answerError .invalidCrc))

/-- R186: with the policy passed the data is stored as it arrives, whatever the checksum, and the
checksum decides between the success response and Invalid-CRC; with the policy failed the data is
drained, the checksum byte consumed and its comparison not used (or left in the stream where
`POLICY_FAIL_CRC` is skip), no memory is accessed, and Invalid-Argument is sent. That the data is
stored as it arrives and kept under a wrong checksum is the spec's own decision D9 (log 16), the
policy comparison D12 (log 26), the checksum byte of a rejected request D7 (log 14), the byte order
D1 (log 18). That the checksum covers the code is D5 (log 25), that the accumulators keep their
value past a checksum byte D16 (log 20). Single byte accesses in ascending order are D14 (log 33);
addresses advance modulo 2^64 by D13 (log 26); that CNT counts to the length is D17 (log 30). -/
def Obligations.WriteFollowsItsRule : Prop :=
  ∀ (s : State) (addr : Addr) (len : BitVec 32) (data : List Byte) (crc : Byte),
    data.length = len.toNat →
    let code := s.params.cmdWrite
    let header := echoHeader code addr len
    let req := header ++ data
    (s.params.guardAddress ≤ addr → s.writable addr len.toNat →
      let t := { s.received code req (receiveActions header ++ receiveAndStoreActions addr data ++
          [.rxByte crc]) with
        addr := addr
        len := len
        cnt := len
        policyOk := true
        crcOk := decide (crc = crc8 req)
        mem := s.mem.storeBytesAt addr data }
      (crc = crc8 req → s.accepts 15 →
        exec (.write addr len data crc) s = .next (t.answer header)) ∧
      (crc ≠ crc8 req → s.accepts 5 →
        exec (.write addr len data crc) s = .next (t.answerError .invalidCrc))) ∧
    (addr < s.params.guardAddress → s.accepts 5 →
      let t := { s.received code req (receiveActions req) with
        addr := addr
        len := len
        cnt := len
        policyOk := false }
      exec (.write addr len data crc) s = .next
        (match s.params.policyFailCrc with
          | .consumeMasked => ({ t with
              crcOk := decide (crc = crc8 req)
              log := t.log ++ [.rxByte crc] } : State).answerError .invalidArgument
          | .skip => ({ t with rx := crc :: s.rx } : State).answerError .invalidArgument))

/-- R187: with the policy passed and the checksum right, the 72 bytes of the context are read, the
call is made with its nine words, the value it returns is stored in the first argument slot, the
slot is read back, and what is read back is the result; where memory is in its canonical form and
the slot is no device's, that is what was stored. What a read answers is the platform's, free at a
device's address (log 32) and where nothing has been stored (log 6). With a wrong checksum there is
no call; with the policy failed the context is never touched. The rule gives the order of validation
and call, the context's layout and the byte order as the spec's own readings: D10 (log 17), D11 (log
19), D1 (log 18); the policy comparison is D12 (log 26), the checksum byte of a rejected request D7
(log 14), the reading back of the slot D25 (log 33). That the checksum covers the code is D5 (log
25), that the accumulators keep their value past a checksum byte D16 (log 20). Single byte accesses
in ascending order are D14 (log 33); addresses advance modulo 2^64 by D13 (log 26); what the call
returns and stores is free, D26 (log 8); that it sees memory as it stands is D20 (log 22). -/
def Obligations.ExecuteFollowsItsRule : Prop :=
  ∀ (s : State) (addr : Addr) (crc : Byte),
    let code := s.params.cmdExecute
    let req := leBytes 2 code ++ leBytes 8 addr
    (s.params.guardAddress ≤ addr →
      let t := { s.received code req (receiveActions (req ++ [crc])) with
        addr := addr
        policyOk := true
        crcOk := decide (crc = crc8 req) }
      (∀ (o : CallOutcome) (coming : List CallOutcome), crc = crc8 req →
        s.calls = o :: coming → s.readable addr 72 → s.writable (addr + 8) 8 → s.accepts 19 →
        let ctx := s.contextAt addr
        let after := (s.mem.writeAll o.stores).storeBytesAt (addr + 8) (leBytes 8 o.value)
        let back := State.bytesAt { s with mem := after, reads := s.reads + 72 } (addr + 8) 8
        exec (.execute addr crc) s = .next (({ t with
          ctx := ctx
          ret := o.value
          result := leValue 64 back
          calls := coming
          mem := after
          reads := s.reads + 80
          log := t.log ++ readActions addr (s.bytesAt addr 72) ++
            [.execCall (s.wordAt 0 addr) ctx.tail o.value] ++
            writeActions (addr + 8) (leBytes 8 o.value) ++
            readActions (addr + 8) back } : State).answer
              (leBytes 2 code ++ leBytes 8 addr ++ back)) ∧
        (s.mem.wf = true → s.ordinary (addr + 8) 8 → back = leBytes 8 o.value)) ∧
      (crc ≠ crc8 req → s.accepts 5 →
        exec (.execute addr crc) s = .next (t.answerError .invalidCrc))) ∧
    (addr < s.params.guardAddress → s.accepts 5 →
      let t := { s.received code req (receiveActions req) with
        addr := addr
        policyOk := false }
      exec (.execute addr crc) s = .next
        (match s.params.policyFailCrc with
          | .consumeMasked => ({ t with
              crcOk := decide (crc = crc8 req)
              log := t.log ++ [.rxByte crc] } : State).answerError .invalidArgument
          | .skip => ({ t with rx := crc :: s.rx } : State).answerError .invalidArgument))

/-- R188: under a right checksum the response is sent, the transport flushed and the reset invoked,
and no byte after the request is consumed; under a wrong one Invalid-CRC is sent, no reset happens
and the loop goes on. That the reset comes only after validation is the spec's own decision D10 (log
17). The byte order is the spec's own decision D1 (log 18), that the checksum covers the code D5
(log 25), that the accumulators keep their value past a checksum byte D16 (log 20). -/
def Obligations.ResetFollowsItsRule : Prop :=
  ∀ (s : State) (crc : Byte),
    let code := s.params.cmdReset
    let req := leBytes 2 code
    let t := { s.received code req (receiveActions (req ++ [crc])) with
      crcOk := decide (crc = crc8 req) }
    (crc = crc8 req → s.accepts 3 → s.flushReady = true →
      exec (.reset crc) s = .next { t with
        txcrc := crc8 req
        phase := .responding
        pos := .resetting
        txRoom := s.roomAfter 3
        log := t.log ++ sendActions (withCrc req) ++ [.txFlush, .hardReset] }) ∧
    (crc ≠ crc8 req → s.accepts 5 →
      exec (.reset crc) s = .next (t.answerError .invalidCrc))

/-- R189, for each value of `UNKNOWN_CMD_CRC`: one checksum byte consumed and not used, or none
consumed, or its comparison reported. What becomes of the checksum byte and which error wins is the
spec's own decision D8, an argument with three values (log 15). A code that is a command's is not
excluded: such a term runs this case on its bytes, the model's choice (log 31). The byte order is
the spec's own decision D1 (log 18), that the checksum covers the code D5 (log 25), that the
accumulators keep their value past a checksum byte D16 (log 20). -/
def Obligations.UnrecognisedFollowsItsRule : Prop :=
  ∀ (s : State) (code : BitVec 16) (crc : Byte), s.accepts 5 →
    let req := leBytes 2 code
    let t := { s.received code req (receiveActions (req ++ [crc])) with
      crcOk := decide (crc = crc8 req) }
    (s.params.unknownCmdCrc = .consumeMasked →
      exec (.unrecognised code (some crc)) s = .next (t.answerError .invalidCommand)) ∧
    (s.params.unknownCmdCrc = .skip →
      exec (.unrecognised code none) s =
        .next ((s.received code req (receiveActions req)).answerError .invalidCommand)) ∧
    (s.params.unknownCmdCrc = .consumeReported →
      exec (.unrecognised code (some crc)) s = .next
        (if crc = crc8 req then t.answerError .invalidCommand else t.answerError .invalidCrc))

/-! ## What a request may touch -/

/-- R71: below the guard a Write is rejected with Invalid-Argument and memory is unmodified, an
Execute is rejected with Invalid-Argument and no call occurs, and no memory port is used in that
frame, under either value of `POLICY_FAIL_CRC`. The unsigned comparison is the spec's own decision
D12 (log 26); of the bytes of the Error frame the order is D1 (log 18) and the checksum over the
code D5 (log 25). What becomes of the checksum byte is D7, an argument with two values (log 14). -/
def Obligations.BelowTheGuardNothingIsTouched : Prop :=
  ∀ (s : State) (addr : Addr), addr < s.params.guardAddress → s.accepts 5 →
    (∀ (len : BitVec 32) (data : List Byte) (crc : Byte), data.length = len.toNat →
      ∃ t l, exec (.write addr len data crc) s = .next t ∧ t.mem = s.mem ∧ t.log = s.log ++ l ∧
        (∀ p ∈ l, p.touchesMemory = false) ∧
        t.transmitted = s.transmitted ++ [0x06, 0x00, 0x03, 0x00, 0x4B]) ∧
    (∀ crc : Byte,
      ∃ t l, exec (.execute addr crc) s = .next t ∧ t.mem = s.mem ∧ t.log = s.log ++ l ∧
        (∀ p ∈ l, p.touchesMemory = false) ∧
        t.transmitted = s.transmitted ++ [0x06, 0x00, 0x03, 0x00, 0x4B])

/-- R51, its last clause: GetVersion, GetBaseAddress, Reset, an unrecognised code and every Error
response use no memory port and change no memory, whatever the ports answer. An unrecognised term is
any code with any checksum byte, which is the model's choice (log 31). -/
def Obligations.OtherFramesUseNoMemoryPort : Prop :=
  ∀ (s : State) (crc : Byte) (code : BitVec 16) (c : Option Byte),
    ∀ i ∈ [Instr.getVersion crc, .getBase crc, .reset crc, .unrecognised code c, .errorInvalidCrc,
      .errorInvalidCommand, .errorInvalidArgument],
    ∃ t l, exec i s = .next t ∧ t.mem = s.mem ∧ t.log = s.log ++ l ∧
      ∀ p ∈ l, p.touchesMemory = false

/-- R70: at or above the guard, a Write followed by a Read of the same range returns the bytes just
written, on a platform that completes the accesses. The rule's premise, that a read answers what the
latest write stored, is the hypothesis that no address of the range is a device's (the form of it is
the model's, log 32); that the data is stored as it arrives is D9 (log 16). The byte order is the
spec's own decision D1 (log 18), that the checksum covers the code D5 (log 25). The range may run
past 2^64 - 1: addresses advance modulo 2^64 by D13 (log 26). -/
def Obligations.ReadReturnsWhatWriteStored : Prop :=
  ∀ (s : State) (addr : Addr) (len : BitVec 32) (data : List Byte),
    s.mem.wf = true → data.length = len.toNat → s.params.guardAddress ≤ addr →
    s.writable addr len.toNat → s.readable addr len.toNat → s.ordinary addr len.toNat →
    s.accepts (30 + len.toNat) →
    ∃ t u, exec (.write addr len data (crc8 (echoHeader s.params.cmdWrite addr len ++ data))) s =
        .next t ∧
      exec (.read addr len (crc8 (echoHeader s.params.cmdRead addr len))) t = .next u ∧
      u.transmitted = s.transmitted ++ withCrc (echoHeader s.params.cmdWrite addr len) ++
        withCrc (echoHeader s.params.cmdRead addr len ++ data)

/-- R150, R54, R187, what is stored and that nothing else is: after `rx_data`, and after a Write
whose policy passes, whatever its checksum, byte `k` of the data is at `addr + k` modulo 2^64; after
an Execute that calls, the returned value is in the first argument slot; every other address holds
what it held, but for those the called code has stored to. Storing as the data arrives is D9 (log
16), the call after validation D10 (log 17), the slot's place D11 (log 19); what memory holds is
said of memory, not of what a device answers (log 32), and where nothing has been stored it is free
(log 6). The byte order is the spec's own decision D1 (log 18). Addresses advance modulo 2^64 by D13
(log 26); what the call returns and stores is free, D26 (log 8); that the checksum covers the code
is D5 (log 25). -/
def Obligations.StoresReachOnlyTheirAddresses : Prop :=
  ∀ (s : State) (addr : Addr), s.mem.wf = true →
    (∀ (len : BitVec 32) (data rest : List Byte), data.length = len.toNat → s.rx = data ++ rest →
      s.writable addr len.toNat →
      ∃ t, exec (.rxData addr len) s = .next t ∧
        (∀ k < len.toNat, t.memByte (addr + BitVec.ofNat 64 k) = data.getD k 0) ∧
        ∀ x : Addr, (∀ k < len.toNat, x ≠ addr + BitVec.ofNat 64 k) →
          t.memByte x = s.memByte x) ∧
    (∀ (len : BitVec 32) (data : List Byte) (crc : Byte), data.length = len.toNat →
      s.params.guardAddress ≤ addr → s.writable addr len.toNat → s.accepts 15 →
      ∃ t, exec (.write addr len data crc) s = .next t ∧
        (∀ k < len.toNat, t.memByte (addr + BitVec.ofNat 64 k) = data.getD k 0) ∧
        ∀ x : Addr, (∀ k < len.toNat, x ≠ addr + BitVec.ofNat 64 k) →
          t.memByte x = s.memByte x) ∧
    (∀ (o : CallOutcome) (coming : List CallOutcome), s.params.guardAddress ≤ addr →
      s.calls = o :: coming → s.readable addr 72 → s.writable (addr + 8) 8 → s.accepts 19 →
      ∃ t, exec (.execute addr (crc8 (leBytes 2 s.params.cmdExecute ++ leBytes 8 addr))) s = .next t ∧
        (∀ k < 8, t.memByte (addr + 8 + BitVec.ofNat 64 k) = (leBytes 8 o.value).getD k 0) ∧
        ∀ x : Addr, (∀ k < 8, x ≠ addr + 8 + BitVec.ofNat 64 k) → (∀ e ∈ o.stores, x ≠ e.1) →
          t.memByte x = s.memByte x)

/-- R54, its order: when all the data of a Write has arrived and its checksum byte has not, the
bytes are in memory already (D9, log 16), and the block waits (in the model's form of waiting, log
1; what one step is, log 2). The byte order is the spec's own decision D1 (log 18). Addresses
advance modulo 2^64 by D13 (log 26). -/
def Obligations.WriteStoresBeforeTheChecksumArrives : Prop :=
  ∀ (s : State) (addr : Addr) (len : BitVec 32) (data : List Byte),
    s.params.wf = true → s.pos = .done → data.length = len.toNat →
    s.params.guardAddress ≤ addr → s.writable addr len.toNat →
    s.rx = echoHeader s.params.cmdWrite addr len ++ data →
    ∃ t, step s = .next t ∧ t.mem = s.mem.storeBytesAt addr data ∧ t.rx = [] ∧
      t.phase = .validatingCrc ∧ t.transmitted = s.transmitted ∧ t.waiting

/-- R276, R187: while the call has not returned no response is sent and the block makes no further
step (the model's form of waiting and of the call's outcomes, log 1, 8). The byte order is the
spec's own decision D1 (log 18), that the checksum covers the code D5 (log 25), the call after
validation D10 (log 17). The context's 72 bytes are the layout of D11 (log 19); addresses advance
modulo 2^64 by D13 (log 26). That memory is unchanged meanwhile is the model's choice (log 35): R59
lets the called code write during the call. -/
def Obligations.ExecuteWaitsWhileTheCallHasNotReturned : Prop :=
  ∀ (s : State) (addr : Addr), s.params.guardAddress ≤ addr → s.calls = [] → s.readable addr 72 →
    ∃ t, exec (.execute addr (crc8 (leBytes 2 s.params.cmdExecute ++ leBytes 8 addr))) s = .next t ∧
      t.transmitted = s.transmitted ∧ t.mem = s.mem ∧ t.phase = .responding ∧ t.waiting

/-- R59, R187: once the call returns, the waiting Execute goes on, exactly as if the outcome had
been there when its frame was served (the model's form of waiting and of outcomes, log 1, 8); on a
platform that completes the accesses, the slot being no device's, the value is stored in the slot
and sent, and the block is back at the top of the loop. The call's place, the layout and the byte
order are the spec's readings (log 17, 19, 18); what a device would answer is free (log 32). That
the checksum covers the code is D5 (log 25). That the call sees memory as it stands is D20 (log 22);
addresses advance modulo 2^64 by D13 (log 26). That the called code's stores are in memory from its
return on, and not before, is the model's choice (log 35). -/
def Obligations.ExecuteGoesOnWhenTheCallReturns : Prop :=
  ∀ (s : State) (addr : Addr) (o : CallOutcome), s.params.guardAddress ≤ addr → s.calls = [] →
    s.readable addr 72 →
    let req := leBytes 2 s.params.cmdExecute ++ leBytes 8 addr
    ∃ t, exec (.execute addr (crc8 req)) s = .next t ∧ t.waiting ∧
      step (t.callReturns o) = exec (.execute addr (crc8 req)) (s.callReturns o) ∧
      (s.mem.wf = true → s.writable (addr + 8) 8 → s.ordinary (addr + 8) 8 → s.accepts 19 →
        ∃ u, step (t.callReturns o) = .next u ∧
          u.transmitted = s.transmitted ++ withCrc (req ++ leBytes 8 o.value) ∧
          u.mem = (s.mem.writeAll o.stores).storeBytesAt (addr + 8) (leBytes 8 o.value) ∧
          u.calls = [] ∧ u.pos = .done ∧ u.phase = .awaitCommand)

/-- R61: a Read whose `k`-th byte the platform never completes sends the header and the bytes before
it, no value for it, and is stuck there (the model's form of being stuck, log 1, 24; the order D22,
log 33; what a read answers is the platform's (log 6, 32)). The byte order is the spec's own
decision D1 (log 18), that the checksum covers the code D5 (log 25). Reading after validation is D10
(log 17); addresses advance modulo 2^64 by D13 (log 26). -/
def Obligations.ReadIsStuckAtAnAddressThatNeverAnswers : Prop :=
  ∀ (s : State) (addr : Addr) (len : BitVec 32) (k : Nat), k < len.toNat →
    s.accepts (15 + len.toNat) → s.readable addr k →
    inRanges s.noRead (addr + BitVec.ofNat 64 k) = true →
    ∃ t, exec (.read addr len (crc8 (echoHeader s.params.cmdRead addr len))) s = .next t ∧
      t.transmitted = s.transmitted ++ echoHeader s.params.cmdRead addr len ++ s.bytesAt addr k ∧
      t.phase = .responding ∧ t.waiting

/-- R61 at a `MemWrite`, R54: a Write whose `k`-th data byte the platform never completes the store
of has stored the bytes before it, has received that byte and none after it, answers nothing, and is
stuck there (the model's form of being stuck, log 1, 24), whatever its checksum byte. Storing as the
data arrives is D9 (log 16). The byte order is the spec's own decision D1 (log 18). Single byte
accesses in ascending order are D14 (log 33); addresses advance modulo 2^64 by D13 (log 26). That
the byte whose store never completes stays as it was is the model's choice (log 36). -/
def Obligations.WriteIsStuckAtAnAddressThatNeverAnswers : Prop :=
  ∀ (s : State) (addr : Addr) (len : BitVec 32) (data : List Byte) (crc : Byte) (k : Nat),
    data.length = len.toNat → k < len.toNat → s.params.guardAddress ≤ addr →
    s.writable addr k → inRanges s.noWrite (addr + BitVec.ofNat 64 k) = true →
    ∃ t, exec (.write addr len data crc) s = .next t ∧
      t.mem = s.mem.storeBytesAt addr (data.take k) ∧
      t.rx = data.drop (k + 1) ++ crc :: s.rx ∧
      t.transmitted = s.transmitted ∧ t.phase = .decodingFields ∧ t.waiting

/-- R61 in Execute, R187: where byte `k` of the context is never answered the bytes before it have
been read and no call is made; where the store of byte `k` of the result is never completed the call
has returned and the bytes before it are stored. Either way nothing is answered and the block is
stuck there (log 1, 24; what a read answers is the platform's (log 6, 32)). The slot's bytes are
among the context's, so its reading back cannot be stuck where the context's was not. The byte order
is the spec's own decision D1 (log 18), that the checksum covers the code D5 (log 25), the call
after validation D10 (log 17). The context's 72 bytes and the slot's place are the layout of D11
(log 19); reading and storing them byte by byte in ascending order is D14 (log 33); addresses
advance modulo 2^64 by D13 (log 26); what the call returns and stores is free, D26 (log 8). That the
byte whose store never completes stays as it was is the model's choice (log 36). -/
def Obligations.ExecuteIsStuckAtAnAddressThatNeverAnswers : Prop :=
  ∀ (s : State) (addr : Addr) (k : Nat), s.params.guardAddress ≤ addr →
    let req := leBytes 2 s.params.cmdExecute ++ leBytes 8 addr
    (k < 72 → s.readable addr k → inRanges s.noRead (addr + BitVec.ofNat 64 k) = true →
      ∃ t, exec (.execute addr (crc8 req)) s = .next t ∧
        t.log = s.log ++ receiveActions (withCrc req) ++ readActions addr (s.bytesAt addr k) ∧
        t.calls = s.calls ∧ t.mem = s.mem ∧
        t.transmitted = s.transmitted ∧ t.phase = .responding ∧ t.waiting) ∧
    (∀ (o : CallOutcome) (coming : List CallOutcome), k < 8 → s.calls = o :: coming →
      s.readable addr 72 → s.writable (addr + 8) k →
      inRanges s.noWrite (addr + 8 + BitVec.ofNat 64 k) = true →
      ∃ t, exec (.execute addr (crc8 req)) s = .next t ∧
        t.calls = coming ∧
        t.mem = (s.mem.writeAll o.stores).storeBytesAt (addr + 8) ((leBytes 8 o.value).take k) ∧
        t.transmitted = s.transmitted ∧ t.phase = .responding ∧ t.waiting)

/-! ## The frame loop -/

/-- At the top of the loop a step takes the decoded frame from the receive stream and executes it:
the model's choice of what one step is (log 2, 10). -/
def Obligations.StepRunsTheDecodedFrame : Prop :=
  ∀ (s : State) (i : Instr) (rest : List Byte), s.pos = .done →
    decode s.params s.rx = .ok (i, rest) → step s = exec i { s with rx := rest }

/-- R180, R181: receiving a complete frame byte by byte, dispatching on the received code and
performing the case is the same as executing the frame the decoder reads: the two ways in which the
model says what a request does (log 10) agree. -/
def Obligations.SerialReceptionRunsTheDecodedFrame : Prop :=
  ∀ (s : State) (i : Instr) (rest : List Byte), decode s.params s.rx = .ok (i, rest) →
    exec i { s with rx := rest } = .next (serveFrame s)

/-- R266, R264: a quiescent block to which the host then sends a complete frame executes it as a
block at the top of the loop does (log 1, 2). `RXCRC` is 0x00, as `rx_start` has left it. What
quiescent means is the spec's own definition D23 (log 34). -/
def Obligations.QuiescentBlockServesTheNextFrame : Prop :=
  ∀ (s : State) (bs : List Byte) (i : Instr) (rest : List Byte), s.quiescent → s.rxcrc = 0x00 →
    decode s.params bs = .ok (i, rest) →
    step (s.hostSends bs) = exec i { s with rx := rest }

/-- R266: with nothing in the stream a step from the top of the loop performs `rx_start` and makes
the block quiescent without using a port, and a quiescent block waits (log 1). What quiescent means
is the spec's own definition D23 (log 34). -/
def Obligations.IdleBlockBecomesQuiescentAndStaysSo : Prop :=
  (∀ s : State, s.pos = .done → s.rx = [] →
    ∃ t, step s = .next t ∧ t.quiescent ∧ t.rxcrc = 0x00 ∧ t.log = s.log ∧ t.mem = s.mem) ∧
  (∀ s : State, s.quiescent → s.waiting)

/-- R65, R13, for a piece of pseudocode: running it on what is there, and running what is left when
more bytes have arrived, is running it on all of them (log 2). A run ends at the dispatch; the same
of a whole frame is `StepGoesOnWhenMoreBytesArrive`. That the bytes sent join the stream's end and
none is lost is the spec's own assumption D24 (log 21). -/
def Obligations.MoreBytesResumeWhereTheBlockStopped : Prop :=
  ∀ (p : Prog) (s : State) (bs : List Byte),
    (p.run s).pos.run ((p.run s).hostSends bs) = p.run (s.hostSends bs)

/-- R65, R13, R274: a frame that arrives in two parts, cut anywhere, is served exactly as if it had
arrived whole: where a step ends in the middle of a frame and the host then sends more, the next
step ends where one step on all the bytes would have ended (log 1, 2). That the bytes sent join the
stream's end and none is lost is the spec's own assumption D24 (log 21). -/
def Obligations.StepGoesOnWhenMoreBytesArrive : Prop :=
  ∀ (s t : State) (bs : List Byte), step s = .next t → t.pos ≠ .done → t.pos ≠ .resetting →
    step (t.hostSends bs) = step (s.hostSends bs)

/-- R280: a complete request frame, every port answering and (for Execute) the call returning: the
step transmits exactly one response frame and is back at `AwaitCommand`; for Reset the response is
the last frame before the hard reset. Stated for `UNKNOWN_CMD_CRC` and `POLICY_FAIL_CRC` at every
value. The byte order is the spec's own decision D1 (log 18), that the checksum covers the code D5
(log 25). One frame a step is the model's choice (log 2), as is the form of the calls to come (log
8); what becomes of the checksum byte of a rejected or unrecognised request is D7 and D8, arguments
at every value (log 14, 15). -/
def Obligations.EveryCompleteFrameIsAnsweredOnce : Prop :=
  ∀ (s : State) (i : Instr) (rest : List Byte), s.params.wf = true → s.mem.wf = true →
    s.pos = .done → decode s.params s.rx = .ok (i, rest) →
    s.txRoom = none → s.flushReady = true → s.noRead = [] → s.noWrite = [] →
    ((∃ addr crc, i = .execute addr crc) → s.calls ≠ []) →
    ∃ t payload r, step s = .next t ∧ t.transmitted = s.transmitted ++ withCrc payload ∧
      decodeResponse s.params (withCrc payload) = some (r, []) ∧
      ((t.pos = .done ∧ t.phase = .awaitCommand) ∨ ((∃ crc, i = .reset crc) ∧ t.pos = .resetting))

/-- R34 (b), R65, R274: in one power cycle a step takes bytes from the receive stream strictly in
order and without loss, and only adds to what has been done on the ports. That the stream is
lossless and in order is the spec's own assumption D24 about the transport (log 21); what one step
is, and the log of port actions, are the model's (log 2, 13). -/
def Obligations.StepConsumesTheStreamInOrder : Prop :=
  ∀ s t : State, step s = .next t → s.pos ≠ .resetting →
    ∃ l, t.log = s.log ++ l ∧ s.rx = receivedBytes l ++ t.rx

/-- R23, R8: no step writes the machine's arguments, a power-on included. That they are fixed for
one power cycle is R8's; that they survive a hard reset is the spec's own choice D18 (R262; log 9);
that State carries them is the model's (log 3). -/
def Obligations.StepNeverWritesTheArguments : Prop :=
  ∀ s t : State, step s = .next t → t.params = s.params

/-- R24, R191: every step, from every state that meets it, keeps the invariant: memory stays in its
canonical form, and the block comes to the top of the loop only in `AwaitCommand`, to the dispatch
only in `DecodingFields` and to the hard reset only in `Responding`. The canonical form and what one
step is are the model's (log 6, 2); STATE and the position inside it are the spec's own rendering
D17 (log 30). -/
def Obligations.EveryStepKeepsTheInvariant : Prop :=
  ∀ s t : State, s.inv → step s = .next t → t.inv

/-- The invariant holds after reset. The canonical form is the model's (log 6); the state after
reset is D18 (log 9). -/
def Obligations.ResetMeetsTheInvariant : Prop := State.reset.inv

/-- R260: the power-on values the spec gives; nothing has been transmitted; the first step performs
`rx_start` and waits for the first byte of a command code (the position is the model's, log 1). The
power-on state is the spec's own decision D18 (log 9). -/
def Obligations.PowerOnIsAsTheRuleSays : Prop :=
  State.reset.rxcrc = 0xFF ∧ State.reset.txcrc = 0xFF ∧ State.reset.phase = .awaitCommand ∧
    State.reset.transmitted = [] ∧
    step State.reset = .next { State.reset with rxcrc := 0x00, pos := awaitCode .dispatch }

/-- R262, D18: after `HardReset` the next power cycle begins in the power-on state with the same
arguments; the receive stream, and every byte of memory, hold the free values of Config for the new
power cycle, which is counted; what is on the ports so far stays (log 6, 9). What follows a hard
reset is the spec's own choice D18 (log 6, 9). -/
def Obligations.HardResetIsFollowedByPowerOn : Prop :=
  ∀ s : State, s.pos = .resetting →
    ∃ t, step s = .next t ∧ t.rxcrc = 0xFF ∧ t.txcrc = 0xFF ∧ t.phase = .awaitCommand ∧
      t.pos = .done ∧ t.params = s.params ∧ t.log = s.log ∧
      t.rx = Config.rxAfterReset s.cycle ∧
      t.mem.wf = true ∧ (∀ a, t.memByte a = Config.powerOnByte t.cycle a) ∧
      t.cycle = s.cycle + 1

/-- R263: a reset from outside, at whatever point of a frame, leads to the state that the step after
`HardReset` leads to (R262); the host is not told, that is, nothing is sent; and nothing of the
block is kept: two states with the same arguments, platform and port log lead to the same state,
whatever their registers, positions, memories and what is left of a frame in the stream. That the
reset is an event between steps is the model's choice (log 27), what it leaves free is log 9. That
it has the effect of R262 is the spec's own decision D18 (log 9). The counts of power cycles and of
reads are the arguments of the free values (log 6, 32). -/
def Obligations.ExternalResetIsThePowerOn : Prop :=
  (∀ s : State, step { s with pos := .resetting } = .next (externalReset s) ∧
    (externalReset s).rxcrc = 0xFF ∧ (externalReset s).txcrc = 0xFF ∧
    (externalReset s).phase = .awaitCommand ∧ (externalReset s).pos = .done ∧
    (externalReset s).params = s.params ∧ (externalReset s).transmitted = s.transmitted) ∧
  (∀ s t : State, s.params = t.params → s.log = t.log → s.noRead = t.noRead →
    s.noWrite = t.noWrite → s.txRoom = t.txRoom → s.flushReady = t.flushReady →
    s.calls = t.calls → s.cycle = t.cycle → s.devices = t.devices → s.reads = t.reads →
    externalReset s = externalReset t)

/-- R191, R38: "Nothing of one iteration is carried into the next": two states with the same
outside, whatever their registers and their pasts, serve a request with the same port actions and
leave the same outside. That the latches are the spec's own rendering is D17, that they keep their
values the model's choice (log 30). The outside includes where the devices are and the counts that
the platform's free answers depend on (log 6, 32). -/
def Obligations.NothingIsCarriedIntoTheNextFrame : Prop :=
  ∀ (s t : State) (i : Instr), i.isRequest = true → s.sameOutside t →
    ∃ s' t' l, exec i s = .next s' ∧ exec i t = .next t' ∧ s'.log = s.log ++ l ∧
      t'.log = t.log ++ l ∧ s'.sameOutside t' ∧ s'.phase = t'.phase ∧ s'.pos = t'.pos

/-! ## Encoding (30_encoding.md) -/

/-- R84, R86: every well-formed request, every operand at every value, is read back from its bytes,
whatever follows it, for every admissible choice of the arguments. The byte order is the spec's own
decision D1 (log 18). Whether an unrecognised request has a checksum byte is D8, an argument at
every value (log 15). Five of the six codes are arguments at every value, their defaults D2 (log 4).
-/
def Obligations.DecodeReadsBackEveryRequest : Prop :=
  ∀ (p : Params) (i : Instr) (bs rest : List Byte), p.wf = true → i.wf p = true →
    encode p i = some bs → decode p (bs ++ rest) = .ok (i, rest)

/-- R84, R88: what the decoder reads is a well-formed request, and the bytes it takes are exactly
its encoding: no bit of a frame is dropped. The byte order is the spec's own decision D1 (log 18).
Whether an unrecognised request has a checksum byte is D8, an argument at every value (log 15). -/
def Obligations.DecodedBytesAreTheEncoding : Prop :=
  ∀ (p : Params) (i : Instr) (bs rest : List Byte), decode p bs = .ok (i, rest) →
    i.isRequest = true ∧ i.wf p = true ∧ ∃ enc, encode p i = some enc ∧ bs = enc ++ rest

/-- R88, R90: there is no illegal request: the decoder rejects bytes only because the frame is not
yet complete, and 2^32 + 14 bytes always hold one. Whether an unrecognised request has a checksum
byte is D8, an argument at every value (log 15). -/
def Obligations.EnoughBytesAlwaysDecode : Prop :=
  ∀ (p : Params) (bs : List Byte), 2 ^ 32 + 14 ≤ bs.length →
    ∃ i rest, decode p bs = .ok (i, rest)

/-- R87: a code is unrecognised exactly when it is not the code of one of the six commands, and the
Error sentinel 0x0006 is unrecognised as a request. Five of the six codes are arguments at every
value, their defaults D2 (log 4). -/
def Obligations.EveryOtherCodeIsUnrecognised : Prop :=
  ∀ p : Params, (∀ code, p.commandOf code = .unrecognised ↔ code ∉ p.commandCodes) ∧
    (p.wf = true → p.commandOf 0x0006 = .unrecognised)

/-- R92, R85: the host reads every response frame back from its bytes, whatever follows it, telling
success from Error by the first 16 bits. The byte order is the spec's own decision D1 (log 18). Five
of the six codes are arguments at every value, their defaults D2 (log 4). -/
def Obligations.HostReadsBackEveryResponse : Prop :=
  ∀ (p : Params) (r : Response) (rest : List Byte), p.wf = true → r.wf = true →
    decodeResponse p (encodeResponse p r ++ rest) = some (r, rest)

/-- Some request frames written out from R84 and R86 under the default codes decode to what they
stand for (95_test_vectors.md V36, V37, V39, V73, V43, V75, V50). Five of the default codes are the
spec's inference D2 (log 4), the byte order is its decision D1 (log 18), and that the unrecognised
frame takes its checksum byte is the default consume_masked of UNKNOWN_CMD_CRC, D8 (log 15). -/
def Obligations.WrittenOutFramesDecode : Prop :=
  decode Params.initial [0x00, 0x00, 0x00] = .ok (.getVersion 0x00, []) ∧
  decode Params.initial [0x01, 0x00, 0x15] = .ok (.getBase 0x15, []) ∧
  decode Params.initial [0x02, 0x00, 0x00, 0x00, 0x10, 0x00, 0x00, 0x00, 0x00, 0x00, 0x04, 0x00,
    0x00, 0x00, 0x07] = .ok (.read 0x100000 4 0x07, []) ∧
  decode Params.initial [0x03, 0x00, 0x00, 0x00, 0x10, 0x00, 0x00, 0x00, 0x00, 0x00, 0x03, 0x00,
    0x00, 0x00, 0x01, 0x02, 0x03, 0x43] = .ok (.write 0x100000 3 [0x01, 0x02, 0x03] 0x43, []) ∧
  decode Params.initial [0x04, 0x00, 0x00, 0x10, 0x00, 0x00, 0x00, 0x00, 0x00, 0x00, 0x74] =
    .ok (.execute 0x1000 0x74, []) ∧
  decode Params.initial [0x05, 0x00, 0x41] = .ok (.reset 0x41, []) ∧
  decode Params.initial [0xEF, 0xBE, 0xB3] = .ok (.unrecognised 0xBEEF (some 0xB3), [])
end

