-- ==== Sys2Proof/Laws/Bytes.lean ====
section
/-! SUPPORT. The laws of the byte order (30_encoding.md R81) and of taking bytes from a stream: a
value split into its wire bytes and assembled again is the value, and the converse. -/

namespace Sys2Proof

@[simp] theorem leBytes_length (n : Nat) {w : Nat} (v : BitVec w) : (leBytes n v).length = n := by
  simp [leBytes]

theorem leBytes_getElem (n : Nat) {w : Nat} (v : BitVec w) (k : Nat) (h : k < (leBytes n v).length) :
    (leBytes n v)[k] = v.extractLsb' (8 * k) 8 := by
  simp [leBytes]

theorem leBytes_two {w : Nat} (v : BitVec w) :
    leBytes 2 v = [v.extractLsb' 0 8, v.extractLsb' 8 8] := rfl

/-- Bit `i` of an assembled value is bit `i % 8` of byte `i / 8`. -/
theorem leValue_getLsbD (w : Nat) (bs : List Byte) (i : Nat) (hi : i < w) :
    (leValue w bs).getLsbD i = (bs.getD (i / 8) 0).getLsbD (i % 8) := by
  induction bs generalizing i with
  | nil => simp [leValue]
  | cons b bs ih =>
    rw [leValue, BitVec.getLsbD_or, BitVec.getLsbD_setWidth, BitVec.getLsbD_shiftLeft]
    rcases Nat.lt_or_ge i 8 with h | h
    · simp [h, hi, Nat.div_eq_of_lt h, Nat.mod_eq_of_lt h]
    · have h1 : i / 8 = (i - 8) / 8 + 1 := by omega
      have h2 : i % 8 = (i - 8) % 8 := by omega
      have h3 : b.getLsbD i = false := BitVec.getLsbD_of_ge _ _ h
      rw [ih (i - 8) (by omega), h1, h2, h3]
      simp [hi, Nat.not_lt.mpr h]

theorem leValue_leBytes (n w : Nat) (v : BitVec w) (h : w = 8 * n) : leValue w (leBytes n v) = v := by
  apply BitVec.eq_of_getLsbD_eq
  intro i hi
  have hn : i / 8 < n := by omega
  rw [leValue_getLsbD w _ i hi, List.getD_eq_getElem _ _ (by simpa using hn), leBytes_getElem,
    BitVec.getLsbD_extractLsb']
  have : i % 8 < 8 := by omega
  simp only [this, decide_true, Bool.true_and]
  congr 1; omega

/-- The same where the value is first widened to 64 bits, as the receive operations do. -/
theorem leValue_leBytes_setWidth (n w : Nat) (v : BitVec w) (h : w = 8 * n) (hw : w ≤ 64) :
    (leValue 64 (leBytes n v)).setWidth w = v := by
  apply BitVec.eq_of_getLsbD_eq
  intro i hi
  have hn : i / 8 < n := by omega
  rw [BitVec.getLsbD_setWidth, leValue_getLsbD 64 _ i (by omega),
    List.getD_eq_getElem _ _ (by simpa using hn), leBytes_getElem, BitVec.getLsbD_extractLsb']
  have : i % 8 < 8 := by omega
  simp only [this, hi, decide_true, Bool.true_and]
  congr 1; omega

/-- Widening before splitting changes no byte. -/
theorem leBytes_setWidth (n w : Nat) (v : BitVec w) (h : 8 * n ≤ w) (hw : w ≤ 64) :
    leBytes n (v.setWidth 64) = leBytes n v := by
  apply List.ext_getElem (by simp)
  intro k h1 h2
  rw [leBytes_getElem, leBytes_getElem]
  have hk : k < n := by simpa using h1
  apply BitVec.eq_of_getLsbD_eq
  intro i hi
  simp only [BitVec.getLsbD_extractLsb', BitVec.getLsbD_setWidth, hi, decide_true, Bool.true_and]
  have : 8 * k + i < 64 := by omega
  simp [this]

theorem leBytes_leValue (n w : Nat) (bs : List Byte) (hb : bs.length = n) (h : w = 8 * n) :
    leBytes n (leValue w bs) = bs := by
  apply List.ext_getElem (by simp [hb])
  intro k h1 h2
  rw [leBytes_getElem]
  apply BitVec.eq_of_getLsbD_eq
  intro i hi
  have hk : k < n := by simpa using h1
  rw [BitVec.getLsbD_extractLsb', leValue_getLsbD w _ _ (by omega)]
  have e1 : (8 * k + i) / 8 = k := by omega
  have e2 : (8 * k + i) % 8 = i := by omega
  rw [e1, e2, List.getD_eq_getElem _ _ h2]
  simp [hi]

@[simp] theorem takeBytes_append (xs ys : List Byte) :
    takeBytes xs.length (xs ++ ys) = some (xs, ys) := by
  induction xs with
  | nil => rfl
  | cons x xs ih => simp [takeBytes, ih]

theorem takeBytes_append_of_length {n : Nat} {xs : List Byte} (ys : List Byte) (h : xs.length = n) :
    takeBytes n (xs ++ ys) = some (xs, ys) := by
  subst h; exact takeBytes_append xs ys

/-- What was taken is the first `n` bytes, and the rest is the rest. -/
theorem takeBytes_eq_some {n : Nat} {bs xs rest : List Byte} (h : takeBytes n bs = some (xs, rest)) :
    xs.length = n ∧ bs = xs ++ rest := by
  induction n generalizing bs xs with
  | zero =>
    simp only [takeBytes, Option.some.injEq, Prod.mk.injEq] at h
    obtain ⟨rfl, rfl⟩ := h
    simp
  | succ n ih =>
    cases bs with
    | nil => simp [takeBytes] at h
    | cons b bs =>
      simp only [takeBytes] at h
      split at h
      · rename_i ys rest' heq
        simp only [Option.some.injEq, Prod.mk.injEq] at h
        obtain ⟨rfl, rfl⟩ := h
        obtain ⟨h1, h2⟩ := ih heq
        exact ⟨by simp [h1], by simp [h2]⟩
      · cases h

theorem takeBytes_eq_none {n : Nat} {bs : List Byte} : takeBytes n bs = none ↔ bs.length < n := by
  induction n generalizing bs with
  | zero => simp [takeBytes]
  | succ n ih =>
    cases bs with
    | nil => simp [takeBytes]
    | cons b bs =>
      simp only [takeBytes, List.length_cons, Nat.add_lt_add_iff_right]
      rw [← ih]
      split <;> simp_all

end Sys2Proof
end

