-- ==== Sys2Proof/Laws/Memory.lean ====
section
/-! SUPPORT. The laws of the target memory: a read after a write, and every memory operation keeps
the canonical form (20_memory.md R50, R70). -/

namespace Sys2Proof.Machine

/-- Addresses count on modulo 2^64 (R55). -/
theorem addr_add_succ (a : Addr) (k : Nat) :
    a + 1 + BitVec.ofNat 64 k = a + BitVec.ofNat 64 (k + 1) := by
  rw [BitVec.add_assoc]
  congr 1
  apply BitVec.eq_of_toNat_eq
  simp [Nat.add_comm]

@[simp] theorem Memory.read_nil (a : Nat) : Memory.read [] a = none := rfl

/-! ## A read after a write -/

/-- Below its first address a canonical memory has nothing. -/
theorem Memory.read_below {lo : Nat} {m : Memory} (h : Memory.wfFrom lo m = true) {a : Nat}
    (ha : a < lo) : m.read a = none := by
  induction m generalizing lo with
  | nil => rfl
  | cons e m ih =>
    obtain ⟨k, b⟩ := e
    simp only [Memory.wfFrom, Bool.and_eq_true, decide_eq_true_eq] at h
    obtain ⟨⟨h1, _⟩, h3⟩ := h
    rw [Memory.read, if_neg (by omega)]
    exact ih h3 (by omega)

theorem Memory.read_cons (a : Nat) (v : Byte) (m : Memory) (x : Nat) :
    Memory.read ((a, v) :: m) x = if x = a then some v else m.read x := by
  rw [Memory.read]; by_cases h : a = x
  · rw [if_pos h, if_pos h.symm]
  · rw [if_neg h, if_neg (Ne.symm h)]

theorem Memory.read_writeFrom {lo : Nat} {m : Memory} (h : Memory.wfFrom lo m = true) (a : Nat)
    (v : Byte) (x : Nat) : (m.write a v).read x = if x = a then some v else m.read x := by
  induction m generalizing lo with
  | nil => exact Memory.read_cons a v [] x
  | cons e m ih =>
    obtain ⟨k, b⟩ := e
    have h' := h
    simp only [Memory.wfFrom, Bool.and_eq_true, decide_eq_true_eq] at h'
    simp only [Memory.write]
    split
    · exact Memory.read_cons a v _ x
    · split
      · next hk =>
        rw [Memory.read_cons, Memory.read_cons]
        by_cases hx : x = a
        · simp [hx]
        · rw [if_neg hx, if_neg hx, if_neg (by omega)]
      · next hk1 hk2 =>
        rw [Memory.read_cons, Memory.read_cons, ih h'.2]
        by_cases hx : x = k
        · rw [if_pos hx, if_neg (by omega), if_pos hx]
        · rw [if_neg hx, if_neg hx]

/-- A byte read after a store: the stored byte at its address, every other byte as before. -/
theorem Memory.read_write {m : Memory} (h : m.wf = true) (a : Nat) (v : Byte) (x : Nat) :
    (m.write a v).read x = if x = a then some v else m.read x :=
  Memory.read_writeFrom h a v x

/-! ## The canonical form -/

theorem Memory.wfFrom_mono {lo lo' : Nat} {m : Memory} (h : Memory.wfFrom lo m = true)
    (hl : lo' ≤ lo) : Memory.wfFrom lo' m = true := by
  cases m with
  | nil => rfl
  | cons e m =>
    simp only [Memory.wfFrom, Bool.and_eq_true, decide_eq_true_eq] at h ⊢
    exact ⟨⟨by omega, h.1.2⟩, h.2⟩

theorem Memory.wfFrom_cons {lo a : Nat} {m : Memory} (v : Byte) (ha : lo ≤ a) (hb : a < 2 ^ 64)
    (h : Memory.wfFrom (a + 1) m = true) : Memory.wfFrom lo ((a, v) :: m) = true := by
  simp only [Memory.wfFrom, ha, hb, h, decide_true, Bool.and_self]

theorem Memory.wfFrom_write {lo a : Nat} {m : Memory} (v : Byte) (ha : lo ≤ a) (hb : a < 2 ^ 64)
    (h : Memory.wfFrom lo m = true) : Memory.wfFrom lo (m.write a v) = true := by
  induction m generalizing lo with
  | nil => exact Memory.wfFrom_cons v ha hb rfl
  | cons e m ih =>
    obtain ⟨k, b⟩ := e
    have h' := h
    simp only [Memory.wfFrom, Bool.and_eq_true, decide_eq_true_eq] at h'
    obtain ⟨⟨h1, h2⟩, h3⟩ := h'
    simp only [Memory.write]
    split
    · next hk => exact Memory.wfFrom_cons v ha hb (Memory.wfFrom_cons b hk h2 h3)
    · split
      · next hk => subst hk; exact Memory.wfFrom_cons v h1 h2 h3
      · next hk1 hk2 => exact Memory.wfFrom_cons b h1 h2 (ih (by omega) h3)

theorem Memory.wf_nil : Memory.wf [] = true := rfl

/-- Memory at reset has the canonical form. -/
theorem Memory.wf_reset : State.reset.mem.wf = true := rfl

/-- A store keeps the canonical form. -/
theorem Memory.wf_write {m : Memory} (h : m.wf = true) (a : Addr) (v : Byte) :
    (m.write a.toNat v).wf = true :=
  Memory.wfFrom_write v (Nat.zero_le _) a.isLt h

theorem Memory.wf_writeAll {m : Memory} (h : m.wf = true) (stores : List (Addr × Byte)) :
    (m.writeAll stores).wf = true := by
  induction stores generalizing m with
  | nil => exact h
  | cons x xs ih => exact ih (Memory.wf_write h x.1 x.2)

theorem Memory.wf_storeBytesAt {m : Memory} (h : m.wf = true) (a : Addr) (bs : List Byte) :
    (m.storeBytesAt a bs).wf = true := by
  induction bs generalizing m a with
  | nil => exact h
  | cons b bs ih => exact ih (Memory.wf_write h a b) (a + 1)

/-! ## Blocks of bytes -/

theorem State.bytesAt_length (s : State) (a : Addr) (n : Nat) : (s.bytesAt a n).length = n := by
  simp [State.bytesAt]

theorem State.bytesAt_zero (s : State) (a : Addr) : s.bytesAt a 0 = [] := rfl

/-- The answers depend on the memory, the devices, the reads so far and the power cycle only. -/
theorem State.bytesAt_of_same {s t : State} (h1 : t.mem = s.mem) (h2 : t.devices = s.devices)
    (h3 : t.reads = s.reads) (h4 : t.cycle = s.cycle) (a : Addr) (n : Nat) :
    t.bytesAt a n = s.bytesAt a n := by
  simp only [State.bytesAt, State.memAnswer, State.memByte, h1, h2, h3, h4]

/-- The first answer, then the answers from the next address on. -/
theorem State.bytesAt_succ (s : State) (a : Addr) (n : Nat) :
    s.bytesAt a (n + 1) =
      s.memAnswer 0 a :: State.bytesAt { s with reads := s.reads + 1 } (a + 1) n := by
  unfold State.bytesAt
  rw [List.range_succ_eq_map, List.map_cons, List.map_map]
  refine List.cons_eq_cons.mpr ⟨by simp, List.map_congr_left fun k _ => ?_⟩
  simp only [Function.comp, Nat.succ_eq_add_one, addr_add_succ, State.memAnswer, State.memByte,
    Nat.add_assoc, Nat.add_comm 1 k]

/-- At an address that is no device's a `MemRead` answers the byte memory holds. -/
theorem State.memAnswer_of_ordinary {s : State} {a : Addr} (h : inRanges s.devices a = false)
    (k : Nat) : s.memAnswer k a = s.memByte a := by
  simp [State.memAnswer, h]

/-- Storing a block changes no byte outside its `bs.length` addresses. -/
theorem Memory.read_storeBytesAt_of_outside {m : Memory} (h : m.wf = true) (a : Addr)
    (bs : List Byte) (x : Addr) (hx : ∀ k < bs.length, x ≠ a + BitVec.ofNat 64 k) :
    (m.storeBytesAt a bs).read x.toNat = m.read x.toNat := by
  induction bs generalizing m a with
  | nil => rfl
  | cons b bs ih =>
    rw [Memory.storeBytesAt, ih (Memory.wf_write h a b), Memory.read_write h, if_neg]
    · intro he
      exact hx 0 (by simp) (by simpa using BitVec.eq_of_toNat_eq he)
    · intro k hk he
      exact hx (k + 1) (by simpa using hk) (by rw [he, addr_add_succ])

/-- Byte `k` of a stored block of at most 2^64 bytes is at the `k`-th address. -/
theorem Memory.read_storeBytesAt {m : Memory} (h : m.wf = true) (a : Addr) (bs : List Byte)
    (hl : bs.length ≤ 2 ^ 64) (k : Nat) (hk : k < bs.length) :
    (m.storeBytesAt a bs).read (a + BitVec.ofNat 64 k).toNat = some bs[k] := by
  induction bs generalizing m a k with
  | nil => simp at hk
  | cons b bs ih =>
    simp only [List.length_cons] at hl hk
    rw [Memory.storeBytesAt]
    cases k with
    | zero =>
      have e : a + BitVec.ofNat 64 0 = a := by simp
      rw [e, Memory.read_storeBytesAt_of_outside (Memory.wf_write h a b), Memory.read_write h,
        if_pos rfl]
      · rfl
      intro k hk he
      have h2 : (1 : Addr) + BitVec.ofNat 64 k = 0 := by
        have : a + (1 + BitVec.ofNat 64 k) = a + 0 := by rw [← BitVec.add_assoc, ← he]; simp
        exact (BitVec.add_right_inj a).mp this
      have h3 := congrArg BitVec.toNat h2
      rw [BitVec.toNat_add, BitVec.toNat_ofNat, show BitVec.toNat (1 : Addr) = 1 from rfl,
        show BitVec.toNat (0 : Addr) = 0 from rfl] at h3
      omega
    | succ k =>
      rw [← addr_add_succ]
      exact ih (Memory.wf_write h a b) (a + 1) (by omega) k (by omega)

/-- A block of at most 2^64 bytes of ordinary memory reads back as it was stored (R70). -/
theorem State.bytesAt_of_stored {s : State} {m : Memory} (h : m.wf = true) (a : Addr)
    (bs : List Byte) (hl : bs.length ≤ 2 ^ 64) (hm : s.mem = m.storeBytesAt a bs)
    (ho : s.ordinary a bs.length) : s.bytesAt a bs.length = bs := by
  apply List.ext_getElem (by simp [State.bytesAt])
  intro k h1 h2
  simp only [State.bytesAt, List.getElem_map, List.getElem_range,
    State.memAnswer_of_ordinary (ho k h2), State.memByte, hm,
    Memory.read_storeBytesAt h a bs hl k h2, Option.getD_some]

end Sys2Proof.Machine
end

