-- ==== Sys2Proof/Laws/State.lean ====
section
/-! SUPPORT. One lemma per field per named update of State, each true by computation, so that no
proof unfolds a record update. -/

namespace Sys2Proof.Machine

/-! ## Recording a port action changes the log alone -/

@[simp] theorem State.act_rxcrc (s : State) (p : PortAction) : (s.act p).rxcrc = s.rxcrc := rfl
@[simp] theorem State.act_txcrc (s : State) (p : PortAction) : (s.act p).txcrc = s.txcrc := rfl
@[simp] theorem State.act_phase (s : State) (p : PortAction) : (s.act p).phase = s.phase := rfl
@[simp] theorem State.act_cmd (s : State) (p : PortAction) : (s.act p).cmd = s.cmd := rfl
@[simp] theorem State.act_addr (s : State) (p : PortAction) : (s.act p).addr = s.addr := rfl
@[simp] theorem State.act_len (s : State) (p : PortAction) : (s.act p).len = s.len := rfl
@[simp] theorem State.act_cnt (s : State) (p : PortAction) : (s.act p).cnt = s.cnt := rfl
@[simp] theorem State.act_result (s : State) (p : PortAction) : (s.act p).result = s.result := rfl
@[simp] theorem State.act_crcOk (s : State) (p : PortAction) : (s.act p).crcOk = s.crcOk := rfl
@[simp] theorem State.act_policyOk (s : State) (p : PortAction) : (s.act p).policyOk = s.policyOk := rfl
@[simp] theorem State.act_pos (s : State) (p : PortAction) : (s.act p).pos = s.pos := rfl
@[simp] theorem State.act_ret (s : State) (p : PortAction) : (s.act p).ret = s.ret := rfl
@[simp] theorem State.act_ctx (s : State) (p : PortAction) : (s.act p).ctx = s.ctx := rfl
@[simp] theorem State.act_params (s : State) (p : PortAction) : (s.act p).params = s.params := rfl
@[simp] theorem State.act_rx (s : State) (p : PortAction) : (s.act p).rx = s.rx := rfl
@[simp] theorem State.act_mem (s : State) (p : PortAction) : (s.act p).mem = s.mem := rfl
@[simp] theorem State.act_noRead (s : State) (p : PortAction) : (s.act p).noRead = s.noRead := rfl
@[simp] theorem State.act_devices (s : State) (p : PortAction) : (s.act p).devices = s.devices := rfl
@[simp] theorem State.act_reads (s : State) (p : PortAction) : (s.act p).reads = s.reads := rfl
@[simp] theorem State.act_noWrite (s : State) (p : PortAction) : (s.act p).noWrite = s.noWrite := rfl
@[simp] theorem State.act_txRoom (s : State) (p : PortAction) : (s.act p).txRoom = s.txRoom := rfl
@[simp] theorem State.act_flushReady (s : State) (p : PortAction) : (s.act p).flushReady = s.flushReady := rfl
@[simp] theorem State.act_calls (s : State) (p : PortAction) : (s.act p).calls = s.calls := rfl
@[simp] theorem State.act_cycle (s : State) (p : PortAction) : (s.act p).cycle = s.cycle := rfl
@[simp] theorem State.act_log (s : State) (p : PortAction) : (s.act p).log = s.log ++ [p] := rfl

/-! ## Counting a data byte changes CNT alone -/

@[simp] theorem State.bumpCnt_rxcrc (s : State) : s.bumpCnt.rxcrc = s.rxcrc := rfl
@[simp] theorem State.bumpCnt_txcrc (s : State) : s.bumpCnt.txcrc = s.txcrc := rfl
@[simp] theorem State.bumpCnt_phase (s : State) : s.bumpCnt.phase = s.phase := rfl
@[simp] theorem State.bumpCnt_cmd (s : State) : s.bumpCnt.cmd = s.cmd := rfl
@[simp] theorem State.bumpCnt_addr (s : State) : s.bumpCnt.addr = s.addr := rfl
@[simp] theorem State.bumpCnt_len (s : State) : s.bumpCnt.len = s.len := rfl
@[simp] theorem State.bumpCnt_result (s : State) : s.bumpCnt.result = s.result := rfl
@[simp] theorem State.bumpCnt_crcOk (s : State) : s.bumpCnt.crcOk = s.crcOk := rfl
@[simp] theorem State.bumpCnt_policyOk (s : State) : s.bumpCnt.policyOk = s.policyOk := rfl
@[simp] theorem State.bumpCnt_pos (s : State) : s.bumpCnt.pos = s.pos := rfl
@[simp] theorem State.bumpCnt_ret (s : State) : s.bumpCnt.ret = s.ret := rfl
@[simp] theorem State.bumpCnt_ctx (s : State) : s.bumpCnt.ctx = s.ctx := rfl
@[simp] theorem State.bumpCnt_params (s : State) : s.bumpCnt.params = s.params := rfl
@[simp] theorem State.bumpCnt_rx (s : State) : s.bumpCnt.rx = s.rx := rfl
@[simp] theorem State.bumpCnt_log (s : State) : s.bumpCnt.log = s.log := rfl
@[simp] theorem State.bumpCnt_mem (s : State) : s.bumpCnt.mem = s.mem := rfl
@[simp] theorem State.bumpCnt_noRead (s : State) : s.bumpCnt.noRead = s.noRead := rfl
@[simp] theorem State.bumpCnt_devices (s : State) : s.bumpCnt.devices = s.devices := rfl
@[simp] theorem State.bumpCnt_reads (s : State) : s.bumpCnt.reads = s.reads := rfl
@[simp] theorem State.bumpCnt_noWrite (s : State) : s.bumpCnt.noWrite = s.noWrite := rfl
@[simp] theorem State.bumpCnt_txRoom (s : State) : s.bumpCnt.txRoom = s.txRoom := rfl
@[simp] theorem State.bumpCnt_flushReady (s : State) : s.bumpCnt.flushReady = s.flushReady := rfl
@[simp] theorem State.bumpCnt_calls (s : State) : s.bumpCnt.calls = s.calls := rfl
@[simp] theorem State.bumpCnt_cycle (s : State) : s.bumpCnt.cycle = s.cycle := rfl
@[simp] theorem State.bumpCnt_cnt (s : State) : s.bumpCnt.cnt = s.cnt + 1 := rfl

/-! ## A received integer changes its destination alone -/

@[simp] theorem State.setDest_rxcrc (s : State) (v : BitVec 64) (d : Dest) :
    (s.setDest v d).rxcrc = s.rxcrc := by cases d <;> rfl
@[simp] theorem State.setDest_txcrc (s : State) (v : BitVec 64) (d : Dest) :
    (s.setDest v d).txcrc = s.txcrc := by cases d <;> rfl
@[simp] theorem State.setDest_phase (s : State) (v : BitVec 64) (d : Dest) :
    (s.setDest v d).phase = s.phase := by cases d <;> rfl
@[simp] theorem State.setDest_cnt (s : State) (v : BitVec 64) (d : Dest) :
    (s.setDest v d).cnt = s.cnt := by cases d <;> rfl
@[simp] theorem State.setDest_result (s : State) (v : BitVec 64) (d : Dest) :
    (s.setDest v d).result = s.result := by cases d <;> rfl
@[simp] theorem State.setDest_crcOk (s : State) (v : BitVec 64) (d : Dest) :
    (s.setDest v d).crcOk = s.crcOk := by cases d <;> rfl
@[simp] theorem State.setDest_policyOk (s : State) (v : BitVec 64) (d : Dest) :
    (s.setDest v d).policyOk = s.policyOk := by cases d <;> rfl
@[simp] theorem State.setDest_pos (s : State) (v : BitVec 64) (d : Dest) :
    (s.setDest v d).pos = s.pos := by cases d <;> rfl
@[simp] theorem State.setDest_ctx (s : State) (v : BitVec 64) (d : Dest) :
    (s.setDest v d).ctx = s.ctx := by cases d <;> rfl
@[simp] theorem State.setDest_params (s : State) (v : BitVec 64) (d : Dest) :
    (s.setDest v d).params = s.params := by cases d <;> rfl
@[simp] theorem State.setDest_rx (s : State) (v : BitVec 64) (d : Dest) :
    (s.setDest v d).rx = s.rx := by cases d <;> rfl
@[simp] theorem State.setDest_log (s : State) (v : BitVec 64) (d : Dest) :
    (s.setDest v d).log = s.log := by cases d <;> rfl
@[simp] theorem State.setDest_mem (s : State) (v : BitVec 64) (d : Dest) :
    (s.setDest v d).mem = s.mem := by cases d <;> rfl
@[simp] theorem State.setDest_noRead (s : State) (v : BitVec 64) (d : Dest) :
    (s.setDest v d).noRead = s.noRead := by cases d <;> rfl
@[simp] theorem State.setDest_devices (s : State) (v : BitVec 64) (d : Dest) :
    (s.setDest v d).devices = s.devices := by cases d <;> rfl
@[simp] theorem State.setDest_reads (s : State) (v : BitVec 64) (d : Dest) :
    (s.setDest v d).reads = s.reads := by cases d <;> rfl
@[simp] theorem State.setDest_noWrite (s : State) (v : BitVec 64) (d : Dest) :
    (s.setDest v d).noWrite = s.noWrite := by cases d <;> rfl
@[simp] theorem State.setDest_txRoom (s : State) (v : BitVec 64) (d : Dest) :
    (s.setDest v d).txRoom = s.txRoom := by cases d <;> rfl
@[simp] theorem State.setDest_flushReady (s : State) (v : BitVec 64) (d : Dest) :
    (s.setDest v d).flushReady = s.flushReady := by cases d <;> rfl
@[simp] theorem State.setDest_calls (s : State) (v : BitVec 64) (d : Dest) :
    (s.setDest v d).calls = s.calls := by cases d <;> rfl
@[simp] theorem State.setDest_cycle (s : State) (v : BitVec 64) (d : Dest) :
    (s.setDest v d).cycle = s.cycle := by cases d <;> rfl
@[simp] theorem State.setDest_ret_eq (s : State) (v : BitVec 64) :
    s.setDest v .ret = { s with ret := v } := rfl
@[simp] theorem State.setDest_cmd_eq (s : State) (v : BitVec 64) :
    s.setDest v .cmd = { s with cmd := v.setWidth 16 } := rfl
@[simp] theorem State.setDest_addr_eq (s : State) (v : BitVec 64) :
    s.setDest v .addr = { s with addr := v } := rfl
@[simp] theorem State.setDest_len_eq (s : State) (v : BitVec 64) :
    s.setDest v .len = { s with len := v.setWidth 32 } := rfl

/-! ## The host's and the platform's events change one field -/

@[simp] theorem State.hostSends_rxcrc (s : State) (bs : List Byte) : (s.hostSends bs).rxcrc = s.rxcrc := rfl
@[simp] theorem State.hostSends_txcrc (s : State) (bs : List Byte) : (s.hostSends bs).txcrc = s.txcrc := rfl
@[simp] theorem State.hostSends_phase (s : State) (bs : List Byte) : (s.hostSends bs).phase = s.phase := rfl
@[simp] theorem State.hostSends_cmd (s : State) (bs : List Byte) : (s.hostSends bs).cmd = s.cmd := rfl
@[simp] theorem State.hostSends_addr (s : State) (bs : List Byte) : (s.hostSends bs).addr = s.addr := rfl
@[simp] theorem State.hostSends_len (s : State) (bs : List Byte) : (s.hostSends bs).len = s.len := rfl
@[simp] theorem State.hostSends_cnt (s : State) (bs : List Byte) : (s.hostSends bs).cnt = s.cnt := rfl
@[simp] theorem State.hostSends_result (s : State) (bs : List Byte) : (s.hostSends bs).result = s.result := rfl
@[simp] theorem State.hostSends_crcOk (s : State) (bs : List Byte) : (s.hostSends bs).crcOk = s.crcOk := rfl
@[simp] theorem State.hostSends_policyOk (s : State) (bs : List Byte) : (s.hostSends bs).policyOk = s.policyOk := rfl
@[simp] theorem State.hostSends_pos (s : State) (bs : List Byte) : (s.hostSends bs).pos = s.pos := rfl
@[simp] theorem State.hostSends_ret (s : State) (bs : List Byte) : (s.hostSends bs).ret = s.ret := rfl
@[simp] theorem State.hostSends_ctx (s : State) (bs : List Byte) : (s.hostSends bs).ctx = s.ctx := rfl
@[simp] theorem State.hostSends_params (s : State) (bs : List Byte) : (s.hostSends bs).params = s.params := rfl
@[simp] theorem State.hostSends_log (s : State) (bs : List Byte) : (s.hostSends bs).log = s.log := rfl
@[simp] theorem State.hostSends_mem (s : State) (bs : List Byte) : (s.hostSends bs).mem = s.mem := rfl
@[simp] theorem State.hostSends_noRead (s : State) (bs : List Byte) : (s.hostSends bs).noRead = s.noRead := rfl
@[simp] theorem State.hostSends_devices (s : State) (bs : List Byte) : (s.hostSends bs).devices = s.devices := rfl
@[simp] theorem State.hostSends_reads (s : State) (bs : List Byte) : (s.hostSends bs).reads = s.reads := rfl
@[simp] theorem State.hostSends_noWrite (s : State) (bs : List Byte) : (s.hostSends bs).noWrite = s.noWrite := rfl
@[simp] theorem State.hostSends_txRoom (s : State) (bs : List Byte) : (s.hostSends bs).txRoom = s.txRoom := rfl
@[simp] theorem State.hostSends_flushReady (s : State) (bs : List Byte) : (s.hostSends bs).flushReady = s.flushReady := rfl
@[simp] theorem State.hostSends_calls (s : State) (bs : List Byte) : (s.hostSends bs).calls = s.calls := rfl
@[simp] theorem State.hostSends_cycle (s : State) (bs : List Byte) : (s.hostSends bs).cycle = s.cycle := rfl
@[simp] theorem State.hostSends_rx (s : State) (bs : List Byte) : (s.hostSends bs).rx = s.rx ++ bs := rfl
@[simp] theorem State.callReturns_rxcrc (s : State) (o : CallOutcome) : (s.callReturns o).rxcrc = s.rxcrc := rfl
@[simp] theorem State.callReturns_txcrc (s : State) (o : CallOutcome) : (s.callReturns o).txcrc = s.txcrc := rfl
@[simp] theorem State.callReturns_phase (s : State) (o : CallOutcome) : (s.callReturns o).phase = s.phase := rfl
@[simp] theorem State.callReturns_cmd (s : State) (o : CallOutcome) : (s.callReturns o).cmd = s.cmd := rfl
@[simp] theorem State.callReturns_addr (s : State) (o : CallOutcome) : (s.callReturns o).addr = s.addr := rfl
@[simp] theorem State.callReturns_len (s : State) (o : CallOutcome) : (s.callReturns o).len = s.len := rfl
@[simp] theorem State.callReturns_cnt (s : State) (o : CallOutcome) : (s.callReturns o).cnt = s.cnt := rfl
@[simp] theorem State.callReturns_result (s : State) (o : CallOutcome) : (s.callReturns o).result = s.result := rfl
@[simp] theorem State.callReturns_crcOk (s : State) (o : CallOutcome) : (s.callReturns o).crcOk = s.crcOk := rfl
@[simp] theorem State.callReturns_policyOk (s : State) (o : CallOutcome) : (s.callReturns o).policyOk = s.policyOk := rfl
@[simp] theorem State.callReturns_pos (s : State) (o : CallOutcome) : (s.callReturns o).pos = s.pos := rfl
@[simp] theorem State.callReturns_ret (s : State) (o : CallOutcome) : (s.callReturns o).ret = s.ret := rfl
@[simp] theorem State.callReturns_ctx (s : State) (o : CallOutcome) : (s.callReturns o).ctx = s.ctx := rfl
@[simp] theorem State.callReturns_params (s : State) (o : CallOutcome) : (s.callReturns o).params = s.params := rfl
@[simp] theorem State.callReturns_rx (s : State) (o : CallOutcome) : (s.callReturns o).rx = s.rx := rfl
@[simp] theorem State.callReturns_log (s : State) (o : CallOutcome) : (s.callReturns o).log = s.log := rfl
@[simp] theorem State.callReturns_mem (s : State) (o : CallOutcome) : (s.callReturns o).mem = s.mem := rfl
@[simp] theorem State.callReturns_noRead (s : State) (o : CallOutcome) : (s.callReturns o).noRead = s.noRead := rfl
@[simp] theorem State.callReturns_devices (s : State) (o : CallOutcome) : (s.callReturns o).devices = s.devices := rfl
@[simp] theorem State.callReturns_reads (s : State) (o : CallOutcome) : (s.callReturns o).reads = s.reads := rfl
@[simp] theorem State.callReturns_noWrite (s : State) (o : CallOutcome) : (s.callReturns o).noWrite = s.noWrite := rfl
@[simp] theorem State.callReturns_txRoom (s : State) (o : CallOutcome) : (s.callReturns o).txRoom = s.txRoom := rfl
@[simp] theorem State.callReturns_flushReady (s : State) (o : CallOutcome) : (s.callReturns o).flushReady = s.flushReady := rfl
@[simp] theorem State.callReturns_cycle (s : State) (o : CallOutcome) : (s.callReturns o).cycle = s.cycle := rfl
@[simp] theorem State.callReturns_calls (s : State) (o : CallOutcome) :
    (s.callReturns o).calls = s.calls ++ [o] := rfl

/-! ## The power-on after a hard reset -/

@[simp] theorem powerOn_rxcrc (s : State) : (powerOn s).rxcrc = 0xFF := rfl
@[simp] theorem powerOn_txcrc (s : State) : (powerOn s).txcrc = 0xFF := rfl
@[simp] theorem powerOn_phase (s : State) : (powerOn s).phase = .awaitCommand := rfl
@[simp] theorem powerOn_pos (s : State) : (powerOn s).pos = .done := rfl
@[simp] theorem powerOn_params (s : State) : (powerOn s).params = s.params := rfl
@[simp] theorem powerOn_log (s : State) : (powerOn s).log = s.log := rfl
@[simp] theorem powerOn_rx (s : State) : (powerOn s).rx = Config.rxAfterReset s.cycle := rfl
@[simp] theorem powerOn_mem (s : State) : (powerOn s).mem = [] := rfl
@[simp] theorem powerOn_memByte (s : State) (a : Addr) :
    (powerOn s).memByte a = Config.powerOnByte (s.cycle + 1) a := rfl
@[simp] theorem powerOn_noRead (s : State) : (powerOn s).noRead = s.noRead := rfl
@[simp] theorem powerOn_devices (s : State) : (powerOn s).devices = s.devices := rfl
@[simp] theorem powerOn_reads (s : State) : (powerOn s).reads = s.reads := rfl
@[simp] theorem powerOn_noWrite (s : State) : (powerOn s).noWrite = s.noWrite := rfl
@[simp] theorem powerOn_txRoom (s : State) : (powerOn s).txRoom = s.txRoom := rfl
@[simp] theorem powerOn_flushReady (s : State) : (powerOn s).flushReady = s.flushReady := rfl
@[simp] theorem powerOn_calls (s : State) : (powerOn s).calls = s.calls := rfl
@[simp] theorem powerOn_cycle (s : State) : (powerOn s).cycle = s.cycle + 1 := rfl
@[simp] theorem powerOn_cmd (s : State) : (powerOn s).cmd = 0 := rfl
@[simp] theorem powerOn_addr (s : State) : (powerOn s).addr = 0 := rfl
@[simp] theorem powerOn_len (s : State) : (powerOn s).len = 0 := rfl
@[simp] theorem powerOn_cnt (s : State) : (powerOn s).cnt = 0 := rfl
@[simp] theorem powerOn_result (s : State) : (powerOn s).result = 0 := rfl
@[simp] theorem powerOn_crcOk (s : State) : (powerOn s).crcOk = false := rfl
@[simp] theorem powerOn_policyOk (s : State) : (powerOn s).policyOk = false := rfl
@[simp] theorem powerOn_ret (s : State) : (powerOn s).ret = 0 := rfl
@[simp] theorem powerOn_ctx (s : State) : (powerOn s).ctx = [] := rfl

end Sys2Proof.Machine
end

