-- ==== Sys2Proof/Laws/Ops.lean ====
section
/-! SUPPORT. One lemma for each shared operation that says what it does when every port it needs
answers: the provers cite these instead of unfolding the loops. -/

namespace Sys2Proof.Machine

/-! ## The checksum of a sequence -/

@[simp] theorem crcFold_nil (c : Byte) : crcFold c [] = c := rfl

@[simp] theorem crcFold_cons (c b : Byte) (bs : List Byte) :
    crcFold c (b :: bs) = crcFold (crc8Step c b) bs := rfl

theorem crcFold_append (c : Byte) (xs ys : List Byte) :
    crcFold c (xs ++ ys) = crcFold (crcFold c xs) ys := by
  simp [crcFold, List.foldl_append]

theorem crc8_append (xs ys : List Byte) : crc8 (xs ++ ys) = crcFold (crc8 xs) ys :=
  crcFold_append _ _ _

/-! ## Lists of port actions -/

@[simp] theorem receiveActions_nil : receiveActions [] = [] := rfl

@[simp] theorem receiveActions_cons (b : Byte) (bs : List Byte) :
    receiveActions (b :: bs) = .rxByte b :: receiveActions bs := rfl

@[simp] theorem receiveActions_append (xs ys : List Byte) :
    receiveActions (xs ++ ys) = receiveActions xs ++ receiveActions ys := by
  simp [receiveActions]

@[simp] theorem sendActions_nil : sendActions [] = [] := rfl

@[simp] theorem sendActions_cons (b : Byte) (bs : List Byte) :
    sendActions (b :: bs) = .txByte b :: sendActions bs := rfl

@[simp] theorem sendActions_append (xs ys : List Byte) :
    sendActions (xs ++ ys) = sendActions xs ++ sendActions ys := by
  simp [sendActions]

/-! ## Ports -/

theorem rxByte_of_cons {s : State} {b : Byte} {rest : List Byte} (h : s.rx = b :: rest) :
    rxByte s = some (b, { s with rx := rest, log := s.log ++ [.rxByte b] }) := by
  simp [rxByte, h, State.act]

theorem rxByte_of_nil {s : State} (h : s.rx = []) : rxByte s = none := by
  simp [rxByte, h]

theorem recvU8_of_cons {s : State} {b : Byte} {rest : List Byte} (h : s.rx = b :: rest) :
    recvU8 s = some (b, { s with rx := rest, log := s.log ++ [.rxByte b],
                                 rxcrc := crc8Step s.rxcrc b }) := by
  simp [recvU8, rxByte_of_cons h]

theorem recvU8_of_nil {s : State} (h : s.rx = []) : recvU8 s = none := by
  simp [recvU8, rxByte_of_nil h]

theorem txByte_of_accepts {s : State} (b : Byte) (h : s.accepts 1) :
    txByte b s = some { s with txRoom := s.roomAfter 1, log := s.log ++ [.txByte b] } := by
  unfold State.accepts at h
  unfold txByte State.roomAfter State.act
  split
  · next hr => simp [hr]
  · next hr => simp [hr] at h
  · next n hr => simp [hr]

theorem sendU8_of_accepts {s : State} (b : Byte) (h : s.accepts 1) :
    sendU8 b s = some { s with txRoom := s.roomAfter 1, log := s.log ++ [.txByte b],
                               txcrc := crc8Step s.txcrc b } := by
  simp [sendU8, txByte_of_accepts b h]

theorem memRead_of_readable {s : State} {a : Addr} (h : inRanges s.noRead a = false) :
    memRead a s = some (s.memAnswer 0 a,
      { s with reads := s.reads + 1, log := s.log ++ [.memRead a (s.memAnswer 0 a)] }) := by
  simp [memRead, h, State.act]

theorem memWrite_of_writable {s : State} {a : Addr} (b : Byte) (h : inRanges s.noWrite a = false) :
    memWrite a b s = some { s with mem := s.mem.write a.toNat b,
                                   log := s.log ++ [.memWrite a b] } := by
  simp [memWrite, h, State.act]

theorem callOut_of_cons {s : State} {o : CallOutcome} {rest : List CallOutcome} (fn : Word)
    (args : List Word) (h : s.calls = o :: rest) :
    callOut fn args s = some { s with calls := rest, mem := s.mem.writeAll o.stores, ret := o.value,
                                      log := s.log ++ [.execCall fn args o.value] } := by
  simp [callOut, h, State.act]

/-! ## Room and reach, one byte at a time -/

theorem State.accepts_of_le {s : State} {m n : Nat} (h : s.accepts n) (hm : m ≤ n) :
    s.accepts m := by
  unfold State.accepts at *; split <;> simp_all; omega

theorem State.accepts_of_room {s t : State} {m n : Nat} (h : s.accepts (m + n))
    (ht : t.txRoom = s.roomAfter m) : t.accepts n := by
  unfold State.accepts State.roomAfter at *
  cases hr : s.txRoom with
  | none => simp [ht, hr]
  | some r => simp only [hr, Option.map_some] at h ht; simp only [ht]; omega

theorem State.roomAfter_add (s : State) (m n : Nat) :
    (s.roomAfter m).map (· - n) = s.roomAfter (m + n) := by
  unfold State.roomAfter; cases s.txRoom <;> simp [Nat.sub_sub]

@[simp] theorem State.roomAfter_zero (s : State) : s.roomAfter 0 = s.txRoom := by
  unfold State.roomAfter; cases s.txRoom <;> simp

theorem State.readable_zero {s : State} {a : Addr} {n : Nat} (h : s.readable a (n + 1)) :
    inRanges s.noRead a = false := by simpa using h 0 (by omega)

theorem State.readable_succ {s : State} {a : Addr} {n : Nat} (h : s.readable a (n + 1)) :
    s.readable (a + 1) n := fun k hk => by rw [addr_add_succ]; exact h (k + 1) (by omega)

theorem State.writable_zero {s : State} {a : Addr} {n : Nat} (h : s.writable a (n + 1)) :
    inRanges s.noWrite a = false := by simpa using h 0 (by omega)

theorem State.writable_succ {s : State} {a : Addr} {n : Nat} (h : s.writable a (n + 1)) :
    s.writable (a + 1) n := fun k hk => by rw [addr_add_succ]; exact h (k + 1) (by omega)

/-- Incrementing CNT moves the data address on by one, below 2^32. -/
theorem dataAddr_succ (a : Addr) (c : BitVec 32) (h : c.toNat + 1 < 2 ^ 32) :
    a + (c + 1).setWidth 64 = a + c.setWidth 64 + 1 := by
  rw [BitVec.add_assoc]
  congr 1
  apply BitVec.eq_of_toNat_eq
  rw [BitVec.toNat_setWidth, BitVec.toNat_add, BitVec.toNat_add, BitVec.toNat_setWidth,
    show (1 : BitVec 32).toNat = 1 from rfl, show (1 : BitVec 64).toNat = 1 from rfl]
  omega

/-! ## The loops, when the ports answer -/

/-- Receiving an integer (R142 to R145). -/
theorem recvInt_complete (d : Dest) (bs got : List Byte) (rest : List Byte) (s : State)
    (h : s.rx = bs ++ rest) :
    recvInt d bs.length got s =
      .done ({ s with rx := rest, rxcrc := crcFold s.rxcrc bs,
                      log := s.log ++ receiveActions bs }.setDest (leValue 64 (got ++ bs)) d) := by
  induction bs generalizing got s with
  | nil =>
    obtain rfl : s.rx = rest := h
    simp [recvInt]
  | cons b bs ih =>
    simp only [List.length_cons, recvInt, recvU8_of_cons (show s.rx = b :: (bs ++ rest) from h)]
    rw [ih (got ++ [b]) _ rfl]
    simp

/-- Sending bytes (R146 to R149). -/
theorem sendBytes_complete (bs : List Byte) (s : State) (h : s.accepts bs.length) :
    sendBytes bs s =
      .done { s with txRoom := s.roomAfter bs.length, txcrc := crcFold s.txcrc bs,
                     log := s.log ++ sendActions bs } := by
  induction bs generalizing s with
  | nil => simp [sendBytes]
  | cons b bs ih =>
    simp only [sendBytes, sendU8_of_accepts b (s.accepts_of_le h (by simp))]
    rw [ih _ (State.accepts_of_room (s := s) (m := 1) (by simpa [Nat.add_comm] using h) rfl)]
    simp only [State.roomAfter, Progress.done.injEq]
    simp [Nat.sub_sub, Nat.add_comm 1, Function.comp_def]

/-- `rx_data` (R150): received, folded and stored, byte after byte. -/
theorem recvData_complete (addr : Addr) (len : BitVec 32) (data rest : List Byte) (s : State)
    (hr : s.rx = data ++ rest) (hw : s.writable (s.dataAddr addr) data.length)
    (hc : s.cnt.toNat + data.length < 2 ^ 32) :
    recvData addr len data.length s =
      .done { s with rx := rest, rxcrc := crcFold s.rxcrc data,
                     mem := s.mem.storeBytesAt (s.dataAddr addr) data,
                     cnt := s.cnt + BitVec.ofNat 32 data.length,
                     log := s.log ++ receiveAndStoreActions (s.dataAddr addr) data } := by
  induction data generalizing s with
  | nil =>
    obtain rfl : s.rx = rest := hr
    simp [recvData, receiveAndStoreActions, Memory.storeBytesAt]
  | cons b data ih =>
    simp only [List.length_cons] at hw hc ⊢
    simp only [recvData, recvU8_of_cons (show s.rx = b :: (data ++ rest) from hr)]
    have h0 := State.writable_zero hw
    rw [memWrite_of_writable b (by simpa [State.dataAddr] using h0)]
    have hd := dataAddr_succ addr s.cnt (by omega)
    dsimp only
    rw [ih]
    · simp only [State.dataAddr, State.bumpCnt, hd, Progress.done.injEq, receiveAndStoreActions,
        Memory.storeBytesAt, crcFold_cons, BitVec.ofNat_add, List.append_assoc, List.cons_append,
        List.nil_append]
      simp only [BitVec.add_assoc, BitVec.add_comm (BitVec.ofNat 32 data.length)]
      rfl
    · rfl
    · intro k hk
      have := State.writable_succ hw k hk
      simp only [State.dataAddr, State.bumpCnt, hd] at this ⊢
      exact this
    · simp only [State.bumpCnt, BitVec.toNat_add, show (1 : BitVec 32).toNat = 1 from rfl]
      omega

/-- `tx_data` (R151): read and sent, byte after byte. -/
theorem sendData_complete (addr : Addr) (len : BitVec 32) (n : Nat) (s : State)
    (ha : s.accepts n) (hr : s.readable (s.dataAddr addr) n) (hc : s.cnt.toNat + n < 2 ^ 32) :
    sendData addr len n s =
      .done { s with txRoom := s.roomAfter n, reads := s.reads + n,
                     txcrc := crcFold s.txcrc (s.bytesAt (s.dataAddr addr) n),
                     cnt := s.cnt + BitVec.ofNat 32 n,
                     log := s.log ++ readAndSendActions (s.dataAddr addr)
                              (s.bytesAt (s.dataAddr addr) n) } := by
  induction n generalizing s with
  | zero => simp [sendData, State.bytesAt_zero, readAndSendActions]
  | succ n ih =>
    have h0 := State.readable_zero hr
    simp only [sendData]
    rw [memRead_of_readable h0]
    dsimp only
    rw [sendU8_of_accepts _ (by exact State.accepts_of_le (s := s) ha (by omega))]
    have hd := dataAddr_succ addr s.cnt (by omega)
    dsimp only
    rw [ih]
    · simp only [State.dataAddr, State.bumpCnt, hd, Progress.done.injEq, State.bytesAt_succ,
        readAndSendActions, crcFold_cons, BitVec.ofNat_add, State.roomAfter,
        List.append_assoc, List.cons_append, List.nil_append]
      simp only [BitVec.add_assoc, BitVec.add_comm (BitVec.ofNat 32 n)]
      simp [Nat.sub_sub, Nat.add_comm 1, Function.comp_def]
      exact ⟨rfl, rfl, by omega⟩
    · exact State.accepts_of_room (s := s) (m := 1) (by simpa [Nat.add_comm] using ha) rfl
    · intro k hk
      have := State.readable_succ hr k hk
      simp only [State.dataAddr, State.bumpCnt, hd] at this ⊢
      exact this
    · simp only [State.bumpCnt, BitVec.toNat_add, show (1 : BitVec 32).toNat = 1 from rfl]
      omega

/-- `rx_ignore_data` (R152): received and folded, nothing stored. -/
theorem recvIgnore_complete (len : BitVec 32) (data rest : List Byte) (s : State)
    (hr : s.rx = data ++ rest) :
    recvIgnore len data.length s =
      .done { s with rx := rest, rxcrc := crcFold s.rxcrc data,
                     cnt := s.cnt + BitVec.ofNat 32 data.length,
                     log := s.log ++ receiveActions data } := by
  induction data generalizing s with
  | nil =>
    obtain rfl : s.rx = rest := hr
    simp [recvIgnore]
  | cons b data ih =>
    simp only [List.length_cons, recvIgnore,
      recvU8_of_cons (show s.rx = b :: (data ++ rest) from hr)]
    rw [ih _ rfl]
    simp only [State.bumpCnt, Progress.done.injEq, crcFold_cons, BitVec.ofNat_add,
      List.append_assoc, List.cons_append, List.nil_append]
    simp only [BitVec.add_assoc, BitVec.add_comm (BitVec.ofNat 32 data.length)]
    rfl

/-- `rx_validate_crc` (R153). -/
theorem validateCrc_complete (c : Byte) (rest : List Byte) (s : State) (h : s.rx = c :: rest) :
    validateCrc s = .done { s with rx := rest, crcOk := c == s.rxcrc,
                                   log := s.log ++ [.rxByte c] } := by
  simp [validateCrc, rxByte_of_cons h, crcMatches]

/-- `tx_crc` (R154). -/
theorem sendCrc_complete (s : State) (h : s.accepts 1) :
    sendCrc s = .done { s with txRoom := s.roomAfter 1, log := s.log ++ [.txByte s.txcrc] } := by
  simp [sendCrc, txByte_of_accepts _ h]

/-- The context's bytes, read in ascending order (R57, R187). -/
theorem readContext_complete (n : Nat) (got : List Byte) (s : State)
    (h : s.readable (s.addr + BitVec.ofNat 64 got.length) n) :
    readContext n got s =
      .done { s with reads := s.reads + n, ctx := contextWords
                       (got ++ s.bytesAt (s.addr + BitVec.ofNat 64 got.length) n),
                     log := s.log ++ readActions (s.addr + BitVec.ofNat 64 got.length)
                       (s.bytesAt (s.addr + BitVec.ofNat 64 got.length) n) } := by
  induction n generalizing got s with
  | zero => simp [readContext, State.bytesAt_zero, readActions]
  | succ n ih =>
    have e : s.addr + BitVec.ofNat 64 (got.length + 1) =
        s.addr + BitVec.ofNat 64 got.length + 1 := by
      rw [BitVec.ofNat_add, BitVec.add_assoc]; rfl
    simp only [readContext, memRead_of_readable (State.readable_zero h)]
    rw [ih]
    · simp [State.bytesAt_succ, readActions, e]
      exact ⟨rfl, rfl, by omega⟩
    · simpa [e] using State.readable_succ h

/-- Stores at ascending addresses (R56). -/
theorem writeBytes_complete (a : Addr) (bs : List Byte) (s : State) (h : s.writable a bs.length) :
    writeBytes a bs s = .done { s with mem := s.mem.storeBytesAt a bs,
                                       log := s.log ++ writeActions a bs } := by
  induction bs generalizing a s with
  | nil => simp [writeBytes, writeActions, Memory.storeBytesAt]
  | cons b bs ih =>
    simp only [writeBytes, memWrite_of_writable b (State.writable_zero h)]
    rw [ih (a + 1) _ (by exact State.writable_succ h)]
    simp [writeActions, Memory.storeBytesAt]

/-- The result slot, read in ascending order (R187). -/
theorem readSlot_complete (n : Nat) (got : List Byte) (s : State)
    (h : s.readable (s.slotAddr + BitVec.ofNat 64 got.length) n) :
    readSlot n got s =
      .done { s with reads := s.reads + n, result := leValue 64
                       (got ++ s.bytesAt (s.slotAddr + BitVec.ofNat 64 got.length) n),
                     log := s.log ++ readActions (s.slotAddr + BitVec.ofNat 64 got.length)
                       (s.bytesAt (s.slotAddr + BitVec.ofNat 64 got.length) n) } := by
  induction n generalizing got s with
  | zero => simp [readSlot, State.bytesAt_zero, readActions]
  | succ n ih =>
    have e : s.slotAddr + BitVec.ofNat 64 (got.length + 1) =
        s.slotAddr + BitVec.ofNat 64 got.length + 1 := by
      rw [BitVec.ofNat_add, BitVec.add_assoc]; rfl
    simp only [readSlot, memRead_of_readable (State.readable_zero h)]
    rw [ih]
    · simp only [State.slotAddr] at e
      simp only [State.bytesAt_succ, readActions, State.slotAddr, List.length_append,
        List.length_singleton, e, List.append_assoc, List.cons_append, List.nil_append,
        Nat.add_assoc, Nat.add_comm 1 n]
      rfl
    · intro k hk
      have := State.readable_succ h k hk
      simp only [State.slotAddr] at e this ⊢
      simp only [List.length_append, List.length_singleton, e]
      exact this

end Sys2Proof.Machine
end

