-- ==== Sys2Proof/Laws/Run.lean ====
section
/-! SUPPORT. Running pseudocode: one lemma for each operation in front of a rest, when its ports
answer; then the shared pieces of a frame (the command code, the tail, a response, an error). -/

namespace Sys2Proof.Machine

@[simp] theorem seq_nil (k : Prog) : Prog.seq [] k = k := rfl

@[simp] theorem seq_cons (o : Op) (os : List Op) (k : Prog) :
    Prog.seq (o :: os) k = .op o (Prog.seq os k) := rfl

theorem seq_append (xs ys : List Op) (k : Prog) :
    Prog.seq (xs ++ ys) k = Prog.seq xs (Prog.seq ys k) := by
  induction xs with
  | nil => rfl
  | cons x xs ih => simp [ih]

theorem run_op_done {o : Op} {k : Prog} {s t : State} (h : o.run s = .done t) :
    (Prog.op o k).run s = k.run t := by simp [Prog.run, h]

theorem run_op_waits {o rest : Op} {k : Prog} {s t : State} (h : o.run s = .waits t rest) :
    (Prog.op o k).run s = { t with pos := .op rest k } := by simp [Prog.run, h]

theorem runAlone_done {o : Op} {s t : State} (h : o.run s = .done t) : o.runAlone s = t := by
  simp [Op.runAlone, h]

theorem runAlone_waits {o rest : Op} {s t : State} (h : o.run s = .waits t rest) :
    o.runAlone s = { t with pos := .op rest t.pos } := by simp [Op.runAlone, h]

/-! ## The position is written at the end of a run, and read by no operation -/

@[simp] theorem run_done (s : State) : Prog.done.run s = { s with pos := .done } := rfl

@[simp] theorem run_dispatch (s : State) : Prog.dispatch.run s = { s with pos := .dispatch } := rfl

@[simp] theorem run_hardReset (s : State) :
    Prog.hardReset.run s = { s with pos := .resetting, log := s.log ++ [.hardReset] } := rfl

@[simp] theorem run_resetting (s : State) :
    Prog.resetting.run s = { s with pos := .resetting } := rfl

@[simp] theorem run_setPhase (p : Phase) (k : Prog) (s : State) :
    (Prog.op (.setPhase p) k).run s = k.run { s with phase := p } := rfl

@[simp] theorem run_rxStart (k : Prog) (s : State) :
    (Prog.op .rxStart k).run s = k.run { s with rxcrc := 0 } := rfl

@[simp] theorem run_txStart (k : Prog) (s : State) :
    (Prog.op .txStart k).run s = k.run { s with txcrc := 0 } := rfl

@[simp] theorem run_checkPolicy (k : Prog) (s : State) :
    (Prog.op .checkPolicy k).run s =
      k.run { s with policyOk := decide (s.params.guardAddress ≤ s.addr) } := rfl

theorem run_onCrcOk (yes no : Prog) (s : State) :
    (Prog.onCrcOk yes no).run s = if s.crcOk then yes.run s else no.run s := rfl

theorem run_onPolicyOk (yes no : Prog) (s : State) :
    (Prog.onPolicyOk yes no).run s = if s.policyOk then yes.run s else no.run s := rfl

/-! ## Operations whose ports answer -/

theorem op_rxInt_complete (d : Dest) {n : Nat} {bs rest : List Byte} {s : State}
    (h : s.rx = bs ++ rest) (hn : bs.length = n) :
    (Op.rxInt d n []).run s =
      .done ({ s with rx := rest, rxcrc := crcFold s.rxcrc bs,
                      log := s.log ++ receiveActions bs }.setDest (leValue 64 bs) d) := by
  subst hn
  have := recvInt_complete d bs [] rest s h
  simp only [List.nil_append] at this
  exact this

theorem op_txInt_complete (v : Src) {n : Nat} {s : State} (h : s.accepts n) :
    (Op.txInt n v).run s =
      .done { s with txRoom := s.roomAfter n, txcrc := crcFold s.txcrc (leBytes n (v.eval s)),
                     log := s.log ++ sendActions (leBytes n (v.eval s)) } := by
  have := sendBytes_complete (leBytes n (v.eval s)) s (by simpa using h)
  simpa [Op.run] using this

theorem cnt_from_zero (l : BitVec 32) : (0 : BitVec 32) + BitVec.ofNat 32 l.toNat = l := by simp

theorem dataLeft_of_zero {s : State} (h : s.cnt = 0) (l : BitVec 32) : s.dataLeft l = l.toNat := by
  simp [State.dataLeft, h]

theorem op_rxData_complete (a l : Src) {data rest : List Byte} {s : State}
    (hl : data.length = ((l.eval s).setWidth 32).toNat) (hr : s.rx = data ++ rest)
    (hw : s.writable (a.eval s) data.length) :
    (Op.rxData a l).run s =
      .done { s with rx := rest, rxcrc := crcFold s.rxcrc data,
                     mem := s.mem.storeBytesAt (a.eval s) data,
                     cnt := (l.eval s).setWidth 32,
                     log := s.log ++ receiveAndStoreActions (a.eval s) data } := by
  have hlt : data.length < 2 ^ 32 := hl ▸ ((l.eval s).setWidth 32).isLt
  have e0 : a.eval s + (0 : BitVec 32).setWidth 64 = a.eval s := by simp
  have := recvData_complete (a.eval s) ((l.eval s).setWidth 32) data rest { s with cnt := 0 } hr
    (by simp only [State.dataAddr, e0]; exact hw) (by simpa using hlt)
  show recvData _ _ (State.dataLeft { s with cnt := 0 } _) _ = _
  rw [dataLeft_of_zero rfl, ← hl, this]
  simp only [State.dataAddr, e0, hl]
  congr 2
  exact cnt_from_zero _

theorem op_txData_complete (a l : Src) {s : State}
    (ha : s.accepts ((l.eval s).setWidth 32).toNat)
    (hr : s.readable (a.eval s) ((l.eval s).setWidth 32).toNat) :
    (Op.txData a l).run s =
      .done { s with txRoom := s.roomAfter ((l.eval s).setWidth 32).toNat,
                     reads := s.reads + ((l.eval s).setWidth 32).toNat,
                     txcrc := crcFold s.txcrc
                       (s.bytesAt (a.eval s) ((l.eval s).setWidth 32).toNat),
                     cnt := (l.eval s).setWidth 32,
                     log := s.log ++ readAndSendActions (a.eval s)
                       (s.bytesAt (a.eval s) ((l.eval s).setWidth 32).toNat) } := by
  have e0 : a.eval s + (0 : BitVec 32).setWidth 64 = a.eval s := by simp
  have := sendData_complete (a.eval s) ((l.eval s).setWidth 32) ((l.eval s).setWidth 32).toNat
    { s with cnt := 0 } ha (by simp only [State.dataAddr, e0]; exact hr)
    (by simpa using ((l.eval s).setWidth 32).isLt)
  show sendData _ _ (State.dataLeft { s with cnt := 0 } _) _ = _
  rw [dataLeft_of_zero rfl, this]
  simp only [State.dataAddr, e0, State.roomAfter]
  congr 2
  exact cnt_from_zero _

theorem op_rxIgnoreData_complete (l : Src) {data rest : List Byte} {s : State}
    (hl : data.length = ((l.eval s).setWidth 32).toNat) (hr : s.rx = data ++ rest) :
    (Op.rxIgnoreData l).run s =
      .done { s with rx := rest, rxcrc := crcFold s.rxcrc data,
                     cnt := (l.eval s).setWidth 32,
                     log := s.log ++ receiveActions data } := by
  have := recvIgnore_complete ((l.eval s).setWidth 32) data rest { s with cnt := 0 } hr
  show recvIgnore _ (State.dataLeft { s with cnt := 0 } _) _ = _
  rw [dataLeft_of_zero rfl, ← hl, this]
  simp only [hl]
  congr 2
  exact cnt_from_zero _

theorem op_rxValidateCrc_complete {c : Byte} {rest : List Byte} {s : State} (h : s.rx = c :: rest) :
    Op.rxValidateCrc.run s = .done { s with rx := rest, crcOk := c == s.rxcrc,
                                            log := s.log ++ [.rxByte c] } :=
  validateCrc_complete c rest s h

theorem op_txCrc_complete {s : State} (h : s.accepts 1) :
    Op.txCrc.run s = .done { s with txRoom := s.roomAfter 1,
                                    log := s.log ++ [.txByte s.txcrc] } :=
  sendCrc_complete s h

theorem op_txFlush_complete {s : State} (h : s.flushReady = true) :
    Op.txFlush.run s = .done { s with log := s.log ++ [.txFlush] } := by
  simp [Op.run, flushTx, h, State.act]

theorem op_execCall_complete {o : CallOutcome} {rest : List CallOutcome} {s : State}
    (h : s.calls = o :: rest) :
    Op.execCall.run s =
      .done { s with calls := rest, mem := s.mem.writeAll o.stores, ret := o.value,
                     log := s.log ++ [.execCall (s.ctx.headD 0) s.ctx.tail o.value] } := by
  simp [Op.run, callContext, callOut_of_cons _ _ h]

/-- Eight of the 72 bytes of a context are the word at their address (20_memory.md R57). -/
theorem contextWords_bytesAt (s : State) (a : Addr) :
    contextWords (s.bytesAt a contextSize) = s.contextAt a := by
  have h : ∀ k : Nat, 8 * k + 8 ≤ 72 →
      ((s.bytesAt a 72).drop (8 * k)).take 8 = (List.range 8).map fun i =>
        s.memAnswer (8 * k + i) (a + BitVec.ofNat 64 (8 * k) + BitVec.ofNat 64 i) := by
    intro k hk
    apply List.ext_getElem
    · simp [State.bytesAt]; omega
    · intro n h1 h2
      simp [State.bytesAt, BitVec.add_assoc, BitVec.ofNat_add]
  unfold contextWords State.contextAt State.wordAt contextSize
  rw [show (9 : Nat) = 8 + 1 from rfl, List.range_succ_eq_map, List.map_cons, List.map_map]
  refine List.cons_eq_cons.mpr ⟨?_, ?_⟩
  · simpa using congrArg (leValue 64) (h 0 (by omega))
  · apply List.map_congr_left
    intro k hk
    have hk : k < 8 := by simpa using hk
    simp only [Function.comp]
    rw [h (k + 1) (by omega), show 8 * (k + 1) = 8 + 8 * k by omega, BitVec.ofNat_add,
      BitVec.add_assoc]
    rfl

theorem op_loadContext_complete {s : State} (h : s.readable s.addr 72) :
    (Op.loadContext contextSize []).run s =
      .done { s with reads := s.reads + 72, ctx := s.contextAt s.addr,
                     log := s.log ++ readActions s.addr (s.bytesAt s.addr 72) } := by
  have := readContext_complete 72 [] s (by simpa using h)
  simp only [List.nil_append, List.length_nil, BitVec.add_zero] at this
  rw [← contextWords_bytesAt]
  exact this

theorem op_storeSlot_complete {s : State} (h : s.writable (s.addr + 8) 8) :
    Op.storeSlot.run s =
      .done { s with mem := s.mem.storeBytesAt (s.addr + 8) (leBytes 8 s.ret),
                     log := s.log ++ writeActions (s.addr + 8) (leBytes 8 s.ret) } :=
  writeBytes_complete (s.addr + 8) (leBytes 8 s.ret) s (by simpa using h)

theorem op_loadSlot_complete {s : State} (h : s.readable (s.addr + 8) 8) :
    (Op.loadSlot 8 []).run s =
      .done { s with reads := s.reads + 8, result := s.wordAt 0 (s.addr + 8),
                     log := s.log ++ readActions (s.addr + 8) (s.bytesAt (s.addr + 8) 8) } := by
  have := readSlot_complete 8 [] s (by simpa [State.slotAddr] using h)
  simp only [List.nil_append, List.length_nil, BitVec.add_zero] at this
  exact this

/-! ## Straight-line sends -/

/-- The operations that send integer fields, given by width in bytes and source. -/
def txFields (fs : List (Nat × Src)) : List Op := fs.map fun f => Op.txInt f.1 f.2

/-- The bytes those operations put on the wire. -/
def fieldBytes (s : State) (fs : List (Nat × Src)) : List Byte :=
  fs.flatMap fun f => leBytes f.1 (f.2.eval s)

/-- Sending changes nothing a source reads. -/
theorem eval_of_same {s t : State} (v : Src) (h1 : t.cmd = s.cmd) (h2 : t.addr = s.addr)
    (h3 : t.len = s.len) (h4 : t.result = s.result) (h5 : t.params = s.params) :
    v.eval t = v.eval s := by
  cases v <;> simp [Src.eval, *]

theorem fieldBytes_of_same {s t : State} (fs : List (Nat × Src)) (h1 : t.cmd = s.cmd)
    (h2 : t.addr = s.addr) (h3 : t.len = s.len) (h4 : t.result = s.result)
    (h5 : t.params = s.params) : fieldBytes t fs = fieldBytes s fs := by
  simp only [fieldBytes, eval_of_same _ h1 h2 h3 h4 h5]

theorem run_txFields (fs : List (Nat × Src)) (k : Prog) (s : State)
    (h : s.accepts (fieldBytes s fs).length) :
    (Prog.seq (txFields fs) k).run s =
      k.run { s with txRoom := s.roomAfter (fieldBytes s fs).length,
                     txcrc := crcFold s.txcrc (fieldBytes s fs),
                     log := s.log ++ sendActions (fieldBytes s fs) } := by
  induction fs generalizing s with
  | nil => simp [txFields, fieldBytes]
  | cons f fs ih =>
    obtain ⟨n, v⟩ := f
    have e : fieldBytes s ((n, v) :: fs) = leBytes n (v.eval s) ++ fieldBytes s fs := rfl
    rw [e] at h ⊢
    rw [List.length_append, leBytes_length] at h
    simp only [txFields, List.map_cons, seq_cons]
    rw [run_op_done (op_txInt_complete v (s.accepts_of_le h (by omega)))]
    have e2 := fieldBytes_of_same (s := s)
      (t := { s with txRoom := s.roomAfter n, txcrc := crcFold s.txcrc (leBytes n (v.eval s)),
                     log := s.log ++ sendActions (leBytes n (v.eval s)) }) fs rfl rfl rfl rfl rfl
    have := ih _ (State.accepts_of_room (s := s) (m := n)
      (t := { s with txRoom := s.roomAfter n, txcrc := crcFold s.txcrc (leBytes n (v.eval s)),
                     log := s.log ++ sendActions (leBytes n (v.eval s)) }) (by rw [e2]; exact h) rfl)
    rw [e2] at this
    simp only [txFields] at this
    rw [this]
    simp only [State.roomAfter, List.length_append, leBytes_length, crcFold_append,
      sendActions_append, List.append_assoc, Option.map_map, Function.comp_def, Nat.sub_sub]

/-! ## Pieces of a frame -/

/-- A success response of integer fields (30_encoding.md R85). -/
theorem run_respond (fs : List (Nat × Src)) (k : Prog) (s : State) (payload : List Byte)
    (hp : payload = leBytes 2 s.cmd ++ fieldBytes s fs) (h : s.accepts (payload.length + 1)) :
    (respond (txFields fs) k).run s =
      k.run { s with phase := .responding, txcrc := crc8 payload,
                     txRoom := s.roomAfter (payload.length + 1),
                     log := s.log ++ sendActions (withCrc payload) } := by
  have hc : fieldBytes s ((2, .cmd) :: fs) = payload := by
    rw [hp, ← leBytes_setWidth 2 16 s.cmd (by decide) (by decide)]; rfl
  have e2 : fieldBytes { s with phase := .responding, txcrc := 0 } ((2, .cmd) :: fs) = payload := by
    rw [← hc]; exact fieldBytes_of_same _ rfl rfl rfl rfl rfl
  have h2 : ([.setPhase .responding, .txStart, .txInt 2 .cmd] ++ txFields fs ++ [.txCrc]) =
      [.setPhase .responding, .txStart] ++ (txFields ((2, .cmd) :: fs) ++ [Op.txCrc]) := rfl
  rw [respond, h2, seq_append, seq_append]
  simp only [seq_cons, seq_nil, run_setPhase, run_txStart]
  rw [run_txFields _ _ _ (by rw [e2]; exact s.accepts_of_le h (by omega)), e2,
    run_op_done (op_txCrc_complete (by exact State.accepts_of_room h rfl))]
  simp only [State.roomAfter, withCrc, sendActions_append, sendActions_cons, sendActions_nil,
    crc8, crcFrameSeed, List.append_assoc, Option.map_map, Function.comp_def, Nat.sub_sub]

/-- Raising an error: one constant Error frame, then the top of the loop (60_exceptions.md R230). -/
theorem run_raiseError (e : ErrorCode) (s : State) (h : s.accepts 5) :
    (raiseError e).run s =
      s.answerError e := by
  have e1 : leBytes 2 (cmdError.setWidth 64) = leBytes 2 cmdError :=
    leBytes_setWidth 2 16 _ (by decide) (by decide)
  have e2 : leBytes 2 ((errorValue e).setWidth 64) = leBytes 2 (errorValue e) :=
    leBytes_setWidth 2 16 _ (by decide) (by decide)
  have hf : ∀ t : State, fieldBytes t [(2, .imm (cmdError.setWidth 64)),
      (2, .imm ((errorValue e).setWidth 64))] = leBytes 2 cmdError ++ leBytes 2 (errorValue e) := by
    intro t; simp [fieldBytes, Src.eval, e1, e2]
  have h2 : raiseError e = Prog.seq ([.setPhase .responding, .txStart] ++
      (txFields [(2, .imm (cmdError.setWidth 64)), (2, .imm ((errorValue e).setWidth 64))] ++
        [Op.txCrc, .setPhase .awaitCommand])) .done := rfl
  rw [h2, seq_append, seq_append]
  simp only [seq_cons, seq_nil, run_setPhase, run_txStart]
  rw [run_txFields _ _ _ (by rw [hf]; exact s.accepts_of_le h (by simp)), hf,
    run_op_done (op_txCrc_complete (by exact State.accepts_of_room (m := 4) h rfl))]
  simp only [run_setPhase, run_done, State.roomAfter, State.answerError, State.answer,
    errorPayload, withCrc, sendActions_append,
    sendActions_cons, sendActions_nil, crc8, crcFrameSeed, List.append_assoc, Option.map_map,
    Function.comp_def, List.length_append, leBytes_length]
  rfl

/-- The common tail with the right checksum byte (42_commands.md R190). -/
theorem run_validated_ok (k : Prog) (s : State) {c : Byte} {rest : List Byte}
    (hr : s.rx = c :: rest) (hc : c = s.rxcrc) :
    (validated k).run s = k.run { s with phase := .validatingCrc, rx := rest, crcOk := true,
                                         log := s.log ++ [.rxByte c] } := by
  rw [validated, run_setPhase,
    run_op_done (op_rxValidateCrc_complete (c := c) (rest := rest) (by exact hr)), run_onCrcOk]
  simp [hc]

/-- The common tail with a wrong checksum byte: Invalid-CRC (42_commands.md R190). -/
theorem run_validated_bad (k : Prog) (s : State) {c : Byte} {rest : List Byte}
    (hr : s.rx = c :: rest) (hc : c ≠ s.rxcrc) :
    (validated k).run s =
      (raiseError .invalidCrc).run { s with phase := .validatingCrc, rx := rest, crcOk := false,
                                            log := s.log ++ [.rxByte c] } := by
  have hb : (c == s.rxcrc) = false := by simpa using hc
  rw [validated, run_setPhase,
    run_op_done (op_rxValidateCrc_complete (c := c) (rest := rest) (by exact hr)), run_onCrcOk]
  simp [hb]

/-- The command code is received, its two bytes folded from the seed 0x00 (42_commands.md R180). -/
theorem run_frame (body : Prog) (code : BitVec 16) (rest : List Byte) (s : State)
    (hr : s.rx = leBytes 2 code ++ rest) :
    (frame body).run s =
      body.run { s with phase := .decodingFields, rxcrc := crc8 (leBytes 2 code), cmd := code,
                        rx := rest, log := s.log ++ receiveActions (leBytes 2 code) } := by
  rw [frame, awaitCode]
  simp only [seq_cons, seq_nil, run_setPhase, run_rxStart]
  rw [run_op_done (op_rxInt_complete .cmd (bs := leBytes 2 code) (rest := rest) (by exact hr)
    (by simp)), run_setPhase]
  simp only [State.setDest_cmd_eq, leValue_leBytes_setWidth 2 16 code (by decide) (by decide)]
  rfl

/-! ## Instructions one after the other -/

@[simp] theorem runInstrs_nil (s : State) : runInstrs [] s = .next s := rfl

theorem runInstrs_cons_of_next {i : Instr} {is : List Instr} {s t : State} (h : exec i s = .next t) :
    runInstrs (i :: is) s = runInstrs is t := by simp [runInstrs, h]

end Sys2Proof.Machine
end

