-- ==== Sys2Proof/Laws/Effects.lean ====
section
/-! SUPPORT. What any piece of pseudocode can do, whatever the ports answer: it adds to the port
log, takes bytes from the head of the receive stream, writes none of the machine's arguments, and
keeps memory in its canonical form (10_state.md R23, R34; 20_memory.md R51, R65). -/

namespace Sys2Proof.Machine

/-! ## Bytes received and sent, action by action -/

@[simp] theorem receivedBytes_append (xs ys : List PortAction) :
    receivedBytes (xs ++ ys) = receivedBytes xs ++ receivedBytes ys := by
  induction xs with
  | nil => rfl
  | cons x xs ih => cases x <;> simp [receivedBytes, ih]

@[simp] theorem sentBytes_append (xs ys : List PortAction) :
    sentBytes (xs ++ ys) = sentBytes xs ++ sentBytes ys := by
  induction xs with
  | nil => rfl
  | cons x xs ih => cases x <;> simp [sentBytes, ih]

@[simp] theorem sentBytes_sendActions (bs : List Byte) : sentBytes (sendActions bs) = bs := by
  induction bs with
  | nil => rfl
  | cons b bs ih => simp [sentBytes, ih]

@[simp] theorem sentBytes_receiveActions (bs : List Byte) : sentBytes (receiveActions bs) = [] := by
  induction bs with
  | nil => rfl
  | cons b bs ih => simp [sentBytes, ih]

@[simp] theorem sentBytes_readActions (a : Addr) (bs : List Byte) :
    sentBytes (readActions a bs) = [] := by
  induction bs generalizing a with
  | nil => rfl
  | cons b bs ih => simp [readActions, sentBytes, ih]

@[simp] theorem sentBytes_writeActions (a : Addr) (bs : List Byte) :
    sentBytes (writeActions a bs) = [] := by
  induction bs generalizing a with
  | nil => rfl
  | cons b bs ih => simp [writeActions, sentBytes, ih]

@[simp] theorem sentBytes_readAndSendActions (a : Addr) (bs : List Byte) :
    sentBytes (readAndSendActions a bs) = bs := by
  induction bs generalizing a with
  | nil => rfl
  | cons b bs ih => simp [readAndSendActions, sentBytes, ih]

@[simp] theorem sentBytes_receiveAndStoreActions (a : Addr) (bs : List Byte) :
    sentBytes (receiveAndStoreActions a bs) = [] := by
  induction bs generalizing a with
  | nil => rfl
  | cons b bs ih => simp [receiveAndStoreActions, sentBytes, ih]

/-! ## The effect of an operation -/

/-- From `s` to `t` the block has performed the port actions `l`. With `quiet` none of them reaches
the memory and memory is as it was. -/
structure Effect (quiet : Bool) (s t : State) (l : List PortAction) : Prop where
  log : t.log = s.log ++ l
  rx : s.rx = receivedBytes l ++ t.rx
  params : t.params = s.params
  devices : t.devices = s.devices
  noRead : t.noRead = s.noRead
  noWrite : t.noWrite = s.noWrite
  flushReady : t.flushReady = s.flushReady
  cycle : t.cycle = s.cycle
  wf : s.mem.wf = true → t.mem.wf = true
  silent : quiet = true → (∀ p ∈ l, p.touchesMemory = false) ∧ t.mem = s.mem

/-- There are port actions that lead from `s` to `t`. -/
def Reaches (quiet : Bool) (s t : State) : Prop := ∃ l, Effect quiet s t l

theorem Reaches.refl (q : Bool) (s : State) : Reaches q s s :=
  ⟨[], by simp, by simp [receivedBytes], rfl, rfl, rfl, rfl, rfl, rfl, id, by simp⟩

theorem Reaches.trans {q : Bool} {s t u : State} (h1 : Reaches q s t) (h2 : Reaches q t u) :
    Reaches q s u := by
  obtain ⟨l1, h1⟩ := h1
  obtain ⟨l2, h2⟩ := h2
  refine ⟨l1 ++ l2, ?_, ?_, h2.params.trans h1.params,
    h2.devices.trans h1.devices, h2.noRead.trans h1.noRead,
    h2.noWrite.trans h1.noWrite, h2.flushReady.trans h1.flushReady, h2.cycle.trans h1.cycle,
    fun h => h2.wf (h1.wf h), ?_⟩
  · rw [h2.log, h1.log, List.append_assoc]
  · rw [h1.rx, h2.rx, receivedBytes_append, List.append_assoc]
  · intro hq
    obtain ⟨a1, b1⟩ := h1.silent hq
    obtain ⟨a2, b2⟩ := h2.silent hq
    refine ⟨fun p hp => ?_, b2.trans b1⟩
    rcases List.mem_append.mp hp with hp | hp
    · exact a1 p hp
    · exact a2 p hp

/-- Writing registers only: nothing the effect speaks of changes. -/
theorem Reaches.registers {q : Bool} {s t u : State} (h : Reaches q s t) (h1 : u.log = t.log)
    (h2 : u.rx = t.rx) (h3 : u.params = t.params) (h9 : u.devices = t.devices) (h4 : u.noRead = t.noRead)
    (h5 : u.noWrite = t.noWrite) (h6 : u.flushReady = t.flushReady) (h7 : u.cycle = t.cycle)
    (h8 : u.mem = t.mem) : Reaches q s u := by
  obtain ⟨l, h⟩ := h
  exact ⟨l, h1.trans h.log, h2 ▸ h.rx, h3.trans h.params, h9.trans h.devices, h4.trans h.noRead,
    h5.trans h.noWrite, h6.trans h.flushReady, h7.trans h.cycle, fun hm => h8 ▸ h.wf hm,
    fun hq => ⟨(h.silent hq).1, h8.trans (h.silent hq).2⟩⟩

/-- The block goes on from less room, or more: the effect does not speak of it. -/
theorem Reaches.quiet_weaken {s t : State} (h : Reaches true s t) (q : Bool) : Reaches q s t := by
  obtain ⟨l, h⟩ := h
  exact ⟨l, { h with silent := fun _ => h.silent rfl }⟩

/-! ## Ports -/

theorem recvU8_reaches {s t : State} {b : Byte} (h : recvU8 s = some (b, t)) :
    Reaches true s t := by
  cases hr : s.rx with
  | nil => simp [recvU8_of_nil hr] at h
  | cons c rest =>
    rw [recvU8_of_cons hr] at h
    obtain ⟨rfl, rfl⟩ : c = b ∧ _ = t := by simpa using h
    exact ⟨[.rxByte c], rfl, by simp [receivedBytes, hr], rfl, rfl, rfl, rfl, rfl, rfl, id,
      by simp [PortAction.touchesMemory]⟩

theorem txByte_reaches {s t : State} {b : Byte} (h : txByte b s = some t) : Reaches true s t := by
  unfold txByte at h
  split at h
  · obtain rfl : _ = t := by simpa using h
    exact ⟨[.txByte b], rfl, by simp [receivedBytes], rfl, rfl, rfl, rfl, rfl, rfl, id,
      by simp [PortAction.touchesMemory]⟩
  · cases h
  · obtain rfl : _ = t := by simpa using h
    exact ⟨[.txByte b], rfl, by simp [receivedBytes], rfl, rfl, rfl, rfl, rfl, rfl, id,
      by simp [PortAction.touchesMemory]⟩

theorem sendU8_reaches {s t : State} {b : Byte} (h : sendU8 b s = some t) : Reaches true s t := by
  unfold sendU8 at h
  split at h
  · cases h
  · next u hu =>
    obtain rfl : _ = t := by simpa using h
    exact (txByte_reaches hu).registers rfl rfl rfl rfl rfl rfl rfl rfl rfl

theorem memRead_reaches {a : Addr} {s t : State} {b : Byte} (h : memRead a s = some (b, t)) :
    Reaches false s t := by
  unfold memRead at h
  split at h
  · cases h
  · obtain ⟨-, rfl⟩ : _ ∧ _ = t := by simpa using h
    exact ⟨_, rfl, by simp [receivedBytes], rfl, rfl, rfl, rfl, rfl, rfl, id, by simp⟩

theorem memWrite_reaches {a : Addr} {b : Byte} {s t : State} (h : memWrite a b s = some t) :
    Reaches false s t := by
  unfold memWrite at h
  split at h
  · cases h
  · obtain rfl : _ = t := by simpa using h
    exact ⟨_, rfl, by simp [receivedBytes], rfl, rfl, rfl, rfl, rfl, rfl,
      fun hm => Memory.wf_write hm a b, by simp⟩

theorem callOut_reaches {fn : Word} {args : List Word} {s t : State} (h : callOut fn args s = some t) :
    Reaches false s t := by
  unfold callOut at h
  split at h
  · cases h
  · next o rest ho =>
    obtain rfl : _ = t := by simpa using h
    exact ⟨_, rfl, by simp [receivedBytes], rfl, rfl, rfl, rfl, rfl, rfl,
      fun hm => Memory.wf_writeAll hm o.stores, by simp⟩

/-! ## Loops and operations -/

/-- The state an operation has come to, over or stopped. -/
def Progress.state : Progress → State
  | .done s => s
  | .waits s _ => s

@[simp] theorem Progress.state_done (s : State) : (Progress.done s).state = s := rfl

@[simp] theorem Progress.state_waits (s : State) (o : Op) : (Progress.waits s o).state = s := rfl

theorem setDest_reaches {q : Bool} {s t : State} (h : Reaches q s t) (v : BitVec 64) (d : Dest) :
    Reaches q s (t.setDest v d) := by
  cases d <;> exact h.registers rfl rfl rfl rfl rfl rfl rfl rfl rfl

theorem bumpCnt_reaches {q : Bool} {s t : State} (h : Reaches q s t) : Reaches q s t.bumpCnt :=
  h.registers rfl rfl rfl rfl rfl rfl rfl rfl rfl

theorem recvInt_reaches (d : Dest) (n : Nat) (got : List Byte) (s : State) :
    Reaches true s (recvInt d n got s).state := by
  induction n generalizing got s with
  | zero => exact setDest_reaches (.refl _ s) _ d
  | succ n ih =>
    unfold recvInt
    split
    · exact .refl _ s
    · next b t h => exact (recvU8_reaches h).trans (ih _ t)

theorem sendBytes_reaches (bs : List Byte) (s : State) :
    Reaches true s (sendBytes bs s).state := by
  induction bs generalizing s with
  | nil => exact .refl _ s
  | cons b bs ih =>
    unfold sendBytes
    split
    · exact .refl _ s
    · next t h => exact (sendU8_reaches h).trans (ih t)

theorem recvData_reaches (a : Addr) (l : BitVec 32) (n : Nat) (s : State) :
    Reaches false s (recvData a l n s).state := by
  induction n generalizing s with
  | zero => exact .refl _ s
  | succ n ih =>
    unfold recvData
    split
    · exact .refl _ s
    · next b t h =>
      have h1 := (recvU8_reaches h).quiet_weaken false
      split
      · exact h1
      · next u hu => exact h1.trans ((bumpCnt_reaches (memWrite_reaches hu)).trans (ih _))

theorem recvDataFrom_reaches (a : Addr) (l : BitVec 32) (held : Option Byte) (s : State) :
    Reaches false s (recvDataFrom a l held s).state := by
  unfold recvDataFrom
  split
  · exact recvData_reaches a l _ s
  · split
    · exact .refl _ s
    · next u hu => exact (bumpCnt_reaches (memWrite_reaches hu)).trans (recvData_reaches a l _ _)

theorem sendData_reaches (a : Addr) (l : BitVec 32) (n : Nat) (s : State) :
    Reaches false s (sendData a l n s).state := by
  induction n generalizing s with
  | zero => exact .refl _ s
  | succ n ih =>
    unfold sendData
    split
    · exact .refl _ s
    · next b t h =>
      split
      · exact memRead_reaches h
      · next u hu =>
        exact (memRead_reaches h).trans
          ((bumpCnt_reaches ((sendU8_reaches hu).quiet_weaken false)).trans (ih _))

theorem sendDataFrom_reaches (a : Addr) (l : BitVec 32) (held : Option Byte) (s : State) :
    Reaches false s (sendDataFrom a l held s).state := by
  unfold sendDataFrom
  split
  · exact sendData_reaches a l _ s
  · split
    · exact .refl _ s
    · next u hu =>
      exact (bumpCnt_reaches ((sendU8_reaches hu).quiet_weaken false)).trans
        (sendData_reaches a l _ _)

theorem recvIgnore_reaches (l : BitVec 32) (n : Nat) (s : State) :
    Reaches true s (recvIgnore l n s).state := by
  induction n generalizing s with
  | zero => exact .refl _ s
  | succ n ih =>
    unfold recvIgnore
    split
    · exact .refl _ s
    · next b t h => exact (bumpCnt_reaches (recvU8_reaches h)).trans (ih _)

theorem validateCrc_reaches (s : State) : Reaches true s (validateCrc s).state := by
  cases hr : s.rx with
  | nil => simpa [validateCrc, rxByte_of_nil hr] using Reaches.refl true s
  | cons c rest =>
    rw [validateCrc_complete c rest s hr]
    exact ⟨[.rxByte c], rfl, by simp [receivedBytes, hr], rfl, rfl, rfl, rfl, rfl, rfl, id,
      by simp [PortAction.touchesMemory]⟩

theorem sendCrc_reaches (s : State) : Reaches true s (sendCrc s).state := by
  unfold sendCrc
  split
  · exact .refl _ s
  · next t h => exact txByte_reaches h

theorem flushTx_reaches {s t : State} (h : flushTx s = some t) : Reaches true s t := by
  unfold flushTx at h
  split at h
  · obtain rfl : _ = t := by simpa using h
    exact ⟨[.txFlush], rfl, by simp [receivedBytes], rfl, rfl, rfl, rfl, rfl, rfl, id,
      by simp [PortAction.touchesMemory]⟩
  · cases h

theorem readContext_reaches (n : Nat) (got : List Byte) (s : State) :
    Reaches false s (readContext n got s).state := by
  induction n generalizing got s with
  | zero => exact (Reaches.refl false s).registers rfl rfl rfl rfl rfl rfl rfl rfl rfl
  | succ n ih =>
    unfold readContext
    split
    · exact .refl _ s
    · next b t h => exact (memRead_reaches h).trans (ih _ t)

theorem callContext_reaches (s : State) : Reaches false s (callContext s).state := by
  unfold callContext
  split
  · exact .refl _ s
  · next t h => exact callOut_reaches h

theorem writeBytes_reaches (a : Addr) (bs : List Byte) (s : State) :
    Reaches false s (writeBytes a bs s).state := by
  induction bs generalizing a s with
  | nil => exact .refl _ s
  | cons b bs ih =>
    unfold writeBytes
    split
    · exact .refl _ s
    · next t h => exact (memWrite_reaches h).trans (ih _ t)

theorem readSlot_reaches (n : Nat) (got : List Byte) (s : State) :
    Reaches false s (readSlot n got s).state := by
  induction n generalizing got s with
  | zero => exact (Reaches.refl false s).registers rfl rfl rfl rfl rfl rfl rfl rfl rfl
  | succ n ih =>
    unfold readSlot
    split
    · exact .refl _ s
    · next b t h => exact (memRead_reaches h).trans (ih _ t)

/-- The operations that use no memory port (20_memory.md R51). -/
def Op.isQuiet : Op → Bool
  | .setPhase _ => true
  | .rxStart => true
  | .txStart => true
  | .rxInt _ _ _ => true
  | .txInt _ _ => true
  | .txBytes _ => true
  | .checkPolicy => true
  | .rxData _ _ => false
  | .rxDataFrom _ _ _ => false
  | .txData _ _ => false
  | .txDataFrom _ _ _ => false
  | .rxIgnoreData _ => true
  | .rxIgnoreFrom _ => true
  | .rxValidateCrc => true
  | .txCrc => true
  | .txFlush => true
  | .loadContext _ _ => false
  | .execCall => false
  | .storeSlot => false
  | .storeBytes _ _ => false
  | .loadSlot _ _ => false

/-- What one operation can do, over or stopped. -/
theorem Op.run_reaches (o : Op) (s : State) : Reaches o.isQuiet s (o.run s).state := by
  have r : ∀ {q : Bool} {t u : State}, Reaches q t u → t.log = s.log → t.rx = s.rx →
      t.params = s.params → t.devices = s.devices → t.noRead = s.noRead → t.noWrite = s.noWrite →
      t.flushReady = s.flushReady → t.cycle = s.cycle → t.mem = s.mem → Reaches q s u :=
    fun h h1 h2 h3 h9 h4 h5 h6 h7 h8 =>
      ((Reaches.refl _ s).registers h1 h2 h3 h9 h4 h5 h6 h7 h8).trans h
  cases o with
  | setPhase p => exact (Reaches.refl _ s).registers rfl rfl rfl rfl rfl rfl rfl rfl rfl
  | rxStart => exact (Reaches.refl _ s).registers rfl rfl rfl rfl rfl rfl rfl rfl rfl
  | txStart => exact (Reaches.refl _ s).registers rfl rfl rfl rfl rfl rfl rfl rfl rfl
  | rxInt d n got => exact recvInt_reaches d n got s
  | txInt n v => exact sendBytes_reaches _ s
  | txBytes bs => exact sendBytes_reaches bs s
  | checkPolicy => exact (Reaches.refl _ s).registers rfl rfl rfl rfl rfl rfl rfl rfl rfl
  | rxData a l => exact r (recvDataFrom_reaches _ _ none _) rfl rfl rfl rfl rfl rfl rfl rfl rfl
  | rxDataFrom a l held => exact recvDataFrom_reaches a l held s
  | txData a l => exact r (sendDataFrom_reaches _ _ none _) rfl rfl rfl rfl rfl rfl rfl rfl rfl
  | txDataFrom a l held => exact sendDataFrom_reaches a l held s
  | rxIgnoreData l => exact r (recvIgnore_reaches _ _ _) rfl rfl rfl rfl rfl rfl rfl rfl rfl
  | rxIgnoreFrom l => exact recvIgnore_reaches l _ s
  | rxValidateCrc => exact validateCrc_reaches s
  | txCrc => exact sendCrc_reaches s
  | txFlush =>
    simp only [Op.run]
    split
    · exact .refl _ s
    · next t h => exact flushTx_reaches h
  | loadContext n got => exact readContext_reaches n got s
  | execCall => exact callContext_reaches s
  | storeSlot => exact writeBytes_reaches _ _ s
  | storeBytes a bs => exact writeBytes_reaches a bs s
  | loadSlot n got => exact readSlot_reaches n got s

/-- A piece of pseudocode all of whose operations are quiet. -/
def Prog.isQuiet : Prog → Bool
  | .done => true
  | .dispatch => true
  | .hardReset => true
  | .resetting => true
  | .op o next => o.isQuiet && next.isQuiet
  | .onCrcOk yes no => yes.isQuiet && no.isQuiet
  | .onPolicyOk yes no => yes.isQuiet && no.isQuiet

/-- What a piece of pseudocode can do, over or stopped. -/
theorem Prog.run_reaches (q : Bool) (p : Prog) (s : State) (h : q = true → p.isQuiet = true) :
    Reaches q s (p.run s) := by
  have w : ∀ {o : Op} {t : State}, (q = true → o.isQuiet = true) →
      Reaches o.isQuiet s t → Reaches q s t := by
    rintro o t hq ⟨l, hl⟩
    exact ⟨l, { hl with silent := fun e => hl.silent (hq e) }⟩
  induction p generalizing s with
  | done => exact (Reaches.refl _ s).registers rfl rfl rfl rfl rfl rfl rfl rfl rfl
  | dispatch => exact (Reaches.refl _ s).registers rfl rfl rfl rfl rfl rfl rfl rfl rfl
  | hardReset =>
    exact ⟨[.hardReset], rfl, by simp [receivedBytes], rfl, rfl, rfl, rfl, rfl, rfl, id,
      by simp [PortAction.touchesMemory]⟩
  | resetting => exact (Reaches.refl _ s).registers rfl rfl rfl rfl rfl rfl rfl rfl rfl
  | op o next ih =>
    have h1 : q = true → o.isQuiet = true := fun e => (Bool.and_eq_true _ _ ▸ h e).1
    have h2 : q = true → next.isQuiet = true := fun e => (Bool.and_eq_true _ _ ▸ h e).2
    have h3 := w h1 (o.run_reaches s)
    simp only [Prog.run]
    cases ho : o.run s with
    | done t =>
      rw [ho] at h3
      refine h3.trans (ih t h2 ?_)
      rintro o' t' hq ⟨l, hl⟩
      exact ⟨l, { hl with silent := fun e => hl.silent (hq e) }⟩
    | waits t rest =>
      rw [ho] at h3
      exact h3.registers rfl rfl rfl rfl rfl rfl rfl rfl rfl
  | onCrcOk yes no ih1 ih2 =>
    rw [run_onCrcOk]
    split
    · exact ih1 s (fun e => (Bool.and_eq_true _ _ ▸ h e).1) w
    · exact ih2 s (fun e => (Bool.and_eq_true _ _ ▸ h e).2) w
  | onPolicyOk yes no ih1 ih2 =>
    rw [run_onPolicyOk]
    split
    · exact ih1 s (fun e => (Bool.and_eq_true _ _ ▸ h e).1) w
    · exact ih2 s (fun e => (Bool.and_eq_true _ _ ▸ h e).2) w

end Sys2Proof.Machine
end

