-- ==== Sys2Proof/Laws/PerInstr.lean ====
section
/-! SUPPORT. Statements about every instruction as it is written, one lemma per constructor. -/

namespace Sys2Proof.Laws.FrameLength

open Sys2Proof.Machine

/-- The encoding of a well-formed request has the length of its frame (30_encoding.md R84, R90); an
instruction that does not arrive on the wire has no encoding (R94). -/
def Statement (i : Instr) : Prop :=
  ∀ (p : Params) (bs : List Byte), i.wf p = true → encode p i = some bs →
    bs.length = i.frameLength p

theorem frameBytes_length (code : BitVec 16) (fields : List Byte) (crc : Byte) :
    (frameBytes code fields crc).length = fields.length + 3 := by
  simp [frameBytes]; omega

theorem getVersion (crc : Byte) : Statement (.getVersion crc) := by
  intro p bs _ h
  obtain rfl := Option.some.inj h
  simp [frameBytes_length, Instr.frameLength]

theorem getBase (crc : Byte) : Statement (.getBase crc) := by
  intro p bs _ h
  obtain rfl := Option.some.inj h
  simp [frameBytes_length, Instr.frameLength]

theorem read (addr : Addr) (len : BitVec 32) (crc : Byte) : Statement (.read addr len crc) := by
  intro p bs _ h
  obtain rfl := Option.some.inj h
  simp [frameBytes_length, Instr.frameLength]

theorem write (addr : Addr) (len : BitVec 32) (data : List Byte) (crc : Byte) :
    Statement (.write addr len data crc) := by
  intro p bs hw h
  obtain rfl := Option.some.inj h
  have hl : data.length = len.toNat := by simpa [Instr.wf] using hw
  simp [frameBytes_length, Instr.frameLength, hl]; omega

theorem execute (addr : Addr) (crc : Byte) : Statement (.execute addr crc) := by
  intro p bs _ h
  obtain rfl := Option.some.inj h
  simp [frameBytes_length, Instr.frameLength]

theorem reset (crc : Byte) : Statement (.reset crc) := by
  intro p bs _ h
  obtain rfl := Option.some.inj h
  simp [frameBytes_length, Instr.frameLength]

theorem unrecognised (code : BitVec 16) (crc : Option Byte) :
    Statement (.unrecognised code crc) := by
  intro p bs hw h
  obtain rfl := Option.some.inj h
  cases crc <;> cases hu : p.unknownCmdCrc <;>
    simp [Instr.wf, hu] at hw <;> simp [Instr.frameLength, hu]

theorem rspVersion : Statement (.rspVersion) := by
  intro _ _ _ h; cases h

theorem rspBase : Statement (.rspBase) := by
  intro _ _ _ h; cases h

theorem rspData : Statement (.rspData) := by
  intro _ _ _ h; cases h

theorem rspWrote : Statement (.rspWrote) := by
  intro _ _ _ h; cases h

theorem rspResult : Statement (.rspResult) := by
  intro _ _ _ h; cases h

theorem rspResetting : Statement (.rspResetting) := by
  intro _ _ _ h; cases h

theorem errorInvalidCrc : Statement (.errorInvalidCrc) := by
  intro _ _ _ h; cases h

theorem errorInvalidCommand : Statement (.errorInvalidCommand) := by
  intro _ _ _ h; cases h

theorem errorInvalidArgument : Statement (.errorInvalidArgument) := by
  intro _ _ _ h; cases h

theorem crc8Step (acc b : Byte) : Statement (.crc8Step acc b) := by
  intro _ _ _ h; cases h

theorem rxStart : Statement (.rxStart) := by
  intro _ _ _ h; cases h

theorem txStart : Statement (.txStart) := by
  intro _ _ _ h; cases h

theorem rxU8 : Statement (.rxU8) := by
  intro _ _ _ h; cases h

theorem rxU16 : Statement (.rxU16) := by
  intro _ _ _ h; cases h

theorem rxU32 : Statement (.rxU32) := by
  intro _ _ _ h; cases h

theorem rxU64 : Statement (.rxU64) := by
  intro _ _ _ h; cases h

theorem txU8 (v : BitVec 8) : Statement (.txU8 v) := by
  intro _ _ _ h; cases h

theorem txU16 (v : BitVec 16) : Statement (.txU16 v) := by
  intro _ _ _ h; cases h

theorem txU32 (v : BitVec 32) : Statement (.txU32 v) := by
  intro _ _ _ h; cases h

theorem txU64 (v : BitVec 64) : Statement (.txU64 v) := by
  intro _ _ _ h; cases h

theorem rxData (addr : Addr) (len : BitVec 32) : Statement (.rxData addr len) := by
  intro _ _ _ h; cases h

theorem txData (addr : Addr) (len : BitVec 32) : Statement (.txData addr len) := by
  intro _ _ _ h; cases h

theorem rxIgnoreData (len : BitVec 32) : Statement (.rxIgnoreData len) := by
  intro _ _ _ h; cases h

theorem rxValidateCrc : Statement (.rxValidateCrc) := by
  intro _ _ _ h; cases h

theorem txCrc : Statement (.txCrc) := by
  intro _ _ _ h; cases h

end Sys2Proof.Laws.FrameLength
end

