-- ==== Sys2Proof/Laws/Resume.lean ====
section
/-! SUPPORT. The position is written at the end of a run and read by no operation (10_state.md R24),
and an operation writes `STATE` only where it is `STATE <- p`: whatever the ports answer. -/

namespace Sys2Proof.Machine

/-! ## The same operation from another position -/

/-- Replace the position. -/
def State.at (s : State) (x : Prog) : State := { s with pos := x }

@[simp] theorem State.at_at (s : State) (x y : Prog) : (s.at x).at y = s.at y := rfl

/-- The same, in the state an operation has come to. -/
def Progress.at (x : Prog) : Progress → Progress
  | .done s => .done (s.at x)
  | .waits s rest => .waits (s.at x) rest

theorem recvU8_at (s : State) (x : Prog) :
    recvU8 (s.at x) = (recvU8 s).map fun r => (r.1, r.2.at x) := by
  simp only [recvU8, rxByte]
  rw [show (s.at x).rx = s.rx from rfl]
  cases s.rx <;> rfl

theorem txByte_at (b : Byte) (s : State) (x : Prog) :
    txByte b (s.at x) = (txByte b s).map (·.at x) := by
  simp only [txByte]
  rw [show (s.at x).txRoom = s.txRoom from rfl]
  rcases s.txRoom with _ | _ | n <;> rfl

theorem sendU8_at (b : Byte) (s : State) (x : Prog) :
    sendU8 b (s.at x) = (sendU8 b s).map (·.at x) := by
  simp only [sendU8, txByte_at]
  cases txByte b s <;> rfl

theorem memRead_at (a : Addr) (s : State) (x : Prog) :
    memRead a (s.at x) = (memRead a s).map fun r => (r.1, r.2.at x) := by
  simp only [memRead]
  rw [show (s.at x).noRead = s.noRead from rfl]
  cases inRanges s.noRead a <;> rfl

theorem memWrite_at (a : Addr) (b : Byte) (s : State) (x : Prog) :
    memWrite a b (s.at x) = (memWrite a b s).map (·.at x) := by
  simp only [memWrite]
  rw [show (s.at x).noWrite = s.noWrite from rfl]
  cases inRanges s.noWrite a <;> rfl

theorem recvInt_at (d : Dest) (n : Nat) (got : List Byte) (s : State) (x : Prog) :
    recvInt d n got (s.at x) = (recvInt d n got s).at x := by
  induction n generalizing got s with
  | zero => cases d <;> rfl
  | succ n ih =>
    unfold recvInt
    rw [recvU8_at]
    cases recvU8 s with
    | none => rfl
    | some r => exact ih _ r.2

theorem sendBytes_at (bs : List Byte) (s : State) (x : Prog) :
    sendBytes bs (s.at x) = (sendBytes bs s).at x := by
  induction bs generalizing s with
  | nil => rfl
  | cons b bs ih =>
    unfold sendBytes
    rw [sendU8_at]
    cases sendU8 b s with
    | none => rfl
    | some t => exact ih t

theorem recvData_at (a : Addr) (l : BitVec 32) (n : Nat) (s : State) (x : Prog) :
    recvData a l n (s.at x) = (recvData a l n s).at x := by
  induction n generalizing s with
  | zero => rfl
  | succ n ih =>
    unfold recvData
    rw [recvU8_at]
    rcases recvU8 s with _ | ⟨b, t⟩
    · rfl
    · simp only [Option.map_some]
      rw [show (t.at x).dataAddr a = t.dataAddr a from rfl, memWrite_at]
      cases memWrite (t.dataAddr a) b t with
      | none => rfl
      | some u => exact ih u.bumpCnt

theorem recvDataFrom_at (a : Addr) (l : BitVec 32) (held : Option Byte) (s : State) (x : Prog) :
    recvDataFrom a l held (s.at x) = (recvDataFrom a l held s).at x := by
  cases held with
  | none => exact recvData_at a l _ s x
  | some b =>
    simp only [recvDataFrom]
    rw [show (s.at x).dataAddr a = s.dataAddr a from rfl, memWrite_at]
    cases memWrite (s.dataAddr a) b s with
    | none => rfl
    | some u => exact recvData_at a l _ u.bumpCnt x

theorem sendData_at (a : Addr) (l : BitVec 32) (n : Nat) (s : State) (x : Prog) :
    sendData a l n (s.at x) = (sendData a l n s).at x := by
  induction n generalizing s with
  | zero => rfl
  | succ n ih =>
    unfold sendData
    rw [show (s.at x).dataAddr a = s.dataAddr a from rfl, memRead_at]
    rcases memRead (s.dataAddr a) s with _ | ⟨b, t⟩
    · rfl
    · simp only [Option.map_some]
      rw [sendU8_at]
      cases sendU8 b t with
      | none => rfl
      | some u => exact ih u.bumpCnt

theorem sendDataFrom_at (a : Addr) (l : BitVec 32) (held : Option Byte) (s : State) (x : Prog) :
    sendDataFrom a l held (s.at x) = (sendDataFrom a l held s).at x := by
  cases held with
  | none => exact sendData_at a l _ s x
  | some b =>
    simp only [sendDataFrom]
    rw [sendU8_at]
    cases sendU8 b s with
    | none => rfl
    | some u => exact sendData_at a l _ u.bumpCnt x

theorem recvIgnore_at (l : BitVec 32) (n : Nat) (s : State) (x : Prog) :
    recvIgnore l n (s.at x) = (recvIgnore l n s).at x := by
  induction n generalizing s with
  | zero => rfl
  | succ n ih =>
    unfold recvIgnore
    rw [recvU8_at]
    rcases recvU8 s with _ | ⟨b, t⟩
    · rfl
    · exact ih t.bumpCnt

theorem readContext_at (n : Nat) (got : List Byte) (s : State) (x : Prog) :
    readContext n got (s.at x) = (readContext n got s).at x := by
  induction n generalizing got s with
  | zero => rfl
  | succ n ih =>
    unfold readContext
    rw [show (s.at x).addr = s.addr from rfl, memRead_at]
    rcases memRead (s.addr + BitVec.ofNat 64 got.length) s with _ | ⟨b, t⟩
    · rfl
    · exact ih _ t

theorem writeBytes_at (a : Addr) (bs : List Byte) (s : State) (x : Prog) :
    writeBytes a bs (s.at x) = (writeBytes a bs s).at x := by
  induction bs generalizing a s with
  | nil => rfl
  | cons b bs ih =>
    unfold writeBytes
    rw [memWrite_at]
    cases memWrite a b s with
    | none => rfl
    | some t => exact ih _ t

theorem readSlot_at (n : Nat) (got : List Byte) (s : State) (x : Prog) :
    readSlot n got (s.at x) = (readSlot n got s).at x := by
  induction n generalizing got s with
  | zero => rfl
  | succ n ih =>
    unfold readSlot
    rw [show (s.at x).slotAddr = s.slotAddr from rfl, memRead_at]
    rcases memRead (s.slotAddr + BitVec.ofNat 64 got.length) s with _ | ⟨b, t⟩
    · rfl
    · exact ih _ t

theorem eval_at (v : Src) (s : State) (x : Prog) : v.eval (s.at x) = v.eval s := by
  cases v <;> rfl

/-- No operation reads the position or writes it. -/
theorem Op.run_at (o : Op) (s : State) (x : Prog) : o.run (s.at x) = (o.run s).at x := by
  cases o with
  | setPhase p => rfl
  | rxStart => rfl
  | txStart => rfl
  | rxInt d n got => exact recvInt_at d n got s x
  | txInt n v => simp only [Op.run, eval_at]; exact sendBytes_at _ s x
  | txBytes bs => exact sendBytes_at bs s x
  | checkPolicy => rfl
  | rxData a l =>
    simp only [Op.run, eval_at]
    exact recvDataFrom_at _ _ none { s with cnt := 0 } x
  | rxDataFrom a l held => exact recvDataFrom_at a l held s x
  | txData a l =>
    simp only [Op.run, eval_at]
    exact sendDataFrom_at _ _ none { s with cnt := 0 } x
  | txDataFrom a l held => exact sendDataFrom_at a l held s x
  | rxIgnoreData l =>
    simp only [Op.run, eval_at]
    exact recvIgnore_at _ _ { s with cnt := 0 } x
  | rxIgnoreFrom l => exact recvIgnore_at l _ s x
  | rxValidateCrc =>
    simp only [Op.run, validateCrc, rxByte]
    rw [show (s.at x).rx = s.rx from rfl]
    cases s.rx <;> rfl
  | txCrc =>
    simp only [Op.run, sendCrc]
    rw [show (s.at x).txcrc = s.txcrc from rfl, txByte_at]
    cases txByte s.txcrc s <;> rfl
  | txFlush =>
    simp only [Op.run, flushTx]
    rw [show (s.at x).flushReady = s.flushReady from rfl]
    cases s.flushReady <;> rfl
  | loadContext n got => exact readContext_at n got s x
  | execCall =>
    simp only [Op.run, callContext, callOut]
    rw [show (s.at x).calls = s.calls from rfl, show (s.at x).ctx = s.ctx from rfl]
    cases s.calls <;> rfl
  | storeSlot => exact writeBytes_at _ _ s x
  | storeBytes a bs => exact writeBytes_at a bs s x
  | loadSlot n got => exact readSlot_at n got s x

/-- A run does not depend on the position it is started with: only on the pseudocode it is given. -/
theorem Prog.run_at (p : Prog) (s : State) (x : Prog) : p.run (s.at x) = p.run s := by
  induction p generalizing s with
  | done => rfl
  | dispatch => rfl
  | hardReset => rfl
  | resetting => rfl
  | op o next ih =>
    simp only [Prog.run, Op.run_at]
    cases o.run s with
    | done t => exact ih t
    | waits t rest => rfl
  | onCrcOk yes no ih1 ih2 =>
    rw [run_onCrcOk, run_onCrcOk, ih1, ih2]; rfl
  | onPolicyOk yes no ih1 ih2 =>
    rw [run_onPolicyOk, run_onPolicyOk, ih1, ih2]; rfl

end Sys2Proof.Machine
end

