-- ==== Sys2Proof/Laws/Stuck.lean ====
section
/-! SUPPORT. The loops over memory at the first access that the platform never completes
(20_memory.md R61): everything before it has been done, and the loop waits at it. -/

namespace Sys2Proof.Machine

theorem memRead_of_unreadable {s : State} {a : Addr} (h : inRanges s.noRead a = true) :
    memRead a s = none := by
  simp [memRead, h]

theorem memWrite_of_unwritable {s : State} {a : Addr} (b : Byte) (h : inRanges s.noWrite a = true) :
    memWrite a b s = none := by
  simp [memWrite, h]

/-! ## A loop goes on from where its first iterations have come -/

theorem recvData_add (addr : Addr) (len : BitVec 32) {n : Nat} (m : Nat) {s t : State}
    (h : recvData addr len n s = .done t) : recvData addr len (n + m) s = recvData addr len m t := by
  induction n generalizing s with
  | zero =>
    obtain rfl : s = t := by simpa [recvData] using h
    rw [Nat.zero_add]
  | succ n ih =>
    rw [Nat.succ_add]
    simp only [recvData] at h ⊢
    cases h1 : recvU8 s with
    | none => simp [h1] at h
    | some r =>
      simp only [h1] at h ⊢
      cases h2 : memWrite (r.2.dataAddr addr) r.1 r.2 with
      | none => simp [h2] at h
      | some u => simp only [h2] at h ⊢; exact ih h

theorem sendData_add (addr : Addr) (len : BitVec 32) {n : Nat} (m : Nat) {s t : State}
    (h : sendData addr len n s = .done t) : sendData addr len (n + m) s = sendData addr len m t := by
  induction n generalizing s with
  | zero =>
    obtain rfl : s = t := by simpa [sendData] using h
    rw [Nat.zero_add]
  | succ n ih =>
    rw [Nat.succ_add]
    simp only [sendData] at h ⊢
    cases h1 : memRead (s.dataAddr addr) s with
    | none => simp [h1] at h
    | some r =>
      simp only [h1] at h ⊢
      cases h2 : sendU8 r.1 r.2 with
      | none => simp [h2] at h
      | some u => simp only [h2] at h ⊢; exact ih h

/-- The data address after `n` more bytes, below 2^32. -/
theorem dataAddr_add (a : Addr) (c : BitVec 32) (n : Nat) (h : c.toNat + n < 2 ^ 32) :
    a + (c + BitVec.ofNat 32 n).setWidth 64 = a + c.setWidth 64 + BitVec.ofNat 64 n := by
  rw [BitVec.add_assoc]
  congr 1
  apply BitVec.eq_of_toNat_eq
  simp only [BitVec.toNat_setWidth, BitVec.toNat_add, BitVec.toNat_ofNat]
  omega

/-! ## The loops at the access that never completes -/

/-- `rx_data` (R150): the byte whose store does not complete has been received and is held. -/
theorem recvData_stuck (addr : Addr) (len : BitVec 32) (data : List Byte) (b : Byte)
    (rest : List Byte) (m : Nat) (s : State) (hr : s.rx = data ++ b :: rest)
    (hw : s.writable (s.dataAddr addr) data.length)
    (hs : inRanges s.noWrite (s.dataAddr addr + BitVec.ofNat 64 data.length) = true)
    (hc : s.cnt.toNat + data.length < 2 ^ 32) :
    recvData addr len (data.length + (m + 1)) s =
      .waits { s with rx := rest, rxcrc := crcFold s.rxcrc (data ++ [b]),
                      mem := s.mem.storeBytesAt (s.dataAddr addr) data,
                      cnt := s.cnt + BitVec.ofNat 32 data.length,
                      log := s.log ++ receiveAndStoreActions (s.dataAddr addr) data ++
                               [.rxByte b] } (.rxDataFrom addr len (some b)) := by
  rw [recvData_add addr len (m + 1) (recvData_complete addr len data (b :: rest) s hr hw hc)]
  simp only [recvData]
  rw [recvU8_of_cons (b := b) (rest := rest) rfl]
  dsimp only
  rw [memWrite_of_unwritable b (by
    simp only [State.dataAddr] at hs ⊢; rw [dataAddr_add addr s.cnt _ hc]; exact hs)]
  simp [crcFold_append]

/-- `tx_data` (R151): the bytes before the one that is never read have been sent, and no value for
that one. -/
theorem sendData_stuck (addr : Addr) (len : BitVec 32) (n m : Nat) (s : State)
    (ha : s.accepts n) (hr : s.readable (s.dataAddr addr) n)
    (hs : inRanges s.noRead (s.dataAddr addr + BitVec.ofNat 64 n) = true)
    (hc : s.cnt.toNat + n < 2 ^ 32) :
    sendData addr len (n + (m + 1)) s =
      .waits { s with txRoom := s.roomAfter n, reads := s.reads + n,
                      txcrc := crcFold s.txcrc (s.bytesAt (s.dataAddr addr) n),
                      cnt := s.cnt + BitVec.ofNat 32 n,
                      log := s.log ++ readAndSendActions (s.dataAddr addr)
                               (s.bytesAt (s.dataAddr addr) n) }
        (.txDataFrom addr len none) := by
  rw [sendData_add addr len (m + 1) (sendData_complete addr len n s ha hr hc)]
  simp only [sendData]
  rw [memRead_of_unreadable (by
    simp only [State.dataAddr] at hs ⊢; rw [dataAddr_add addr s.cnt _ hc]; exact hs)]

/-- The context (R187): the bytes before the one that is never read are held. -/
theorem readContext_stuck (n m : Nat) (got : List Byte) (s : State)
    (h : s.readable (s.addr + BitVec.ofNat 64 got.length) n)
    (hs : inRanges s.noRead (s.addr + BitVec.ofNat 64 got.length + BitVec.ofNat 64 n) = true) :
    readContext (n + (m + 1)) got s =
      .waits { s with reads := s.reads + n, log := s.log ++ readActions (s.addr + BitVec.ofNat 64 got.length)
                       (s.bytesAt (s.addr + BitVec.ofNat 64 got.length) n) }
        (.loadContext (m + 1)
          (got ++ s.bytesAt (s.addr + BitVec.ofNat 64 got.length) n)) := by
  induction n generalizing got s with
  | zero =>
    rw [Nat.zero_add]
    simp only [readContext]
    rw [memRead_of_unreadable (by simpa using hs)]
    simp [State.bytesAt_zero, readActions]
  | succ n ih =>
    have e : s.addr + BitVec.ofNat 64 (got.length + 1) =
        s.addr + BitVec.ofNat 64 got.length + 1 := by
      rw [BitVec.ofNat_add, BitVec.add_assoc]; rfl
    rw [show n + 1 + (m + 1) = n + (m + 1) + 1 by omega]
    rw [readContext, memRead_of_readable (State.readable_zero h)]
    dsimp only
    rw [ih]
    · simp [State.bytesAt_succ, readActions, e]
      exact ⟨⟨rfl, by omega⟩, rfl⟩
    · simpa [e] using State.readable_succ h
    · rw [List.length_append, List.length_singleton, e, addr_add_succ]
      exact hs

/-- Stores at ascending addresses (R56): the bytes before the one that is never stored are there. -/
theorem writeBytes_stuck (a : Addr) (bs : List Byte) (b : Byte) (rest : List Byte) (s : State)
    (h : s.writable a bs.length)
    (hs : inRanges s.noWrite (a + BitVec.ofNat 64 bs.length) = true) :
    writeBytes a (bs ++ b :: rest) s =
      .waits { s with mem := s.mem.storeBytesAt a bs, log := s.log ++ writeActions a bs }
        (.storeBytes (a + BitVec.ofNat 64 bs.length) (b :: rest)) := by
  induction bs generalizing a s with
  | nil =>
    simp only [List.length_nil, List.nil_append] at hs ⊢
    simp only [writeBytes]
    rw [memWrite_of_unwritable b (by simpa using hs)]
    simp [writeActions, Memory.storeBytesAt]
  | cons c bs ih =>
    simp only [List.cons_append, writeBytes, memWrite_of_writable c (State.writable_zero h)]
    rw [ih (a + 1) _ (by exact State.writable_succ h)
      (by rw [addr_add_succ]; simpa using hs)]
    rw [addr_add_succ]
    simp [writeActions, Memory.storeBytesAt]

end Sys2Proof.Machine
end

