-- ==== Sys2Proof/Tests/Slice0.lean ====
section
/-! SUPPORT. Tests: ill-formed terms that WellFormed refuses, words written out from the encodings of
30_encoding.md, one step each on vectors of 95_test_vectors.md (named V…, or P… for a frame of a
program), and for each obligation with hypotheses a state and operands that meet them. -/

namespace Sys2Proof.Tests

-- The tests are elaborated one after the other: a thread for each test that waits for the kernel
-- would take more address space than the check allows.
set_option Elab.async false

open Sys2Proof Sys2Proof.Machine

/-! ## Helpers -/

/-- The arguments of the vectors: the defaults, guard 0x80000, version 0x0100. -/
def args : Params :=
  { Params.initial with guardAddress := 0x80000, protocolVersion := 0x0100 }

/-- Power-on with those arguments; no call returns and there is no device memory. -/
def demo : State := { State.reset with params := args, calls := [], devices := [] }

/-- The state an outcome leads to; a fault or a refusal leaves the start state. -/
def landed (s : State) : Host.Outcome State Fault Refusal → State
  | .next t => t
  | .fault _ => s
  | .refused _ => s

/-- One step with bytes in the receive stream. -/
def serve (s : State) (bs : List Byte) : State := landed s (step { s with rx := bs })

/-- One instruction. -/
def perform (s : State) (i : Instr) : State := landed s (exec i s)

/-- What a step on these bytes transmits, what it leaves in the stream and in which position. -/
def reply (s : State) (bs : List Byte) : List Byte × List Byte × Prog :=
  ((serve s bs).transmitted, (serve s bs).rx, (serve s bs).pos)

/-- Memory with bytes stored at ascending addresses. -/
def stored (a : Addr) (bs : List Byte) : Memory := Memory.storeBytesAt [] a bs

/-- DE AD BE EF at 0x100000. -/
def beef : State := { demo with mem := stored 0x100000 [0xDE, 0xAD, 0xBE, 0xEF] }

/-! ## WellFormed refuses each ill-formed term -/

theorem test_wf_write_short : Instr.wf args (.write 0x100000 3 [0x01, 0x02] 0x43) = false := by decide

theorem test_wf_unrecognised_is_command : Instr.wf args (.unrecognised 0x0005 (some 0)) = false := by
  decide

theorem test_wf_unrecognised_needs_checksum : Instr.wf args (.unrecognised 0xBEEF none) = false := by
  decide

theorem test_wf_unrecognised_skip_has_none :
    Instr.wf { args with unknownCmdCrc := .skip } (.unrecognised 0xBEEF (some 0)) = false := by decide

theorem test_wf_codes_distinct :
    Params.wf { args with cmdRead := 0x0001 } = false ∧ Params.wf { args with cmdReset := 6 } = false ∧
      Params.wf args = true := by decide

theorem test_wf_response_data : Response.wf (.data 0x100000 4 [0xDE] 0xA8) = false := by decide

theorem test_wf_memory :
    Memory.wf [(2, 1), (1, 1)] = false ∧ Memory.wf [(1, 0), (1, 1)] = false ∧
      Memory.wf [(2 ^ 64, 1)] = false ∧ Memory.wf [(1, 1), (2, 1)] = true := by decide

/-! ## Words written out from the encodings (R84, R86) -/

/-- V36, V37, V75. -/
theorem test_decode_code_only :
    decode args [0x00, 0x00, 0x00] = .ok (.getVersion 0x00, []) ∧
      decode args [0x01, 0x00, 0x15, 0xAA] = .ok (.getBase 0x15, [0xAA]) ∧
      decode args [0x05, 0x00, 0x41] = .ok (.reset 0x41, []) := by decide

/-- V39: eight address bytes and four length bytes, least significant first. -/
theorem test_decode_read :
    decode args [0x02, 0x00, 0xEF, 0xCD, 0xAB, 0x89, 0x67, 0x45, 0x23, 0x01, 0x78, 0x56, 0x34, 0x12,
      0x07] = .ok (.read 0x0123456789ABCDEF 0x12345678 0x07, []) := by decide +kernel

/-- V73. -/
theorem test_decode_write :
    decode args [0x03, 0x00, 0x00, 0x00, 0x10, 0x00, 0x00, 0x00, 0x00, 0x00, 0x03, 0x00, 0x00, 0x00,
      0x01, 0x02, 0x03, 0x43] = .ok (.write 0x100000 3 [0x01, 0x02, 0x03] 0x43, []) := by
  decide +kernel

/-- V43. -/
theorem test_decode_execute :
    decode args [0x04, 0x00, 0x00, 0x10, 0x00, 0x00, 0x00, 0x00, 0x00, 0x00, 0x74] =
      .ok (.execute 0x1000 0x74, []) := by decide +kernel

/-- V50, V51, V54, V55. -/
theorem test_decode_unrecognised :
    decode args [0xEF, 0xBE, 0xB3] = .ok (.unrecognised 0xBEEF (some 0xB3), []) ∧
      decode { args with unknownCmdCrc := .skip } [0xEF, 0xBE, 0xB3] =
        .ok (.unrecognised 0xBEEF none, [0xB3]) ∧
      decode args [0x06, 0x00, 0x7E] = .ok (.unrecognised 0x0006 (some 0x7E), []) ∧
      decode args [0x00, 0x01, 0x07] = .ok (.unrecognised 0x0100 (some 0x07), []) := by decide

/-- R90: what is missing is named. -/
theorem test_decode_incomplete :
    decode args [0x02] = .error .codeMissing ∧
      decode args [0x04, 0x00, 0x00] = .error .addressMissing ∧
      decode args [0x02, 0x00, 0, 0, 0, 0, 0, 0, 0, 0, 1] = .error .lengthMissing ∧
      decode args [0x03, 0x00, 0, 0, 0, 0, 0, 0, 0, 0, 2, 0, 0, 0, 9] = .error .dataMissing ∧
      decode args [0x00, 0x00] = .error .checksumMissing := by decide +kernel

/-- The host's numbering: bit 0 is the least significant bit of the first byte. -/
theorem test_decode_table_word :
    decodeTableWord 24 0x410005 = some (.reset 0x41) ∧
      decodeTableWord 16 0x0003 = some (.write 0 0 [] 0) ∧
      decodeTableWord 24 0xB3BEEF = some (.unrecognised 0xBEEF (some 0xB3)) := by decide +kernel

/-- A fetched word runs as the first instruction after reset. -/
theorem test_fetch_word :
    step (State.reset.withFetchWord 24 0x150001) =
      exec (.getBase 0x15) { State.reset with rx := List.replicate 12 0x00 } := rfl

/-- The host's side: the response of V39, and an Error frame (R92). -/
theorem test_decode_response :
    decodeResponse args [0x02, 0x00, 0x00, 0x00, 0x10, 0x00, 0x00, 0x00, 0x00, 0x00, 0x04, 0x00,
        0x00, 0x00, 0xDE, 0xAD, 0xBE, 0xEF, 0xA8] =
        some (.data 0x100000 4 [0xDE, 0xAD, 0xBE, 0xEF] 0xA8, []) ∧
      decodeResponse args [0x06, 0x00, 0x02, 0x00, 0x5E] = some (.error 2 0x5E, []) := by
  decide +kernel

/-! ## The checksum (2.1, 2.2) -/

/-- V1 to V12. -/
theorem test_crc8_step :
    crc8Step 0x00 0x00 = 0x00 ∧ crc8Step 0x00 0x01 = 0x07 ∧ crc8Step 0x00 0x80 = 0x89 ∧
      crc8Step 0x00 0xFF = 0xF3 ∧ crc8Step 0xFF 0x00 = 0xF3 ∧ crc8Step 0xFF 0xFF = 0x00 ∧
      crc8Step 0x15 0x15 = 0x00 ∧ crc8Step 0x80 0x00 = 0x89 ∧ crc8Step 0x7F 0x00 = 0x7A ∧
      crc8Step 0xAA 0x55 = 0xF3 ∧ crc8Step 0x00 0xA5 = 0x72 ∧ crc8Step 0x12 0x01 = 0x79 := by
  decide +kernel

/-- V13, V16, V17, V18, V22, and the string of V18 from the seed 0xFF. -/
theorem test_crc8_sequences :
    crc8 [] = 0x00 ∧ crc8 [0, 0, 0, 0] = 0x00 ∧ crc8 [0xFF, 0xFF] = 0x24 ∧
      crc8 [0x31, 0x32, 0x33, 0x34, 0x35, 0x36, 0x37, 0x38, 0x39] = 0xF4 ∧
      crc8 [0xDE, 0xAD, 0xBE, 0xEF] = 0xCA ∧
      crcFold 0xFF [0x31, 0x32, 0x33, 0x34, 0x35, 0x36, 0x37, 0x38, 0x39] = 0xFB := by
  decide +kernel

/-- X2: a flipped bit is found. -/
theorem test_crc8_flip :
    crc8 [0x01, 0x00, 0x00, 0x00, 0x00, 0x00, 0x00, 0x00, 0x00, 0x00] = 0x68 := by decide +kernel

/-! ## Codec operations (2.3) -/

/-- V23. -/
theorem test_starts :
    (perform demo .rxStart).rxcrc = 0x00 ∧ (perform demo .rxStart).txcrc = 0xFF ∧
      (perform demo .txStart).txcrc = 0x00 ∧ (perform demo .txStart).rxcrc = 0xFF := by decide

/-- V24 to V26, V35. -/
theorem test_rx_integers :
    (perform { demo with rxcrc := 0, rx := [0x01, 0x00] } .rxU16).ret = 0x0001 ∧
      (perform { demo with rxcrc := 0, rx := [0x01, 0x00] } .rxU16).rxcrc = 0x15 ∧
      (perform { demo with rxcrc := 0, rx := [0x78, 0x56, 0x34, 0x12] } .rxU32).ret = 0x12345678 ∧
      (perform { demo with rxcrc := 0, rx := [0xEF, 0xCD, 0xAB, 0x89, 0x67, 0x45, 0x23, 0x01] }
        .rxU64).ret = 0x0123456789ABCDEF ∧
      (perform { demo with rxcrc := 0, rx := [0xEF, 0xCD, 0xAB, 0x89, 0x67, 0x45, 0x23, 0x01] }
        .rxU64).rxcrc = 0x8B ∧
      (perform { demo with rx := [0x01, 0x00] } .rxU16).rxcrc = 0xC2 ∧
      (perform { demo with rxcrc := 0, rx := [0x01, 0x02] } .rxU8).rx = [0x02] := by decide +kernel

/-- V27, V28: the byte is compared, not folded. -/
theorem test_rx_validate_crc :
    (perform { demo with rxcrc := 0x15, rx := [0x15] } .rxValidateCrc).crcOk = true ∧
      (perform { demo with rxcrc := 0x15, rx := [0x14] } .rxValidateCrc).crcOk = false ∧
      (perform { demo with rxcrc := 0x15, rx := [0x14] } .rxValidateCrc).rxcrc = 0x15 := by
  decide +kernel

/-- V29. -/
theorem test_tx_u16_and_crc :
    (perform (perform (perform { demo with txcrc := 0 } (.txU16 0x0006)) (.txU16 0x0001))
      .txCrc).transmitted = [0x06, 0x00, 0x01, 0x00, 0x61] ∧
    (perform (perform (perform { demo with txcrc := 0 } (.txU16 0x0006)) (.txU16 0x0001))
      .txCrc).txcrc = 0x61 := by decide +kernel

/-- V34, and the byte order of the other widths. -/
theorem test_tx_integers :
    (perform { demo with txcrc := 0 } (.txU64 0x80000)).transmitted = [0, 0, 8, 0, 0, 0, 0, 0] ∧
      (perform { demo with txcrc := 0 } (.txU64 0x80000)).txcrc = 0x4F ∧
      (perform demo (.txU32 0x12345678)).transmitted = [0x78, 0x56, 0x34, 0x12] ∧
      (perform demo (.txU8 0xAB)).transmitted = [0xAB] := by decide +kernel

/-- V30, V33. -/
theorem test_rx_data :
    (perform { demo with rxcrc := 0, rx := [0xDE, 0xAD, 0xBE, 0xEF] } (.rxData 0x100000 4)).rxcrc =
        0xCA ∧
      (perform { demo with rxcrc := 0, rx := [0xDE, 0xAD, 0xBE, 0xEF] } (.rxData 0x100000 4)).mem =
        [(0x100000, 0xDE), (0x100001, 0xAD), (0x100002, 0xBE), (0x100003, 0xEF)] ∧
      (perform { demo with rxcrc := 0x5A } (.rxData 0x100000 0)).rxcrc = 0x5A := by decide +kernel

/-- V31, V33. -/
theorem test_rx_ignore_data :
    (perform { demo with rxcrc := 0, rx := [0xDE, 0xAD, 0xBE, 0xEF] } (.rxIgnoreData 4)).rxcrc =
        0xCA ∧
      (perform { demo with rxcrc := 0, rx := [0xDE, 0xAD, 0xBE, 0xEF] } (.rxIgnoreData 4)).mem = [] ∧
      (perform { demo with rxcrc := 0x5A } (.rxIgnoreData 0)).rxcrc = 0x5A := by decide +kernel

/-- V32, and R53: the read comes immediately before the send. -/
theorem test_tx_data :
    (perform { beef with txcrc := 0 } (.txData 0x100000 4)).transmitted = [0xDE, 0xAD, 0xBE, 0xEF] ∧
      (perform { beef with txcrc := 0 } (.txData 0x100000 4)).txcrc = 0xCA ∧
      (perform beef (.txData 0x100002 2)).log =
        [.memRead 0x100002 0xBE, .txByte 0xBE, .memRead 0x100003 0xEF, .txByte 0xEF] := by
  decide +kernel

/-- R37, U16: a byte that nothing has stored is the platform's, and the second byte, at a device
address, is any value though one has been stored there. -/
theorem test_mem_read_free :
    (perform { demo with txcrc := 0 } (.txData 0x100000 1)).transmitted =
        [Config.powerOnByte 0 0x100000] ∧
      (perform { beef with devices := [{ lo := 0x100001, hi := 0x100001 }] }
        (.txData 0x100000 3)).transmitted = [0xDE, Config.deviceAnswer 1 0x100001, 0xBE] :=
  ⟨rfl, rfl⟩

/-! ## Responses, from the registers -/

theorem test_responses_version_base :
    (perform { demo with cmd := 0 } .rspVersion).transmitted = [0x00, 0x00, 0x00, 0x01, 0x07] ∧
      (perform { demo with cmd := 1 } .rspBase).transmitted =
        [0x01, 0x00, 0x00, 0x00, 0x08, 0x00, 0x00, 0x00, 0x00, 0x00, 0x27] := by decide +kernel

/-- V73, V39, and the first response of P2. -/
theorem test_responses_memory :
    (perform { demo with cmd := 3, addr := 0x100000, len := 3 } .rspWrote).transmitted =
        [0x03, 0x00, 0x00, 0x00, 0x10, 0x00, 0x00, 0x00, 0x00, 0x00, 0x03, 0x00, 0x00, 0x00, 0x80] ∧
      (perform { beef with cmd := 2, addr := 0x100000, len := 4 } .rspData).transmitted =
        [0x02, 0x00, 0x00, 0x00, 0x10, 0x00, 0x00, 0x00, 0x00, 0x00, 0x04, 0x00, 0x00, 0x00,
          0xDE, 0xAD, 0xBE, 0xEF, 0xA8] ∧
      (perform { demo with cmd := 4, addr := 0x100000, result := 12 } .rspResult).transmitted =
        [0x04, 0x00, 0x00, 0x00, 0x10, 0x00, 0x00, 0x00, 0x00, 0x00,
          0x0C, 0x00, 0x00, 0x00, 0x00, 0x00, 0x00, 0x00, 0x06] := by decide +kernel

/-- V75. -/
theorem test_response_resetting :
    (perform { demo with cmd := 5 } .rspResetting).log =
        [.txByte 0x05, .txByte 0x00, .txByte 0x41, .txFlush, .hardReset] ∧
      (perform { demo with cmd := 5 } .rspResetting).pos = .resetting := by decide +kernel

/-- The three constant frames of R230. -/
theorem test_error_frames :
    (perform demo .errorInvalidCrc).transmitted = [0x06, 0x00, 0x01, 0x00, 0x61] ∧
      (perform demo .errorInvalidCommand).transmitted = [0x06, 0x00, 0x02, 0x00, 0x5E] ∧
      (perform demo .errorInvalidArgument).transmitted = [0x06, 0x00, 0x03, 0x00, 0x4B] := by
  decide +kernel

/-! ## Requests, one step each (2.4 to 2.7) -/

/-- V36, V76, V60. -/
theorem test_getversion :
    reply demo [0x00, 0x00, 0x00] = ([0x00, 0x00, 0x00, 0x01, 0x07], [], .done) ∧
      reply { demo with params := { args with protocolVersion := 0x1234 } } [0x00, 0x00, 0x00] =
        ([0x00, 0x00, 0x34, 0x12, 0xD3], [], .done) ∧
      reply demo [0x00, 0x00, 0x01] = ([0x06, 0x00, 0x01, 0x00, 0x61], [], .done) := by
  decide +kernel

/-- V38, V61 with a next frame (X4). -/
theorem test_getbase :
    reply { demo with params := { args with guardAddress := 0x0123456789ABCDEF } }
        [0x01, 0x00, 0x15] =
        ([0x01, 0x00, 0xEF, 0xCD, 0xAB, 0x89, 0x67, 0x45, 0x23, 0x01, 0xE3], [], .done) ∧
      reply demo [0x01, 0x00, 0x14, 0x01, 0x00, 0x15] =
        ([0x06, 0x00, 0x01, 0x00, 0x61], [0x01, 0x00, 0x15], .done) := by decide +kernel

/-- V71, V72: below the guard without a check, and the wrap at the top of memory. -/
theorem test_read_below_guard_and_wrap :
    reply { demo with mem := stored 0x10 [0x11, 0x22] }
        [0x02, 0x00, 0x10, 0, 0, 0, 0, 0, 0, 0, 0x02, 0, 0, 0, 0x2A] =
        ([0x02, 0x00, 0x10, 0, 0, 0, 0, 0, 0, 0, 0x02, 0, 0, 0, 0x11, 0x22, 0x80], [], .done) ∧
      reply { demo with mem := stored 0xFFFFFFFFFFFFFFFF [0x5A, 0xA5] }
        [0x02, 0x00, 0xFF, 0xFF, 0xFF, 0xFF, 0xFF, 0xFF, 0xFF, 0xFF, 0x02, 0, 0, 0, 0x4E] =
        ([0x02, 0x00, 0xFF, 0xFF, 0xFF, 0xFF, 0xFF, 0xFF, 0xFF, 0xFF, 0x02, 0, 0, 0, 0x5A, 0xA5,
          0x71], [], .done) := by decide +kernel

/-- V70, V62: no memory is read in either. -/
theorem test_read_empty_and_bad :
    reply demo [0x02, 0, 0, 0, 0, 0, 0, 0, 0, 0, 0, 0, 0, 0, 0xCD] =
        ([0x02, 0, 0, 0, 0, 0, 0, 0, 0, 0, 0, 0, 0, 0, 0xCD], [], .done) ∧
      reply beef [0x02, 0, 0, 0, 0x10, 0, 0, 0, 0, 0, 0x04, 0, 0, 0, 0x06] =
        ([0x06, 0x00, 0x01, 0x00, 0x61], [], .done) ∧
      (serve beef [0x02, 0, 0, 0, 0x10, 0, 0, 0, 0, 0, 0x04, 0, 0, 0, 0x06]).log.any
        PortAction.touchesMemory = false := by decide +kernel

/-- V44 at the guard, V63 and R275: the bytes are stored under a wrong checksum too. -/
theorem test_write :
    reply demo [0x03, 0, 0, 0, 0x08, 0, 0, 0, 0, 0, 0x01, 0, 0, 0, 0x99, 0x84] =
        ([0x03, 0, 0, 0, 0x08, 0, 0, 0, 0, 0, 0x01, 0, 0, 0, 0x77], [], .done) ∧
      reply demo [0x03, 0, 0, 0, 0x10, 0, 0, 0, 0, 0, 0x03, 0, 0, 0, 0x01, 0x02, 0x03, 0x42] =
        ([0x06, 0x00, 0x01, 0x00, 0x61], [], .done) ∧
      (serve demo [0x03, 0, 0, 0, 0x10, 0, 0, 0, 0, 0, 0x03, 0, 0, 0, 0x01, 0x02, 0x03, 0x42]).mem =
        [(0x100000, 0x01), (0x100001, 0x02), (0x100002, 0x03)] := by decide +kernel

/-- V42 (the policy failure masks the checksum), V41 (skip leaves the checksum byte). -/
theorem test_write_below_guard :
    reply demo [0x03, 0, 0xFF, 0xFF, 0x07, 0, 0, 0, 0, 0, 0x02, 0, 0, 0, 0xAA, 0xBB, 0x91, 0x00] =
        ([0x06, 0x00, 0x03, 0x00, 0x4B], [0x00], .done) ∧
      reply { demo with params := { args with policyFailCrc := .skip } }
        [0x03, 0, 0xFF, 0xFF, 0x07, 0, 0, 0, 0, 0, 0x02, 0, 0, 0, 0xAA, 0xBB, 0x90] =
        ([0x06, 0x00, 0x03, 0x00, 0x4B], [0x90], .done) ∧
      (serve demo [0x03, 0, 0xFF, 0xFF, 0x07, 0, 0, 0, 0, 0, 0x02, 0, 0, 0, 0xAA, 0xBB,
        0x91]).mem = [] := by decide +kernel

/-- The context of P2, and a call that returns 12. -/
def caller : State :=
  { demo with
    mem := stored 0x100000
      ([0, 0, 0x20, 0, 0, 0, 0, 0] ++ [5, 0, 0, 0, 0, 0, 0, 0] ++ 7 :: List.replicate 55 0)
    calls := [{ value := 12, stores := [] }] }

/-- P2: the call sees the function pointer and the eight arguments, the result is in slot 0. -/
theorem test_execute :
    reply caller [0x04, 0, 0, 0, 0x10, 0, 0, 0, 0, 0, 0x39] =
        ([0x04, 0, 0, 0, 0x10, 0, 0, 0, 0, 0, 0x0C, 0, 0, 0, 0, 0, 0, 0, 0x06], [], .done) ∧
      (serve caller [0x04, 0, 0, 0, 0x10, 0, 0, 0, 0, 0, 0x39]).log.contains
        (.execCall 0x200000 [5, 7, 0, 0, 0, 0, 0, 0] 12) = true ∧
      (serve caller [0x04, 0, 0, 0, 0x10, 0, 0, 0, 0, 0, 0x39]).mem =
        stored 0x100000 ([0, 0, 0x20, 0, 0, 0, 0, 0] ++ [0x0C, 0, 0, 0, 0, 0, 0, 0] ++
          7 :: List.replicate 55 0) := by decide +kernel

/-- V46, V64: no call. -/
theorem test_execute_rejected :
    reply caller [0x04, 0, 0xFF, 0xFF, 0x07, 0, 0, 0, 0, 0, 0xE7] =
        ([0x06, 0x00, 0x03, 0x00, 0x4B], [], .done) ∧
      reply caller [0x04, 0, 0, 0, 0x10, 0, 0, 0, 0, 0, 0x38] =
        ([0x06, 0x00, 0x01, 0x00, 0x61], [], .done) ∧
      (serve caller [0x04, 0, 0, 0, 0x10, 0, 0, 0, 0, 0, 0x38]).calls.length = 1 := by
  decide +kernel

/-- V75 with a frame behind it, and V65. -/
theorem test_reset :
    reply demo [0x05, 0x00, 0x41, 0x00, 0x00, 0x00] =
        ([0x05, 0x00, 0x41], [0x00, 0x00, 0x00], .resetting) ∧
      reply demo [0x05, 0x00, 0x40] = ([0x06, 0x00, 0x01, 0x00, 0x61], [], .done) := by
  decide +kernel

/-- V52, V51, V53. -/
theorem test_unrecognised :
    reply demo [0xEF, 0xBE, 0xB2] = ([0x06, 0x00, 0x02, 0x00, 0x5E], [], .done) ∧
      reply { demo with params := { args with unknownCmdCrc := .skip } } [0xEF, 0xBE, 0xB3] =
        ([0x06, 0x00, 0x02, 0x00, 0x5E], [0xB3], .done) ∧
      reply { demo with params := { args with unknownCmdCrc := .consumeReported } }
        [0xEF, 0xBE, 0xB2] = ([0x06, 0x00, 0x01, 0x00, 0x61], [], .done) := by decide +kernel

/-- R273: an incomplete frame is received as far as it goes, and waits. -/
theorem test_incomplete_waits :
    (serve demo [0x00]).pos = .op (.rxInt .cmd 1 [0x00]) (.op (.setPhase .decodingFields) .dispatch) ∧
      step (serve demo [0x00]) = .next (serve demo [0x00]) := ⟨rfl, rfl⟩

/-! ## States and operands that meet the hypotheses of the obligations

Named `witness_<obligation>`, one conjunct for each hypothesis of each clause, at boundary values:
exactly the bytes, or the room, that the clause asks for. -/

/-- Room for exactly `n` more bytes. -/
def room (n : Nat) : State := { demo with txRoom := some n }

/-- These bytes in the receive stream. -/
def fed (bs : List Byte) : State := { demo with rx := bs }

theorem witness_CrcLaws :
    (0x00 : Byte) ≠ 0x01 ∧
      ((perform (fed [0x14]) .rxStart).rxcrc = crc8 [] ∧
        (perform (fed [0x14]) .rxStart).rx = 0x14 :: [] ∧ (0x14 : Byte) ≠ crc8 []) := by
  decide +kernel

theorem witness_RxIntegersAssembleTheirBytes :
    (fed [1]).rx = 1 :: [] ∧ (fed [1, 2]).rx = 1 :: 2 :: [] ∧
      (fed [1, 2, 3, 4]).rx = [1, 2, 3, 4] ++ [] ∧
      (fed [1, 2, 3, 4, 5, 6, 7, 8]).rx = [1, 2, 3, 4, 5, 6, 7, 8] ++ [] := by decide

theorem witness_TxIntegersSendTheirBytes :
    (room 1).accepts 1 ∧ (room 2).accepts 2 ∧ (room 4).accepts 4 ∧ (room 8).accepts 8 := by
  simp [room, State.accepts]

/-- Two bytes across the top of memory. -/
theorem witness_RxDataStoresEachByteAsItArrives :
    [(1 : Byte), 2].length = (2 : BitVec 32).toNat ∧ (fed [1, 2]).rx = [1, 2] ++ [] ∧
      (fed [1, 2]).writable 0xFFFFFFFFFFFFFFFF (2 : BitVec 32).toNat := by decide

theorem witness_TxDataReadsEachByteAndSendsIt :
    (room 2).accepts (2 : BitVec 32).toNat ∧
      (room 2).readable 0xFFFFFFFFFFFFFFFF (2 : BitVec 32).toNat := by
  constructor
  · simp [room, State.accepts]
  · decide

theorem witness_RxIgnoreDataDrainsWithoutStoring :
    [(1 : Byte), 2].length = (2 : BitVec 32).toNat ∧ (fed [1, 2]).rx = [1, 2] ++ [] := by decide

/-- Two bytes across the top of memory, and none. -/
theorem witness_RxIgnoreDataLeavesTheChecksumOfRxData :
    ([(1 : Byte), 2].length = (2 : BitVec 32).toNat ∧ (fed [1, 2]).rx = [1, 2] ++ [] ∧
        (fed [1, 2]).writable 0xFFFFFFFFFFFFFFFF (2 : BitVec 32).toNat) ∧
      (([] : List Byte).length = (0 : BitVec 32).toNat ∧ (fed []).rx = [] ++ [] ∧
        (fed []).writable 0 (0 : BitVec 32).toNat) := by decide

/-- The payload of X1, with room for just it and its checksum byte, and the empty payload. -/
theorem witness_WhatIsEncodedValidates :
    (room 3).accepts ([(0x01 : Byte), 0x00].length + 1) ∧ (room 1).accepts (([] : List Byte).length + 1) ∧
      (fed [0x01, 0x00, 0x15, 0xAA]).rx = [0x01, 0x00, 0x15] ++ [0xAA] ∧
      (fed [0x00]).rx = [0x00] ++ [] := by
  refine ⟨?_, ?_, rfl, rfl⟩ <;> simp [room, State.accepts]

theorem witness_RxValidateCrcComparesOneByte : (fed [0x15]).rx = 0x15 :: [] := by decide

theorem witness_TxCrcSendsTheAccumulator : (room 1).accepts 1 := by simp [room, State.accepts]

theorem witness_RxU64KeepsWhatItReceivedAndWaits :
    ((fed []).rx = [] ∧ ([] : List Byte).length < 8) ∧
      ((fed [1, 2, 3, 4, 5, 6, 7]).rx = [1, 2, 3, 4, 5, 6, 7] ∧
        [(1 : Byte), 2, 3, 4, 5, 6, 7].length < 8) := by decide

theorem witness_IntegerResponsesHaveTheirFormats :
    (room 5).accepts 5 ∧ (room 11).accepts 11 ∧ (room 15).accepts 15 ∧ (room 19).accepts 19 := by
  simp [room, State.accepts]

/-- Four bytes, and none. -/
theorem witness_DataResponseCarriesMemory :
    (State.accepts { room 19 with len := 4 } (15 + (4 : BitVec 32).toNat) ∧
        State.readable { room 19 with len := 4 } 0 (4 : BitVec 32).toNat) ∧
      (State.accepts (room 15) (15 + (0 : BitVec 32).toNat) ∧
        State.readable (room 15) 0 (0 : BitVec 32).toNat) := by
  refine ⟨⟨?_, by decide⟩, ?_, by decide⟩ <;> simp [room, State.accepts]

theorem witness_ResettingResponseFlushesAndResets :
    (room 3).accepts 3 ∧ (room 3).flushReady = true := by
  exact ⟨by simp [room, State.accepts], rfl⟩

theorem witness_ErrorFramesAreConstant : (room 5).accepts 5 := by simp [room, State.accepts]

theorem witness_GetVersionFollowsItsRule : (room 5).accepts 5 := by simp [room, State.accepts]

/-- X1 with a right checksum byte, and a wrong one. -/
theorem witness_GetBaseFollowsItsRule :
    ((0x15 : Byte) = crc8 (leBytes 2 cmdGetBaseAddress) ∧ (room 11).accepts 11) ∧
      ((0x14 : Byte) ≠ crc8 (leBytes 2 cmdGetBaseAddress) ∧ (room 5).accepts 5) := by
  refine ⟨⟨by decide +kernel, ?_⟩, by decide +kernel, ?_⟩ <;> simp [room, State.accepts]

/-- V39 with a right checksum byte, V62 with a wrong one. -/
theorem witness_ReadFollowsItsRule :
    ((0x07 : Byte) = crc8 (echoHeader args.cmdRead 0x100000 4) ∧
        (room 19).accepts (15 + (4 : BitVec 32).toNat) ∧
        (room 19).readable 0x100000 (4 : BitVec 32).toNat) ∧
      ((0x06 : Byte) ≠ crc8 (echoHeader args.cmdRead 0x100000 4) ∧ (room 5).accepts 5) := by
  refine ⟨⟨by decide +kernel, ?_, by decide⟩, by decide +kernel, ?_⟩ <;> simp [room, State.accepts]

/-- At the guard (V44, right and wrong checksum byte) and one below it (V45). -/
theorem witness_WriteFollowsItsRule :
    [(0x99 : Byte)].length = (1 : BitVec 32).toNat ∧
      ((room 15).params.guardAddress ≤ 0x80000 ∧ (room 15).writable 0x80000 (1 : BitVec 32).toNat ∧
        (0x84 : Byte) = crc8 (echoHeader args.cmdWrite 0x80000 1 ++ [0x99]) ∧
        (room 15).accepts 15) ∧
      ((0x85 : Byte) ≠ crc8 (echoHeader args.cmdWrite 0x80000 1 ++ [0x99]) ∧ (room 5).accepts 5) ∧
      ((0x7FFFF : Addr) < (room 5).params.guardAddress ∧ (room 5).accepts 5) := by
  refine ⟨by decide, ⟨by decide, by decide, by decide +kernel, ?_⟩, ⟨by decide +kernel, ?_⟩,
    by decide, ?_⟩ <;> simp [room, State.accepts]

/-- At the guard with a right checksum byte, P2 above it, V64 with a wrong one, and one below the
guard. -/
theorem witness_ExecuteFollowsItsRule :
    (caller.params.guardAddress ≤ 0x80000 ∧
        (0xE8 : Byte) = crc8 (leBytes 2 args.cmdExecute ++ leBytes 8 (0x80000 : Addr)) ∧
        caller.calls = { value := 12, stores := [] } :: [] ∧
        caller.readable 0x80000 72 ∧ caller.writable (0x80000 + 8) 8 ∧ caller.accepts 19) ∧
      (caller.params.guardAddress ≤ 0x100000 ∧
        (0x39 : Byte) = crc8 (leBytes 2 args.cmdExecute ++ leBytes 8 (0x100000 : Addr)) ∧
        caller.calls = { value := 12, stores := [] } :: [] ∧
        caller.readable 0x100000 72 ∧ caller.writable (0x100000 + 8) 8 ∧ caller.accepts 19) ∧
      (caller.mem.wf = true ∧ caller.ordinary (0x80000 + 8) 8 ∧
        caller.ordinary (0x100000 + 8) 8) ∧
      ((0x38 : Byte) ≠ crc8 (leBytes 2 args.cmdExecute ++ leBytes 8 (0x100000 : Addr)) ∧
        caller.accepts 5) ∧
      ((0x7FFFF : Addr) < caller.params.guardAddress ∧ caller.accepts 5) := by
  refine ⟨⟨by decide, by decide +kernel, by decide, by decide +kernel, by decide, ?_⟩,
    ⟨by decide, by decide +kernel, by decide, by decide +kernel, by decide, ?_⟩,
    ⟨by decide +kernel, by decide, by decide⟩, ⟨by decide +kernel, ?_⟩, by decide, ?_⟩ <;>
    simp [caller, demo, State.reset, State.accepts]

theorem witness_ResetFollowsItsRule :
    ((0x41 : Byte) = crc8 (leBytes 2 args.cmdReset) ∧ (room 3).accepts 3 ∧
        (room 3).flushReady = true) ∧
      ((0x40 : Byte) ≠ crc8 (leBytes 2 args.cmdReset) ∧ (room 5).accepts 5) := by
  refine ⟨⟨by decide +kernel, ?_, rfl⟩, by decide +kernel, ?_⟩ <;> simp [room, State.accepts]

/-- Each value of `UNKNOWN_CMD_CRC`. -/
theorem witness_UnrecognisedFollowsItsRule :
    (room 5).accepts 5 ∧ (room 5).params.unknownCmdCrc = .consumeMasked ∧
      State.accepts { room 5 with params := { args with unknownCmdCrc := .skip } } 5 ∧
      State.accepts { room 5 with params := { args with unknownCmdCrc := .consumeReported } } 5 := by
  refine ⟨?_, by decide, ?_, ?_⟩ <;> simp [room, State.accepts]

/-- One below the guard, and at 0. -/
theorem witness_BelowTheGuardNothingIsTouched :
    (0x7FFFF : Addr) < (room 5).params.guardAddress ∧ (0 : Addr) < (room 5).params.guardAddress ∧
      (room 5).accepts 5 ∧ [(0x99 : Byte)].length = (1 : BitVec 32).toNat := by
  refine ⟨by decide, by decide, ?_, by decide⟩
  simp [room, State.accepts]

/-- At the guard; two bytes across the top of memory. -/
theorem witness_ReadReturnsWhatWriteStored :
    (room 32).mem.wf = true ∧ [(1 : Byte), 2].length = (2 : BitVec 32).toNat ∧
      (room 32).params.guardAddress ≤ 0x80000 ∧
      (room 32).params.guardAddress ≤ 0xFFFFFFFFFFFFFFFF ∧
      (room 32).writable 0xFFFFFFFFFFFFFFFF (2 : BitVec 32).toNat ∧
      (room 32).readable 0xFFFFFFFFFFFFFFFF (2 : BitVec 32).toNat ∧
      (room 32).ordinary 0xFFFFFFFFFFFFFFFF (2 : BitVec 32).toNat ∧
      (room 32).accepts (30 + (2 : BitVec 32).toNat) := by
  refine ⟨by decide, by decide, by decide, by decide, by decide, by decide, by decide, ?_⟩
  simp [room, State.accepts]

/-- Two bytes across the top of memory, and the guard itself. -/
theorem witness_StoresReachOnlyTheirAddresses :
    ((fed [1, 2]).mem.wf = true ∧ [(1 : Byte), 2].length = (2 : BitVec 32).toNat ∧
        (fed [1, 2]).rx = [1, 2] ++ [] ∧
        (fed [1, 2]).writable 0xFFFFFFFFFFFFFFFF (2 : BitVec 32).toNat) ∧
      ((room 15).mem.wf = true ∧ (room 15).params.guardAddress ≤ 0x80000 ∧
        (room 15).writable 0x80000 (2 : BitVec 32).toNat ∧ (room 15).accepts 15) ∧
      (caller.mem.wf = true ∧ caller.params.guardAddress ≤ 0x80000 ∧
        caller.calls = { value := 12, stores := [] } :: [] ∧ caller.readable 0x80000 72 ∧
        caller.writable (0x80000 + 8) 8 ∧ caller.accepts 19) := by
  refine ⟨by decide, ⟨by decide, by decide, by decide, ?_⟩, by decide +kernel, by decide, by decide,
    by decide +kernel, by decide, ?_⟩ <;> simp [room, caller, demo, State.reset, State.accepts]

theorem witness_WriteStoresBeforeTheChecksumArrives :
    let s := fed (echoHeader args.cmdWrite 0x80000 1 ++ [0x99])
    s.params.wf = true ∧ s.pos = .done ∧ [(0x99 : Byte)].length = (1 : BitVec 32).toNat ∧
      s.params.guardAddress ≤ 0x80000 ∧ s.writable 0x80000 (1 : BitVec 32).toNat ∧
      s.rx = echoHeader s.params.cmdWrite 0x80000 1 ++ [0x99] := by decide

theorem witness_ExecuteWaitsWhileTheCallHasNotReturned :
    demo.params.guardAddress ≤ 0x80000 ∧ demo.calls = [] ∧ demo.readable 0x80000 72 := by
  refine ⟨by decide, by decide, by decide +kernel⟩

/-- A context at the guard and one that wraps past the top of memory; room for just the response. -/
theorem witness_ExecuteGoesOnWhenTheCallReturns :
    (room 19).params.guardAddress ≤ 0x80000 ∧
      (room 19).params.guardAddress ≤ 0xFFFFFFFFFFFFFFFF ∧ (room 19).calls = [] ∧
      (room 19).readable 0x80000 72 ∧ (room 19).readable 0xFFFFFFFFFFFFFFFF 72 ∧
      ((room 19).mem.wf = true ∧ (room 19).writable (0x80000 + 8) 8 ∧
        (room 19).writable (0xFFFFFFFFFFFFFFFF + 8) 8 ∧ (room 19).ordinary (0x80000 + 8) 8 ∧
        (room 19).ordinary (0xFFFFFFFFFFFFFFFF + 8) 8 ∧ (room 19).accepts 19) := by
  refine ⟨by decide, by decide, by decide, by decide +kernel, by decide +kernel, by decide,
    by decide, by decide, by decide, by decide, ?_⟩
  simp [room, State.accepts]

/-- The last of two bytes never answers, and the first of one. -/
theorem witness_ReadIsStuckAtAnAddressThatNeverAnswers :
    let s : State := { room 17 with noRead := [{ lo := 0x10, hi := 0x1F }] }
    (1 < (2 : BitVec 32).toNat ∧ s.accepts (15 + (2 : BitVec 32).toNat) ∧ s.readable 0x0F 1 ∧
      inRanges s.noRead ((0x0F : Addr) + BitVec.ofNat 64 1) = true) ∧
    (0 < (1 : BitVec 32).toNat ∧ s.accepts (15 + (1 : BitVec 32).toNat) ∧ s.readable 0x1F 0 ∧
      inRanges s.noRead ((0x1F : Addr) + BitVec.ofNat 64 0) = true) := by
  refine ⟨⟨by decide, ?_, by decide, by decide⟩, by decide, ?_, by decide, by decide⟩ <;>
    simp [room, State.accepts]

/-- The last of two bytes is never stored, and the first of one, at the guard. -/
theorem witness_WriteIsStuckAtAnAddressThatNeverAnswers :
    let s : State := { demo with noWrite := [{ lo := 0x80001, hi := 0x80001 }] }
    let u : State := { demo with noWrite := [{ lo := 0x80000, hi := 0x80000 }] }
    ([(1 : Byte), 2].length = (2 : BitVec 32).toNat ∧ 1 < (2 : BitVec 32).toNat ∧
      s.params.guardAddress ≤ 0x80000 ∧ s.writable 0x80000 1 ∧
      inRanges s.noWrite ((0x80000 : Addr) + BitVec.ofNat 64 1) = true) ∧
    ([(1 : Byte)].length = (1 : BitVec 32).toNat ∧ 0 < (1 : BitVec 32).toNat ∧
      u.params.guardAddress ≤ 0x80000 ∧ u.writable 0x80000 0 ∧
      inRanges u.noWrite ((0x80000 : Addr) + BitVec.ofNat 64 0) = true) := by decide

/-- The context's last byte is never read; the slot's first byte is never stored, and its last. -/
theorem witness_ExecuteIsStuckAtAnAddressThatNeverAnswers :
    let s : State := { demo with noRead := [{ lo := 0x80047, hi := 0x80047 }] }
    let u : State := { caller with noWrite := [{ lo := 0x80008, hi := 0x80008 }] }
    let v : State := { caller with noWrite := [{ lo := 0x8000F, hi := 0x8000F }] }
    (s.params.guardAddress ≤ 0x80000 ∧ 71 < 72 ∧ s.readable 0x80000 71 ∧
      inRanges s.noRead ((0x80000 : Addr) + BitVec.ofNat 64 71) = true) ∧
    (u.params.guardAddress ≤ 0x80000 ∧ 0 < 8 ∧ u.calls = { value := 12, stores := [] } :: [] ∧
      u.readable 0x80000 72 ∧ u.writable (0x80000 + 8) 0 ∧
      inRanges u.noWrite ((0x80000 : Addr) + 8 + BitVec.ofNat 64 0) = true) ∧
    (v.params.guardAddress ≤ 0x80000 ∧ 7 < 8 ∧ v.calls = { value := 12, stores := [] } :: [] ∧
      v.readable 0x80000 72 ∧ v.writable (0x80000 + 8) 7 ∧
      inRanges v.noWrite ((0x80000 : Addr) + 8 + BitVec.ofNat 64 7) = true) := by
  decide +kernel

theorem witness_StepRunsTheDecodedFrame :
    (fed [0x05, 0x00, 0x41, 0xAA]).pos = .done ∧
      decode (fed [0x05, 0x00, 0x41, 0xAA]).params (fed [0x05, 0x00, 0x41, 0xAA]).rx =
        .ok (.reset 0x41, [0xAA]) := by decide

theorem witness_SerialReceptionRunsTheDecodedFrame :
    decode (fed [0x05, 0x00, 0x41, 0xAA]).params (fed [0x05, 0x00, 0x41, 0xAA]).rx =
      .ok (.reset 0x41, [0xAA]) := by decide

/-- The block after its first idle step. -/
theorem witness_QuiescentBlockServesTheNextFrame :
    (serve demo []).quiescent ∧ (serve demo []).rxcrc = 0x00 ∧
      decode (serve demo []).params [0x01, 0x00, 0x15] = .ok (.getBase 0x15, []) :=
  ⟨⟨rfl, rfl, rfl⟩, rfl, by decide⟩

theorem witness_IdleBlockBecomesQuiescentAndStaysSo :
    (fed []).pos = .done ∧ (fed []).rx = [] ∧ (serve demo []).quiescent :=
  ⟨rfl, rfl, rfl, rfl, rfl⟩

/-- The first byte of a frame, cut inside the command code. -/
theorem witness_StepGoesOnWhenMoreBytesArrive :
    step (fed [0x05]) = .next (serve demo [0x05]) ∧ (serve demo [0x05]).pos ≠ .done ∧
      (serve demo [0x05]).pos ≠ .resetting := ⟨rfl, by decide, by decide⟩

/-- An Execute frame on a platform that answers everything, and a Reset frame where no call is to
come. -/
theorem witness_EveryCompleteFrameIsAnsweredOnce :
    let s : State := { caller with rx := [0x04, 0, 0, 0, 0x10, 0, 0, 0, 0, 0, 0x39] }
    let u : State := fed [0x05, 0x00, 0x41]
    (s.params.wf = true ∧ s.mem.wf = true ∧ s.pos = .done ∧
      decode s.params s.rx = .ok (.execute 0x100000 0x39, []) ∧ s.txRoom = none ∧
      s.flushReady = true ∧ s.noRead = [] ∧ s.noWrite = [] ∧
      ((∃ addr crc, Instr.execute 0x100000 0x39 = .execute addr crc) → s.calls ≠ [])) ∧
    (u.params.wf = true ∧ u.mem.wf = true ∧ u.pos = .done ∧
      decode u.params u.rx = .ok (.reset 0x41, []) ∧ u.txRoom = none ∧
      u.flushReady = true ∧ u.noRead = [] ∧ u.noWrite = [] ∧ u.calls = [] ∧
      ((∃ addr crc, Instr.reset 0x41 = .execute addr crc) → u.calls ≠ [])) := by
  refine ⟨⟨by decide, by decide +kernel, by decide, by decide +kernel, by decide, by decide, by decide,
    by decide, fun _ => by decide⟩, by decide, by decide, by decide, by decide, by decide, by decide,
    by decide, by decide, by decide, ?_⟩
  rintro ⟨addr, crc, h⟩
  cases h

theorem witness_StepConsumesTheStreamInOrder :
    step (fed [0x00]) = .next (serve demo [0x00]) ∧ (fed [0x00]).pos ≠ .resetting :=
  ⟨rfl, by decide⟩

theorem witness_StepNeverWritesTheArguments : step (fed [0x00]) = .next (serve demo [0x00]) := rfl

/-- In the middle of a frame. -/
theorem witness_EveryStepKeepsTheInvariant :
    (serve demo [0x00]).inv ∧ step (serve demo [0x00]) = .next (serve demo [0x00]) :=
  ⟨⟨rfl, rfl⟩, rfl⟩

theorem witness_HardResetIsFollowedByPowerOn : (serve demo [0x05, 0x00, 0x41]).pos = .resetting := by
  decide +kernel

/-- In the middle of a frame, and at the top of the loop with other registers and memory. -/
theorem witness_ExternalResetIsThePowerOn :
    let s := serve demo [0x05]
    let t : State :=
      { demo with rxcrc := 0x12, mem := [(1, 1)], rx := [0x07], log := [.rxByte 0x05] }
    s.params = t.params ∧ s.log = t.log ∧ s.noRead = t.noRead ∧
      s.noWrite = t.noWrite ∧ s.txRoom = t.txRoom ∧ s.flushReady = t.flushReady ∧
      s.calls = t.calls ∧ s.cycle = t.cycle ∧ s.devices = t.devices ∧ s.reads = t.reads :=
  ⟨rfl, rfl, rfl, rfl, rfl, rfl, rfl, rfl, rfl, rfl⟩

/-- The same outside, other registers and another past. -/
theorem witness_NothingIsCarriedIntoTheNextFrame :
    (Instr.read 0x10 2 0x2A).isRequest = true ∧
      demo.sameOutside { demo with
        rxcrc := 0x12
        addr := 7
        cnt := 3
        crcOk := true
        log := [.txFlush]
        pos := .resetting } :=
  ⟨rfl, rfl, rfl, rfl, rfl, rfl, rfl, rfl, rfl, rfl, rfl, rfl⟩

theorem witness_DecodeReadsBackEveryRequest :
    args.wf = true ∧ Instr.wf args (.write 0x80000 1 [0x99] 0x84) = true ∧
      encode args (.write 0x80000 1 [0x99] 0x84) =
        some [0x03, 0, 0, 0, 0x08, 0, 0, 0, 0, 0, 0x01, 0, 0, 0, 0x99, 0x84] := by decide +kernel

theorem witness_DecodedBytesAreTheEncoding :
    decode args [0x05, 0x00, 0x41, 0xAA] = .ok (.reset 0x41, [0xAA]) := by decide

theorem witness_EnoughBytesAlwaysDecode :
    2 ^ 32 + 14 ≤ (List.replicate (2 ^ 32 + 14) (0x00 : Byte)).length :=
  le_of_eq List.length_replicate.symm

theorem witness_EveryOtherCodeIsUnrecognised : args.wf = true := by decide

theorem witness_HostReadsBackEveryResponse :
    args.wf = true ∧ Response.wf (.data 0x80000 1 [0x99] 0x00) = true := by decide

end Sys2Proof.Tests
end

section
/-! SUPPORT. Receiving an integer when the stream ends before its last byte (00_scope.md R13,
41_codec_ops.md R156), and the block waiting in the middle of an operation. -/

namespace Sys2Proof.Machine

/-! ## Receiving an integer whose last bytes have not arrived -/

/-- With nothing in the stream an integer that still lacks a byte stays as it is. -/
theorem recvInt_of_rx_nil (d : Dest) (m : Nat) (got : List Byte) {s : State} (h : s.rx = []) :
    recvInt d (m + 1) got s = .waits s (.rxInt d (m + 1) got) := by
  rw [recvInt, recvU8_of_nil h]

/-- R142 to R145 on a stream that is `m + 1` bytes short: what has arrived is folded and held. -/
theorem recvInt_short (d : Dest) (m : Nat) (got bs : List Byte) (s : State) (h : s.rx = bs) :
    recvInt d (bs.length + (m + 1)) got s =
      .waits { s with rx := [], rxcrc := crcFold s.rxcrc bs, log := s.log ++ receiveActions bs }
        (.rxInt d (m + 1) (got ++ bs)) := by
  induction bs generalizing got s with
  | nil =>
    have hs : { s with rx := [] } = s := by rw [← h]
    rw [List.length_nil, Nat.zero_add, recvInt_of_rx_nil d m got h]
    simp [hs]
  | cons b bs ih =>
    rw [List.length_cons, Nat.succ_add, recvInt, recvU8_of_cons h]
    dsimp only
    rw [ih (got ++ [b]) _ rfl]
    simp

theorem op_rxInt_short (d : Dest) {n : Nat} {bs : List Byte} {s : State} (h : s.rx = bs)
    (hn : bs.length < n) :
    (Op.rxInt d n []).run s =
      .waits { s with rx := [], rxcrc := crcFold s.rxcrc bs, log := s.log ++ receiveActions bs }
        (.rxInt d (n - bs.length) bs) := by
  obtain ⟨m, rfl⟩ : ∃ m, n = bs.length + (m + 1) := ⟨n - bs.length - 1, by omega⟩
  rw [Nat.add_sub_cancel_left]
  exact recvInt_short d m [] bs s h

theorem op_rxInt_of_rx_nil (d : Dest) {left : Nat} (got : List Byte) {s : State} (h : s.rx = [])
    (hl : 0 < left) : (Op.rxInt d left got).run s = .waits s (.rxInt d left got) := by
  obtain ⟨m, rfl⟩ : ∃ m, left = m + 1 := ⟨left - 1, by omega⟩
  exact recvInt_of_rx_nil d m got h

/-! ## Waiting in the middle of an operation -/

theorem step_of_pos_op {s : State} {o : Op} {k : Prog} (h : s.pos = .op o k) :
    step s = .next (advance (.op o k) s) := by
  simp [step, h]

theorem advance_op_waits {o rest : Op} {k : Prog} {s t : State} (h : o.run s = .waits t rest) :
    advance (.op o k) s = { t with pos := .op rest k } := by
  rw [advance, run_op_waits h]

/-- R13: an operation that its port stops at once, and that leaves all of itself, waits. -/
theorem State.waiting_of_op_waits {s : State} {o : Op} {k : Prog} (hpos : s.pos = .op o k)
    (h : o.run s = .waits s o) : s.waiting := by
  rw [State.waiting, step_of_pos_op hpos, advance_op_waits h, ← hpos]

theorem exec_rxU64 (s : State) : exec .rxU64 s = .next ((Op.rxInt .ret 8 []).runAlone s) := by
  rfl

/-- Settles O12: the bytes that have arrived are folded one by one (`recvInt_short`), and the
position that is left finds the stream empty, so the next step stops at once. -/
theorem rxU64KeepsWhatItReceivedAndWaits : Obligations.RxU64KeepsWhatItReceivedAndWaits := by
  intro s bs hrx hlen
  have hrun := runAlone_waits (op_rxInt_short .ret hrx hlen)
  refine ⟨_, exec_rxU64 s, hrun, ?_⟩
  rw [hrun]
  exact State.waiting_of_op_waits rfl (op_rxInt_of_rx_nil .ret bs rfl (Nat.sub_pos_of_lt hlen))

end Sys2Proof.Machine
end

section
/-! SUPPORT. What one step can do (Machine/Step.lean): it powers on after a hard reset, serves a
request frame that has arrived, or runs pseudocode on from where the block is. -/

namespace Sys2Proof

/-! ## The bytes of a decoded request (30_encoding.md R84) -/

/-- The code a request of a command carries; `code` is that of an unrecognised one (R86, R87). -/
def Params.codeOf (p : Params) (code : BitVec 16) : Command → BitVec 16
  | .getVersion => p.cmdGetVersion
  | .getBase => cmdGetBaseAddress
  | .read => p.cmdRead
  | .write => p.cmdWrite
  | .execute => p.cmdExecute
  | .reset => p.cmdReset
  | .unrecognised => code

theorem Params.codeOf_commandOf (p : Params) (code : BitVec 16) :
    p.codeOf code (p.commandOf code) = code := by
  unfold Params.commandOf
  split_ifs <;> simp [Params.codeOf, *]

theorem decodeChecksum_eq_ok {mk : Byte → Instr} {bs rest : List Byte} {i : Instr}
    (h : decodeChecksum mk bs = .ok (i, rest)) : ∃ c, i = mk c ∧ bs = c :: rest := by
  cases bs with
  | nil => cases h
  | cons c bs => cases h; exact ⟨c, rfl, rfl⟩

/-- A field that has been taken is the encoding of its value. -/
theorem takeBytes_eq_leBytes {n w : Nat} {bs xs rest : List Byte}
    (h : takeBytes n bs = some (xs, rest)) (hw : w = 8 * n) :
    bs = leBytes n (leValue w xs) ++ rest := by
  obtain ⟨hlen, rfl⟩ := takeBytes_eq_some h
  rw [leBytes_leValue n w xs hlen hw]

theorem decodeRead_eq_ok {bs rest : List Byte} {i : Instr} (h : decodeRead bs = .ok (i, rest)) :
    ∃ addr len c, i = .read addr len c ∧ bs = leBytes 8 addr ++ leBytes 4 len ++ c :: rest := by
  unfold decodeRead at h
  split at h
  · cases h
  · next haddr =>
    split at h
    · cases h
    · next hlen =>
      obtain ⟨c, rfl, rfl⟩ := decodeChecksum_eq_ok h
      refine ⟨_, _, c, rfl, ?_⟩
      rw [takeBytes_eq_leBytes haddr rfl, takeBytes_eq_leBytes hlen rfl, List.append_assoc]

theorem decodeWrite_eq_ok {bs rest : List Byte} {i : Instr} (h : decodeWrite bs = .ok (i, rest)) :
    ∃ addr len data c, i = .write addr len data c ∧
      bs = leBytes 8 addr ++ leBytes 4 len ++ data ++ c :: rest := by
  unfold decodeWrite at h
  split at h
  · cases h
  · next haddr =>
    split at h
    · cases h
    · next hlen =>
      split at h
      · cases h
      · next data _ hdata =>
        obtain ⟨c, rfl, rfl⟩ := decodeChecksum_eq_ok h
        refine ⟨_, _, data, c, rfl, ?_⟩
        rw [takeBytes_eq_leBytes haddr rfl, takeBytes_eq_leBytes hlen rfl,
          (takeBytes_eq_some hdata).2, List.append_assoc, List.append_assoc]

theorem decodeExecute_eq_ok {bs rest : List Byte} {i : Instr}
    (h : decodeExecute bs = .ok (i, rest)) :
    ∃ addr c, i = .execute addr c ∧ bs = leBytes 8 addr ++ c :: rest := by
  unfold decodeExecute at h
  split at h
  · cases h
  · next haddr =>
    obtain ⟨c, rfl, rfl⟩ := decodeChecksum_eq_ok h
    exact ⟨_, c, rfl, takeBytes_eq_leBytes haddr rfl⟩

theorem decodeUnrecognised_eq_ok {p : Params} {code : BitVec 16} {bs rest : List Byte} {i : Instr}
    (h : decodeUnrecognised p code bs = .ok (i, rest)) :
    ∃ crc, i = .unrecognised code crc ∧ bs = crc.toList ++ rest := by
  unfold decodeUnrecognised at h
  split at h
  · cases h; exact ⟨none, rfl, rfl⟩
  all_goals obtain ⟨c, rfl, rfl⟩ := decodeChecksum_eq_ok h; exact ⟨some c, rfl, rfl⟩

/-- The bytes the decoder takes from the stream are the encoding of what it reads. -/
theorem encode_of_decode {p : Params} {bs rest : List Byte} {i : Instr}
    (h : decode p bs = .ok (i, rest)) : ∃ enc, encode p i = some enc ∧ bs = enc ++ rest := by
  match bs with
  | [] => cases h
  | [_] => cases h
  | b0 :: b1 :: bs =>
    have hcode := p.codeOf_commandOf (leValue 16 [b0, b1])
    have hbytes : leBytes 2 (leValue 16 [b0, b1]) = [b0, b1] := leBytes_leValue 2 16 _ rfl rfl
    simp only [decode] at h
    cases hcmd : p.commandOf (leValue 16 [b0, b1]) <;> simp only [hcmd, Params.codeOf] at h hcode
    case getVersion | getBase | reset =>
      obtain ⟨c, rfl, rfl⟩ := decodeChecksum_eq_ok h
      exact ⟨_, rfl, by simp [frameBytes, hcode, hbytes]⟩
    case read =>
      obtain ⟨addr, len, c, rfl, rfl⟩ := decodeRead_eq_ok h
      exact ⟨_, rfl, by simp [frameBytes, hcode, hbytes]⟩
    case write =>
      obtain ⟨addr, len, data, c, rfl, rfl⟩ := decodeWrite_eq_ok h
      exact ⟨_, rfl, by simp [frameBytes, hcode, hbytes]⟩
    case execute =>
      obtain ⟨addr, c, rfl, rfl⟩ := decodeExecute_eq_ok h
      exact ⟨_, rfl, by simp [frameBytes, hcode, hbytes]⟩
    case unrecognised =>
      obtain ⟨crc, rfl, rfl⟩ := decodeUnrecognised_eq_ok h
      exact ⟨_, rfl, by simp [hbytes]⟩

end Sys2Proof

namespace Sys2Proof.Machine

/-! ## A step, case by case -/

/-- The pseudocode of each request case (42_commands.md R181, R183 to R189). -/
def requestBody (p : Params) : Command → Prog
  | .getVersion => getVersionBody
  | .getBase => getBaseBody
  | .read => readBody
  | .write => writeBody p
  | .execute => executeBody p
  | .reset => resetBody
  | .unrecognised => unrecognisedBody p

theorem commandBody_eq_requestBody (p : Params) (code : BitVec 16) :
    commandBody p code = requestBody p (p.commandOf code) := by
  unfold commandBody requestBody
  cases p.commandOf code <;> rfl

/-- Executing a request is handling its frame, with the pseudocode of one of the seven cases. -/
theorem exec_of_encode {i : Instr} {s : State} {enc : List Byte}
    (h : encode s.params i = some enc) :
    ∃ c, exec i s = .next (receiveFrame enc (requestBody s.params c) s) := by
  cases i with
  | getVersion => cases h; exact ⟨.getVersion, rfl⟩
  | getBase => cases h; exact ⟨.getBase, rfl⟩
  | read => cases h; exact ⟨.read, rfl⟩
  | write => cases h; exact ⟨.write, rfl⟩
  | execute => cases h; exact ⟨.execute, rfl⟩
  | reset => cases h; exact ⟨.reset, rfl⟩
  | unrecognised => cases h; exact ⟨.unrecognised, rfl⟩
  | _ => cases h

/-- A frame that has arrived is handled from the stream it stands in. -/
theorem exec_of_decode {s : State} {i : Instr} {rest : List Byte}
    (h : decode s.params s.rx = .ok (i, rest)) :
    ∃ c, exec i { s with rx := rest } = .next ((frame (requestBody s.params c)).run s) := by
  obtain ⟨enc, henc, hrx⟩ := encode_of_decode h
  obtain ⟨c, hexec⟩ := exec_of_encode (s := { s with rx := rest }) henc
  refine ⟨c, hexec.trans ?_⟩
  simp only [receiveFrame, ← hrx]

/-- Running on from a position is one run, or, through the dispatch, two. -/
theorem advance_cases (p : Prog) (s : State) :
    advance p s = p.run s ∨
      (p.run s).pos = .dispatch ∧
        ∃ c, advance p s = (requestBody (p.run s).params c).run (p.run s) := by
  unfold advance
  split
  · next hpos => exact .inr ⟨hpos, _, by rw [commandBody_eq_requestBody]⟩
  · exact .inl rfl

theorem step_cases {s t : State} (h : step s = .next t) :
    (s.pos = .resetting ∧ t = powerOn s) ∨
      (s.pos = .done ∧ ∃ c, t = (frame (requestBody s.params c)).run s) ∨
      (s.pos = .done ∧ t = advance (frame .dispatch) s) ∨
      (s.pos ≠ .done ∧ s.pos ≠ .resetting ∧ t = advance s.pos s) := by
  unfold step at h
  split at h
  · next hpos =>
    split at h
    · next hdec =>
      obtain ⟨c, hexec⟩ := exec_of_decode hdec
      rw [hexec] at h
      cases h
      exact .inr (.inl ⟨hpos, c, rfl⟩)
    · cases h; exact .inr (.inr (.inl ⟨hpos, rfl⟩))
  · next hpos => cases h; exact .inl ⟨hpos, rfl⟩
  · next hdone hreset => cases h; exact .inr (.inr (.inr ⟨hdone, hreset, rfl⟩))

/-! ## The effect of a step -/

theorem advance_reaches (p : Prog) (s : State) : Reaches false s (advance p s) := by
  have hrun := p.run_reaches false s (by simp)
  rcases advance_cases p s with h | ⟨-, c, h⟩ <;> rw [h]
  · exact hrun
  · exact hrun.trans (Prog.run_reaches false _ _ (by simp))

/-- In one power cycle a step has the effect of running pseudocode. -/
theorem step_reaches {s t : State} (h : step s = .next t) (hpos : s.pos ≠ .resetting) :
    Reaches false s t := by
  rcases step_cases h with ⟨hr, -⟩ | ⟨-, c, rfl⟩ | ⟨-, rfl⟩ | ⟨-, -, rfl⟩
  · exact absurd hr hpos
  · exact Prog.run_reaches false _ s (by simp)
  · exact advance_reaches _ s
  · exact advance_reaches _ s

theorem step_of_resetting {s : State} (h : s.pos = .resetting) : step s = .next (powerOn s) := by
  simp [step, h]

/-- Settles O38: the effect of a step lists the port actions it adds to the log, and the bytes
received in them are the ones the stream has lost. -/
theorem stepConsumesTheStreamInOrder : Obligations.StepConsumesTheStreamInOrder := by
  intro s t h hpos
  obtain ⟨l, effect⟩ := step_reaches h hpos
  exact ⟨l, effect.log, effect.rx⟩

/-- Settles O39: the power-on keeps the arguments, and no other step has an effect on them. -/
theorem stepNeverWritesTheArguments : Obligations.StepNeverWritesTheArguments := by
  intro s t h
  by_cases hpos : s.pos = .resetting
  · rw [step_of_resetting hpos] at h
    cases h
    exact powerOn_params s
  · obtain ⟨l, effect⟩ := step_reaches h hpos
    exact effect.params

end Sys2Proof.Machine
end

section
/-! SUPPORT. `STATE` (10_state.md R24): an operation writes it only where it is `STATE <- p`,
whatever the ports answer, and every request comes to each of its ends in the right phase. -/

namespace Sys2Proof.Machine

/-! ## The phase after an operation -/

/-- The phase an operation will have led to once what it waits for has been done. -/
def Progress.phaseAfter : Progress → Phase
  | .done s => s.phase
  | .waits s rest => rest.phaseAfter s.phase

theorem recvU8_phase {s t : State} {b : Byte} (h : recvU8 s = some (b, t)) : t.phase = s.phase := by
  cases hr : s.rx with
  | nil => simp [recvU8_of_nil hr] at h
  | cons c rest => rw [recvU8_of_cons hr] at h; cases h; rfl

theorem txByte_phase {s t : State} {b : Byte} (h : txByte b s = some t) : t.phase = s.phase := by
  unfold txByte at h
  split at h <;> cases h <;> rfl

theorem sendU8_phase {s t : State} {b : Byte} (h : sendU8 b s = some t) : t.phase = s.phase := by
  unfold sendU8 at h
  split at h
  · cases h
  · next u hu => cases h; exact txByte_phase (t := u) hu

theorem memRead_phase {a : Addr} {s t : State} {b : Byte} (h : memRead a s = some (b, t)) :
    t.phase = s.phase := by
  unfold memRead at h
  split at h <;> cases h; rfl

theorem memWrite_phase {a : Addr} {s t : State} {b : Byte} (h : memWrite a b s = some t) :
    t.phase = s.phase := by
  unfold memWrite at h
  split at h <;> cases h; rfl

theorem recvInt_phaseAfter (d : Dest) (n : Nat) (got : List Byte) (s : State) :
    (recvInt d n got s).phaseAfter = s.phase := by
  induction n generalizing got s with
  | zero => exact State.setDest_phase s _ d
  | succ n ih =>
    unfold recvInt
    split
    · rfl
    · next h => exact (ih _ _).trans (recvU8_phase h)

theorem sendBytes_phaseAfter (bs : List Byte) (s : State) :
    (sendBytes bs s).phaseAfter = s.phase := by
  induction bs generalizing s with
  | nil => rfl
  | cons b bs ih =>
    unfold sendBytes
    split
    · rfl
    · next h => exact (ih _).trans (sendU8_phase h)

theorem recvData_phaseAfter (a : Addr) (l : BitVec 32) (n : Nat) (s : State) :
    (recvData a l n s).phaseAfter = s.phase := by
  induction n generalizing s with
  | zero => rfl
  | succ n ih =>
    unfold recvData
    split
    · rfl
    · next hrecv =>
      split
      · exact recvU8_phase hrecv
      · next hstore => exact (ih _).trans ((memWrite_phase hstore).trans (recvU8_phase hrecv))

theorem recvDataFrom_phaseAfter (a : Addr) (l : BitVec 32) (held : Option Byte) (s : State) :
    (recvDataFrom a l held s).phaseAfter = s.phase := by
  unfold recvDataFrom
  split
  · exact recvData_phaseAfter a l _ s
  · split
    · rfl
    · next u h => exact (recvData_phaseAfter a l _ _).trans (memWrite_phase (t := u) h)

theorem sendData_phaseAfter (a : Addr) (l : BitVec 32) (n : Nat) (s : State) :
    (sendData a l n s).phaseAfter = s.phase := by
  induction n generalizing s with
  | zero => rfl
  | succ n ih =>
    unfold sendData
    split
    · rfl
    · next hread =>
      split
      · exact memRead_phase hread
      · next hsend => exact (ih _).trans ((sendU8_phase hsend).trans (memRead_phase hread))

theorem sendDataFrom_phaseAfter (a : Addr) (l : BitVec 32) (held : Option Byte) (s : State) :
    (sendDataFrom a l held s).phaseAfter = s.phase := by
  unfold sendDataFrom
  split
  · exact sendData_phaseAfter a l _ s
  · split
    · rfl
    · next u h => exact (sendData_phaseAfter a l _ _).trans (sendU8_phase (t := u) h)

theorem recvIgnore_phaseAfter (l : BitVec 32) (n : Nat) (s : State) :
    (recvIgnore l n s).phaseAfter = s.phase := by
  induction n generalizing s with
  | zero => rfl
  | succ n ih =>
    unfold recvIgnore
    split
    · rfl
    · next t h => exact (ih _).trans (recvU8_phase (t := t) h)

theorem validateCrc_phaseAfter (s : State) : (validateCrc s).phaseAfter = s.phase := by
  cases hr : s.rx with
  | nil => simp [validateCrc, rxByte_of_nil hr, Progress.phaseAfter, Op.phaseAfter]
  | cons c rest => rw [validateCrc_complete c rest s hr]; rfl

theorem sendCrc_phaseAfter (s : State) : (sendCrc s).phaseAfter = s.phase := by
  unfold sendCrc
  split
  · rfl
  · next h => exact txByte_phase h

theorem readContext_phaseAfter (n : Nat) (got : List Byte) (s : State) :
    (readContext n got s).phaseAfter = s.phase := by
  induction n generalizing got s with
  | zero => rfl
  | succ n ih =>
    unfold readContext
    split
    · rfl
    · next h => exact (ih _ _).trans (memRead_phase h)

theorem callContext_phaseAfter (s : State) : (callContext s).phaseAfter = s.phase := by
  unfold callContext callOut
  cases s.calls <;> rfl

theorem writeBytes_phaseAfter (a : Addr) (bs : List Byte) (s : State) :
    (writeBytes a bs s).phaseAfter = s.phase := by
  induction bs generalizing a s with
  | nil => rfl
  | cons b bs ih =>
    unfold writeBytes
    split
    · rfl
    · next h => exact (ih _ _).trans (memWrite_phase h)

theorem readSlot_phaseAfter (n : Nat) (got : List Byte) (s : State) :
    (readSlot n got s).phaseAfter = s.phase := by
  induction n generalizing got s with
  | zero => rfl
  | succ n ih =>
    unfold readSlot
    split
    · rfl
    · next h => exact (ih _ _).trans (memRead_phase h)

/-- Over or stopped, an operation leads to the phase it is said to lead to. -/
theorem Op.run_phaseAfter (o : Op) (s : State) :
    (o.run s).phaseAfter = o.phaseAfter s.phase := by
  cases o with
  | setPhase p => rfl
  | rxStart => rfl
  | txStart => rfl
  | rxInt d n got => exact recvInt_phaseAfter d n got s
  | txInt n v => exact sendBytes_phaseAfter _ s
  | txBytes bs => exact sendBytes_phaseAfter bs s
  | checkPolicy => rfl
  | rxData a l => exact recvDataFrom_phaseAfter _ _ none _
  | rxDataFrom a l held => exact recvDataFrom_phaseAfter a l held s
  | txData a l => exact sendDataFrom_phaseAfter _ _ none _
  | txDataFrom a l held => exact sendDataFrom_phaseAfter a l held s
  | rxIgnoreData l => exact recvIgnore_phaseAfter _ _ _
  | rxIgnoreFrom l => exact recvIgnore_phaseAfter l _ s
  | rxValidateCrc => exact validateCrc_phaseAfter s
  | txCrc => exact sendCrc_phaseAfter s
  | txFlush =>
    simp only [Op.run, flushTx]
    cases s.flushReady <;> rfl
  | loadContext n got => exact readContext_phaseAfter n got s
  | execCall => exact callContext_phaseAfter s
  | storeSlot => exact writeBytes_phaseAfter _ _ s
  | storeBytes a bs => exact writeBytes_phaseAfter a bs s
  | loadSlot n got => exact readSlot_phaseAfter n got s

/-! ## The phases at the ends of a frame -/

/-- What is left of a piece of pseudocode comes to its ends in the right phase if the whole does. -/
theorem Prog.run_phasesRight (p : Prog) (s : State) (h : p.phasesRight s.phase = true) :
    (p.run s).pos.phasesRight (p.run s).phase = true := by
  induction p generalizing s with
  | done => exact h
  | dispatch => exact h
  | hardReset => exact h
  | resetting => exact h
  | op o next ih =>
    have hphase := o.run_phaseAfter s
    rw [Prog.phasesRight, ← hphase] at h
    cases hrun : o.run s with
    | done t => rw [run_op_done hrun]; rw [hrun] at h; exact ih t h
    | waits t rest => rw [run_op_waits hrun]; rw [hrun] at h; exact h
  | onCrcOk yes no ihyes ihno =>
    obtain ⟨hyes, hno⟩ := Bool.and_eq_true_iff.mp h
    rw [run_onCrcOk]
    split
    · exact ihyes s hyes
    · exact ihno s hno
  | onPolicyOk yes no ihyes ihno =>
    obtain ⟨hyes, hno⟩ := Bool.and_eq_true_iff.mp h
    rw [run_onPolicyOk]
    split
    · exact ihyes s hyes
    · exact ihno s hno

/-- Every request case starts in `DecodingFields` (42_commands.md R180, R181), for every value of
the two policy parameters. -/
theorem requestBody_phasesRight (p : Params) (c : Command) :
    (requestBody p c).phasesRight .decodingFields = true := by
  cases c with
  | getVersion => rfl
  | getBase => rfl
  | read => rfl
  | write =>
    simp only [requestBody, writeBody, rejected]
    cases p.policyFailCrc <;> rfl
  | execute =>
    simp only [requestBody, executeBody, rejected]
    cases p.policyFailCrc <;> rfl
  | reset => rfl
  | unrecognised =>
    simp only [requestBody, unrecognisedBody]
    cases p.unknownCmdCrc <;> rfl

/-- The start of an iteration sets the phase itself, whatever it was (R180). -/
theorem frame_phasesRight (body : Prog) (ph : Phase) :
    (frame body).phasesRight ph = body.phasesRight .decodingFields := rfl

/-! ## The invariant -/

theorem Prog.run_inv (p : Prog) {s : State} (hmem : s.mem.wf = true)
    (h : p.phasesRight s.phase = true) : (p.run s).inv := by
  obtain ⟨l, effect⟩ := p.run_reaches false s (by simp)
  exact ⟨effect.wf hmem, p.run_phasesRight s h⟩

theorem advance_inv (p : Prog) {s : State} (hmem : s.mem.wf = true)
    (h : p.phasesRight s.phase = true) : (advance p s).inv := by
  have hinv := p.run_inv hmem h
  rcases advance_cases p s with hadv | ⟨hpos, c, hadv⟩ <;> rw [hadv]
  · exact hinv
  · obtain ⟨hmem', hphase⟩ := hinv
    have hdecoding : (p.run s).phase = .decodingFields := by
      rw [hpos] at hphase
      exact of_decide_eq_true hphase
    exact Prog.run_inv _ hmem' (hdecoding ▸ requestBody_phasesRight _ c)

/-- After a hard reset nothing has been stored and the block is at the top of the loop (R260). -/
theorem powerOn_inv (s : State) : (powerOn s).inv := ⟨Memory.wf_nil, rfl⟩

/-- Settles O40: a step powers on or runs pseudocode that comes to its ends in the right phase: a
frame from its start, or what the invariant says of the position. -/
theorem everyStepKeepsTheInvariant : Obligations.EveryStepKeepsTheInvariant := by
  rintro s t ⟨hmem, hphase⟩ h
  rcases step_cases h with ⟨-, rfl⟩ | ⟨-, c, rfl⟩ | ⟨-, rfl⟩ | ⟨-, -, rfl⟩
  · exact powerOn_inv s
  · exact Prog.run_inv _ hmem (requestBody_phasesRight s.params c)
  · exact advance_inv _ hmem (frame_phasesRight .dispatch s.phase)
  · exact advance_inv _ hmem hphase

end Sys2Proof.Machine
end

section
/-! SUPPORT. The two accumulators (10_state.md R21, R22): a receive operation from a state with
another `TXCRC`, a transmit operation from one with another `RXCRC`, comes to the same state with
that other accumulator, whatever the ports answer. -/

namespace Sys2Proof.Machine

/-- Replace `TXCRC`. -/
def State.withTxcrc (v : Byte) (s : State) : State := { s with txcrc := v }

/-- Replace `RXCRC`. -/
def State.withRxcrc (v : Byte) (s : State) : State := { s with rxcrc := v }

/-- Change the state an operation has come to, over or stopped. -/
def Progress.map (f : State → State) : Progress → Progress
  | .done s => .done (f s)
  | .waits s rest => .waits (f s) rest

theorem eval_withTxcrc (src : Src) (v : Byte) (s : State) :
    src.eval (s.withTxcrc v) = src.eval s :=
  eval_of_same src rfl rfl rfl rfl rfl

theorem eval_withRxcrc (src : Src) (v : Byte) (s : State) :
    src.eval (s.withRxcrc v) = src.eval s :=
  eval_of_same src rfl rfl rfl rfl rfl

/-! ## Receiving, from another `TXCRC` -/

theorem recvU8_withTxcrc (v : Byte) (s : State) :
    recvU8 (s.withTxcrc v) = (recvU8 s).map fun r => (r.1, r.2.withTxcrc v) := by
  cases hr : s.rx with
  | nil => rw [recvU8_of_nil hr, recvU8_of_nil (s := s.withTxcrc v) hr]; rfl
  | cons b rest => rw [recvU8_of_cons hr, recvU8_of_cons (s := s.withTxcrc v) hr]; rfl

theorem memWrite_withTxcrc (a : Addr) (b v : Byte) (s : State) :
    memWrite a b (s.withTxcrc v) = (memWrite a b s).map (State.withTxcrc v) := by
  cases hw : inRanges s.noWrite a with
  | true =>
    rw [memWrite_of_unwritable b hw, memWrite_of_unwritable (s := s.withTxcrc v) b hw]; rfl
  | false => rw [memWrite_of_writable b hw, memWrite_of_writable (s := s.withTxcrc v) b hw]; rfl

theorem recvInt_withTxcrc (d : Dest) (n : Nat) (got : List Byte) (v : Byte) (s : State) :
    recvInt d n got (s.withTxcrc v) = (recvInt d n got s).map (State.withTxcrc v) := by
  induction n generalizing got s with
  | zero => cases d <;> rfl
  | succ n ih =>
    unfold recvInt
    rw [recvU8_withTxcrc]
    cases recvU8 s with
    | none => rfl
    | some r => exact ih _ r.2

theorem recvData_withTxcrc (a : Addr) (l : BitVec 32) (n : Nat) (v : Byte) (s : State) :
    recvData a l n (s.withTxcrc v) = (recvData a l n s).map (State.withTxcrc v) := by
  induction n generalizing s with
  | zero => rfl
  | succ n ih =>
    unfold recvData
    rw [recvU8_withTxcrc]
    rcases recvU8 s with _ | ⟨b, t⟩
    · rfl
    · simp only [Option.map_some]
      rw [show (t.withTxcrc v).dataAddr a = t.dataAddr a from rfl, memWrite_withTxcrc]
      cases memWrite (t.dataAddr a) b t with
      | none => rfl
      | some u => exact ih u.bumpCnt

theorem recvDataFrom_withTxcrc (a : Addr) (l : BitVec 32) (held : Option Byte) (v : Byte)
    (s : State) :
    recvDataFrom a l held (s.withTxcrc v) = (recvDataFrom a l held s).map (State.withTxcrc v) := by
  cases held with
  | none => exact recvData_withTxcrc a l _ v s
  | some b =>
    simp only [recvDataFrom]
    rw [show (s.withTxcrc v).dataAddr a = s.dataAddr a from rfl, memWrite_withTxcrc]
    cases memWrite (s.dataAddr a) b s with
    | none => rfl
    | some u => exact recvData_withTxcrc a l _ v u.bumpCnt

theorem recvIgnore_withTxcrc (l : BitVec 32) (n : Nat) (v : Byte) (s : State) :
    recvIgnore l n (s.withTxcrc v) = (recvIgnore l n s).map (State.withTxcrc v) := by
  induction n generalizing s with
  | zero => rfl
  | succ n ih =>
    unfold recvIgnore
    rw [recvU8_withTxcrc]
    rcases recvU8 s with _ | ⟨b, t⟩
    · rfl
    · exact ih t.bumpCnt

theorem validateCrc_withTxcrc (v : Byte) (s : State) :
    validateCrc (s.withTxcrc v) = (validateCrc s).map (State.withTxcrc v) := by
  cases hr : s.rx with
  | nil => simp only [validateCrc, rxByte_of_nil hr, rxByte_of_nil (s := s.withTxcrc v) hr]; rfl
  | cons c rest =>
    rw [validateCrc_complete c rest s hr, validateCrc_complete c rest (s.withTxcrc v) hr]; rfl

/-- The operations of the receive path (41_codec_ops.md R140, R142 to R145, R150, R152, R153). -/
def Op.isReceive : Op → Bool
  | .rxStart | .rxInt _ _ _ | .rxData _ _ | .rxDataFrom _ _ _ | .rxIgnoreData _ | .rxIgnoreFrom _
  | .rxValidateCrc => true
  | _ => false

/-- R22: no receive operation reads or writes `TXCRC`. -/
theorem Op.run_withTxcrc {o : Op} (ho : o.isReceive = true) (v : Byte) (s : State) :
    o.run (s.withTxcrc v) = (o.run s).map (State.withTxcrc v) := by
  cases o with
  | rxStart => rfl
  | rxInt d n got => exact recvInt_withTxcrc d n got v s
  | rxData a l =>
    simp only [Op.run, eval_withTxcrc]
    exact recvDataFrom_withTxcrc _ _ none v { s with cnt := 0 }
  | rxDataFrom a l held => exact recvDataFrom_withTxcrc a l held v s
  | rxIgnoreData l =>
    simp only [Op.run, eval_withTxcrc]
    exact recvIgnore_withTxcrc _ _ v { s with cnt := 0 }
  | rxIgnoreFrom l => exact recvIgnore_withTxcrc l _ v s
  | rxValidateCrc => exact validateCrc_withTxcrc v s
  | _ => cases ho

/-! ## Sending, from another `RXCRC` -/

theorem txByte_withRxcrc (b v : Byte) (s : State) :
    txByte b (s.withRxcrc v) = (txByte b s).map (State.withRxcrc v) := by
  simp only [txByte]
  rw [show (s.withRxcrc v).txRoom = s.txRoom from rfl]
  rcases s.txRoom with _ | _ | n <;> rfl

theorem sendU8_withRxcrc (b v : Byte) (s : State) :
    sendU8 b (s.withRxcrc v) = (sendU8 b s).map (State.withRxcrc v) := by
  simp only [sendU8, txByte_withRxcrc]
  cases txByte b s <;> rfl

theorem memRead_withRxcrc (a : Addr) (v : Byte) (s : State) :
    memRead a (s.withRxcrc v) = (memRead a s).map fun r => (r.1, r.2.withRxcrc v) := by
  cases hr : inRanges s.noRead a with
  | true => rw [memRead_of_unreadable hr, memRead_of_unreadable (s := s.withRxcrc v) hr]; rfl
  | false => rw [memRead_of_readable hr, memRead_of_readable (s := s.withRxcrc v) hr]; rfl

theorem sendBytes_withRxcrc (bs : List Byte) (v : Byte) (s : State) :
    sendBytes bs (s.withRxcrc v) = (sendBytes bs s).map (State.withRxcrc v) := by
  induction bs generalizing s with
  | nil => rfl
  | cons b bs ih =>
    unfold sendBytes
    rw [sendU8_withRxcrc]
    cases sendU8 b s with
    | none => rfl
    | some t => exact ih t

theorem sendData_withRxcrc (a : Addr) (l : BitVec 32) (n : Nat) (v : Byte) (s : State) :
    sendData a l n (s.withRxcrc v) = (sendData a l n s).map (State.withRxcrc v) := by
  induction n generalizing s with
  | zero => rfl
  | succ n ih =>
    unfold sendData
    rw [show (s.withRxcrc v).dataAddr a = s.dataAddr a from rfl, memRead_withRxcrc]
    rcases memRead (s.dataAddr a) s with _ | ⟨b, t⟩
    · rfl
    · simp only [Option.map_some]
      rw [sendU8_withRxcrc]
      cases sendU8 b t with
      | none => rfl
      | some u => exact ih u.bumpCnt

theorem sendDataFrom_withRxcrc (a : Addr) (l : BitVec 32) (held : Option Byte) (v : Byte)
    (s : State) :
    sendDataFrom a l held (s.withRxcrc v) = (sendDataFrom a l held s).map (State.withRxcrc v) := by
  cases held with
  | none => exact sendData_withRxcrc a l _ v s
  | some b =>
    simp only [sendDataFrom]
    rw [sendU8_withRxcrc]
    cases sendU8 b s with
    | none => rfl
    | some u => exact sendData_withRxcrc a l _ v u.bumpCnt

theorem sendCrc_withRxcrc (v : Byte) (s : State) :
    sendCrc (s.withRxcrc v) = (sendCrc s).map (State.withRxcrc v) := by
  simp only [sendCrc]
  rw [show (s.withRxcrc v).txcrc = s.txcrc from rfl, txByte_withRxcrc]
  cases txByte s.txcrc s <;> rfl

/-- The operations of the transmit path (41_codec_ops.md R141, R146 to R149, R151, R154). -/
def Op.isTransmit : Op → Bool
  | .txStart | .txInt _ _ | .txBytes _ | .txData _ _ | .txDataFrom _ _ _ | .txCrc => true
  | _ => false

/-- R21: no transmit operation reads or writes `RXCRC`. -/
theorem Op.run_withRxcrc {o : Op} (ho : o.isTransmit = true) (v : Byte) (s : State) :
    o.run (s.withRxcrc v) = (o.run s).map (State.withRxcrc v) := by
  cases o with
  | txStart => rfl
  | txInt n src =>
    simp only [Op.run, eval_withRxcrc]
    exact sendBytes_withRxcrc _ v s
  | txBytes bs => exact sendBytes_withRxcrc bs v s
  | txData a l =>
    simp only [Op.run, eval_withRxcrc]
    exact sendDataFrom_withRxcrc _ _ none v { s with cnt := 0 }
  | txDataFrom a l held => exact sendDataFrom_withRxcrc a l held v s
  | txCrc => exact sendCrc_withRxcrc v s
  | _ => cases ho

/-! ## The operations driven on their own (70_reset_and_hazards.md R270) -/

/-- A change of registers that leaves the position alone, and that an operation neither sees nor
undoes, is neither seen nor undone when the operation is driven on its own. -/
theorem Op.runAlone_map {o : Op} {f : State → State} {s : State}
    (hpos : ∀ s, (f s).pos = s.pos) (hat : ∀ s x, f (s.at x) = (f s).at x)
    (hrun : o.run (f s) = (o.run s).map f) : o.runAlone (f s) = f (o.runAlone s) := by
  cases h : o.run s with
  | done t => rw [h] at hrun; rw [runAlone_done h, runAlone_done hrun]
  | waits t rest =>
    rw [h] at hrun
    rw [runAlone_waits h, runAlone_waits hrun, hpos]
    exact (hat t _).symm

theorem exec_withTxcrc {i : Instr} (o : Op) (hexec : ∀ s, exec i s = .next (o.runAlone s))
    (ho : o.isReceive = true) (v : Byte) (s : State) :
    ∃ t, exec i s = .next t ∧ exec i { s with txcrc := v } = .next { t with txcrc := v } :=
  ⟨_, hexec s, (hexec _).trans (congrArg _ (Op.runAlone_map (f := State.withTxcrc v)
    (fun _ => rfl) (fun _ _ => rfl) (Op.run_withTxcrc ho v s)))⟩

theorem exec_withRxcrc {i : Instr} (o : Op) (hexec : ∀ s, exec i s = .next (o.runAlone s))
    (ho : o.isTransmit = true) (v : Byte) (s : State) :
    ∃ t, exec i s = .next t ∧ exec i { s with rxcrc := v } = .next { t with rxcrc := v } :=
  ⟨_, hexec s, (hexec _).trans (congrArg _ (Op.runAlone_map (f := State.withRxcrc v)
    (fun _ => rfl) (fun _ _ => rfl) (Op.run_withRxcrc ho v s)))⟩

/-- Settles O13: each instruction drives one operation of its own path on its own. -/
theorem accumulatorsAreIndependent : Obligations.AccumulatorsAreIndependent := by
  intro s v addr len
  refine ⟨?_, fun b h w d => ?_⟩
  · simp only [List.forall_mem_cons]
    exact ⟨exec_withTxcrc .rxStart (fun _ => rfl) rfl v s,
      exec_withTxcrc (.rxInt .ret 1 []) (fun _ => rfl) rfl v s,
      exec_withTxcrc (.rxInt .ret 2 []) (fun _ => rfl) rfl v s,
      exec_withTxcrc (.rxInt .ret 4 []) (fun _ => rfl) rfl v s,
      exec_withTxcrc (.rxInt .ret 8 []) exec_rxU64 rfl v s,
      exec_withTxcrc (.rxData (.imm addr) (.imm (len.setWidth 64))) (fun _ => rfl) rfl v s,
      exec_withTxcrc (.rxIgnoreData (.imm (len.setWidth 64))) (fun _ => rfl) rfl v s,
      exec_withTxcrc .rxValidateCrc (fun _ => rfl) rfl v s, List.forall_mem_nil _⟩
  · simp only [List.forall_mem_cons]
    exact ⟨exec_withRxcrc .txStart (fun _ => rfl) rfl v s,
      exec_withRxcrc (.txInt 1 (.imm (b.setWidth 64))) (fun _ => rfl) rfl v s,
      exec_withRxcrc (.txInt 2 (.imm (h.setWidth 64))) (fun _ => rfl) rfl v s,
      exec_withRxcrc (.txInt 4 (.imm (w.setWidth 64))) (fun _ => rfl) rfl v s,
      exec_withRxcrc (.txInt 8 (.imm d)) (fun _ => rfl) rfl v s,
      exec_withRxcrc (.txData (.imm addr) (.imm (len.setWidth 64))) (fun _ => rfl) rfl v s,
      exec_withRxcrc .txCrc (fun _ => rfl) rfl v s, List.forall_mem_nil _⟩

end Sys2Proof.Machine
end

section
/-! SUPPORT. What the outside supplies between steps (70_reset_and_hazards.md R274; 20_memory.md
R59): further bytes in the receive stream and further outcomes of calls. A run that a port has
stopped goes on from its position as if they had been there from the start (00_scope.md R13). -/

namespace Sys2Proof.Machine

/-- The host sends bytes and calls return: both join the end of what is there (log 8, 21). -/
def State.supply (s : State) (bs : List Byte) (os : List CallOutcome) : State :=
  { s with rx := s.rx ++ bs, calls := s.calls ++ os }

theorem State.hostSends_eq_supply (s : State) (bs : List Byte) :
    s.hostSends bs = s.supply bs [] := by
  simp [State.supply, State.hostSends]

theorem State.callReturns_eq_supply (s : State) (o : CallOutcome) :
    s.callReturns o = s.supply [] [o] := by
  simp [State.supply, State.callReturns]

theorem State.supply_nil (s : State) : s.supply [] [] = s := by
  simp [State.supply]

/-- An operation goes on with what the outside has supplied: what is over stays as it is, what a
port has stopped runs from its rest. -/
def Progress.goOn (bs : List Byte) (os : List CallOutcome) : Progress → Progress
  | .done s => .done (s.supply bs os)
  | .waits s rest => rest.run (s.supply bs os)

section
variable (bs : List Byte) (os : List CallOutcome)

/-! ## A port that has answered answers the same -/

theorem rxByte_supply {s t : State} {b : Byte} (h : rxByte s = some (b, t)) :
    rxByte (s.supply bs os) = some (b, t.supply bs os) := by
  cases hr : s.rx with
  | nil => rw [rxByte_of_nil hr] at h; cases h
  | cons c rest =>
    rw [rxByte_of_cons hr] at h
    cases h
    exact rxByte_of_cons (s := s.supply bs os) (by simp only [State.supply, hr, List.cons_append])

theorem recvU8_supply {s t : State} {b : Byte} (h : recvU8 s = some (b, t)) :
    recvU8 (s.supply bs os) = some (b, t.supply bs os) := by
  unfold recvU8 at h ⊢
  cases hr : rxByte s with
  | none => simp [hr] at h
  | some r =>
    rw [hr] at h
    cases h
    rw [rxByte_supply bs os hr]
    rfl

theorem txByte_supply {s t : State} {b : Byte} (h : txByte b s = some t) :
    txByte b (s.supply bs os) = some (t.supply bs os) := by
  unfold txByte at h ⊢
  rw [show (s.supply bs os).txRoom = s.txRoom from rfl]
  split at h <;> cases h <;> rfl

theorem sendU8_supply {s t : State} {b : Byte} (h : sendU8 b s = some t) :
    sendU8 b (s.supply bs os) = some (t.supply bs os) := by
  unfold sendU8 at h ⊢
  cases ht : txByte b s with
  | none => simp [ht] at h
  | some u =>
    rw [ht] at h
    cases h
    rw [txByte_supply bs os ht]
    rfl

theorem flushTx_supply {s t : State} (h : flushTx s = some t) :
    flushTx (s.supply bs os) = some (t.supply bs os) := by
  unfold flushTx at h ⊢
  rw [show (s.supply bs os).flushReady = s.flushReady from rfl]
  split at h <;> cases h
  next hf => rw [if_pos hf]; rfl

theorem memRead_supply {a : Addr} {s t : State} {b : Byte} (h : memRead a s = some (b, t)) :
    memRead a (s.supply bs os) = some (b, t.supply bs os) := by
  cases hr : inRanges s.noRead a with
  | true => rw [memRead_of_unreadable hr] at h; cases h
  | false =>
    rw [memRead_of_readable hr] at h
    cases h
    exact memRead_of_readable (s := s.supply bs os) hr

theorem memWrite_supply {a : Addr} {b : Byte} {s t : State} (h : memWrite a b s = some t) :
    memWrite a b (s.supply bs os) = some (t.supply bs os) := by
  cases hw : inRanges s.noWrite a with
  | true => rw [memWrite_of_unwritable b hw] at h; cases h
  | false =>
    rw [memWrite_of_writable b hw] at h
    cases h
    exact memWrite_of_writable (s := s.supply bs os) b hw

theorem callOut_supply {fn : Word} {args : List Word} {s t : State}
    (h : callOut fn args s = some t) :
    callOut fn args (s.supply bs os) = some (t.supply bs os) := by
  cases hc : s.calls with
  | nil => simp [callOut, hc] at h
  | cons o rest =>
    rw [callOut_of_cons fn args hc] at h
    cases h
    exact callOut_of_cons (s := s.supply bs os) fn args (by simp only [State.supply, hc]; rfl)

/-! ## A loop that a port has stopped

Where the first port of an iteration does not answer, the rest of the loop is the loop itself. -/

theorem recvInt_supply (d : Dest) (n : Nat) (got : List Byte) (s : State) :
    recvInt d n got (s.supply bs os) = (recvInt d n got s).goOn bs os := by
  induction n generalizing got s with
  | zero => cases d <;> rfl
  | succ n ih =>
    cases h : recvU8 s with
    | none => rw [recvInt, recvInt, h]; rfl
    | some r => simp only [recvInt, h, recvU8_supply bs os h]; exact ih _ r.2

theorem sendBytes_supply (xs : List Byte) (s : State) :
    sendBytes xs (s.supply bs os) = (sendBytes xs s).goOn bs os := by
  induction xs generalizing s with
  | nil => rfl
  | cons x xs ih =>
    cases h : sendU8 x s with
    | none => rw [sendBytes, sendBytes, h]; rfl
    | some t => simp only [sendBytes, h, sendU8_supply bs os h]; exact ih t

theorem readContext_supply (n : Nat) (got : List Byte) (s : State) :
    readContext n got (s.supply bs os) = (readContext n got s).goOn bs os := by
  induction n generalizing got s with
  | zero => rfl
  | succ n ih =>
    have ha : (s.supply bs os).addr = s.addr := rfl
    cases h : memRead (s.addr + BitVec.ofNat 64 got.length) s with
    | none => rw [readContext, readContext, h]; rfl
    | some r => simp only [readContext, h, ha, memRead_supply bs os h]; exact ih _ r.2

theorem writeBytes_supply (a : Addr) (xs : List Byte) (s : State) :
    writeBytes a xs (s.supply bs os) = (writeBytes a xs s).goOn bs os := by
  induction xs generalizing a s with
  | nil => rfl
  | cons x xs ih =>
    cases h : memWrite a x s with
    | none => rw [writeBytes, writeBytes, h]; rfl
    | some t => simp only [writeBytes, h, memWrite_supply bs os h]; exact ih _ t

theorem readSlot_supply (n : Nat) (got : List Byte) (s : State) :
    readSlot n got (s.supply bs os) = (readSlot n got s).goOn bs os := by
  induction n generalizing got s with
  | zero => rfl
  | succ n ih =>
    have ha : (s.supply bs os).slotAddr = s.slotAddr := rfl
    cases h : memRead (s.slotAddr + BitVec.ofNat 64 got.length) s with
    | none => rw [readSlot, readSlot, h]; rfl
    | some r => simp only [readSlot, h, ha, memRead_supply bs os h]; exact ih _ r.2

/-! ## The bulk loops go on from `CNT`

`CNT` counts the bytes moved, so the rest of a loop has as many iterations as `CNT` leaves. -/

theorem dataLeft_bumpCnt {s : State} {l : BitVec 32} {n : Nat} (h : s.dataLeft l = n + 1) :
    s.bumpCnt.dataLeft l = n := by
  simp only [State.dataLeft, State.bumpCnt_cnt] at h ⊢
  bv_omega

theorem recvU8_dataLeft {s t : State} {b : Byte} (h : recvU8 s = some (b, t)) (l : BitVec 32) :
    t.dataLeft l = s.dataLeft l := by
  cases hr : s.rx with
  | nil => rw [recvU8_of_nil hr] at h; cases h
  | cons c rest => rw [recvU8_of_cons hr] at h; cases h; rfl

theorem sendU8_dataLeft {s t : State} {b : Byte} (h : sendU8 b s = some t) (l : BitVec 32) :
    t.dataLeft l = s.dataLeft l := by
  unfold sendU8 txByte at h
  rcases hr : s.txRoom with _ | _ | n <;> rw [hr] at h <;> cases h <;> rfl

theorem memRead_dataLeft {a : Addr} {s t : State} {b : Byte} (h : memRead a s = some (b, t))
    (l : BitVec 32) : t.dataLeft l = s.dataLeft l := by
  unfold memRead at h
  split at h <;> cases h
  rfl

theorem memWrite_dataLeft {a : Addr} {b : Byte} {s t : State} (h : memWrite a b s = some t)
    (l : BitVec 32) : t.dataLeft l = s.dataLeft l := by
  unfold memWrite at h
  split at h <;> cases h
  rfl

theorem recvIgnore_supply (l : BitVec 32) (n : Nat) (s : State) (hn : s.dataLeft l = n) :
    recvIgnore l n (s.supply bs os) = (recvIgnore l n s).goOn bs os := by
  induction n generalizing s with
  | zero => rfl
  | succ n ih =>
    cases h : recvU8 s with
    | none =>
      have hstop : recvIgnore l (n + 1) s = .waits s (.rxIgnoreFrom l) := by rw [recvIgnore, h]
      rw [hstop, ← hn]
      rfl
    | some r =>
      simp only [recvIgnore, h, recvU8_supply bs os h]
      exact ih _ (dataLeft_bumpCnt ((recvU8_dataLeft h l).trans hn))

/-- An iteration of `rx_data` that has received its byte is the rest that holds that byte. -/
theorem recvData_of_recvU8 (a : Addr) {l : BitVec 32} {n : Nat} {s t : State} {b : Byte}
    (h : recvU8 s = some (b, t)) (hn : s.dataLeft l = n + 1) :
    recvData a l (n + 1) s = recvDataFrom a l (some b) t := by
  simp only [recvData, h, recvDataFrom]
  cases hw : memWrite (t.dataAddr a) b t with
  | none => rfl
  | some u =>
    have hleft : u.dataLeft l = n + 1 :=
      (memWrite_dataLeft hw l).trans ((recvU8_dataLeft h l).trans hn)
    simp only [hleft, Nat.add_sub_cancel]

/-- A held byte goes on as its store does, if the iterations after it do. -/
theorem recvDataFrom_held_supply (a : Addr) (l : BitVec 32) (b : Byte) (s : State)
    (later : ∀ (n : Nat) (u : State), s.dataLeft l = n + 1 → u.dataLeft l = n →
      recvData a l n (u.supply bs os) = (recvData a l n u).goOn bs os) :
    recvDataFrom a l (some b) (s.supply bs os) = (recvDataFrom a l (some b) s).goOn bs os := by
  have ha : (s.supply bs os).dataAddr a = s.dataAddr a := rfl
  cases hw : memWrite (s.dataAddr a) b s with
  | none => simp only [recvDataFrom, hw]; rfl
  | some t =>
    have hleft := memWrite_dataLeft hw l
    simp only [recvDataFrom, hw, ha, memWrite_supply bs os hw]
    rw [show (t.supply bs os).dataLeft l = t.dataLeft l from rfl]
    cases hn : t.dataLeft l with
    | zero => rfl
    | succ n => exact later n _ (hleft ▸ hn) (dataLeft_bumpCnt hn)

theorem recvData_supply (a : Addr) (l : BitVec 32) (n : Nat) (s : State) (hn : s.dataLeft l = n) :
    recvData a l n (s.supply bs os) = (recvData a l n s).goOn bs os := by
  induction n generalizing s with
  | zero => rfl
  | succ n ih =>
    cases h : recvU8 s with
    | none =>
      have hstop : recvData a l (n + 1) s = .waits s (.rxDataFrom a l none) := by rw [recvData, h]
      rw [hstop, ← hn]
      rfl
    | some r =>
      have hleft := (recvU8_dataLeft h l).trans hn
      rw [recvData_of_recvU8 a h hn, recvData_of_recvU8 a (recvU8_supply bs os h) hn]
      refine recvDataFrom_held_supply bs os a l _ _ fun m u hm hu => ?_
      obtain rfl : n = m := Nat.succ.inj (hleft.symm.trans hm)
      exact ih u hu

theorem recvDataFrom_supply (a : Addr) (l : BitVec 32) (held : Option Byte) (s : State) :
    recvDataFrom a l held (s.supply bs os) = (recvDataFrom a l held s).goOn bs os := by
  cases held with
  | none => exact recvData_supply bs os a l _ s rfl
  | some b =>
    exact recvDataFrom_held_supply bs os a l b s fun n u _ hu => recvData_supply bs os a l n u hu

/-- An iteration of `tx_data` that has read its byte is the rest that holds that byte. -/
theorem sendData_of_memRead (a : Addr) {l : BitVec 32} {n : Nat} {s t : State} {b : Byte}
    (h : memRead (s.dataAddr a) s = some (b, t)) (hn : s.dataLeft l = n + 1) :
    sendData a l (n + 1) s = sendDataFrom a l (some b) t := by
  simp only [sendData, h, sendDataFrom]
  cases hw : sendU8 b t with
  | none => rfl
  | some u =>
    have hleft : u.dataLeft l = n + 1 :=
      (sendU8_dataLeft hw l).trans ((memRead_dataLeft h l).trans hn)
    simp only [hleft, Nat.add_sub_cancel]

/-- A held byte goes on as its sending does, if the iterations after it do. -/
theorem sendDataFrom_held_supply (a : Addr) (l : BitVec 32) (b : Byte) (s : State)
    (later : ∀ (n : Nat) (u : State), s.dataLeft l = n + 1 → u.dataLeft l = n →
      sendData a l n (u.supply bs os) = (sendData a l n u).goOn bs os) :
    sendDataFrom a l (some b) (s.supply bs os) = (sendDataFrom a l (some b) s).goOn bs os := by
  cases hw : sendU8 b s with
  | none => simp only [sendDataFrom, hw]; rfl
  | some t =>
    have hleft := sendU8_dataLeft hw l
    simp only [sendDataFrom, hw, sendU8_supply bs os hw]
    rw [show (t.supply bs os).dataLeft l = t.dataLeft l from rfl]
    cases hn : t.dataLeft l with
    | zero => rfl
    | succ n => exact later n _ (hleft ▸ hn) (dataLeft_bumpCnt hn)

theorem sendData_supply (a : Addr) (l : BitVec 32) (n : Nat) (s : State) (hn : s.dataLeft l = n) :
    sendData a l n (s.supply bs os) = (sendData a l n s).goOn bs os := by
  induction n generalizing s with
  | zero => rfl
  | succ n ih =>
    cases h : memRead (s.dataAddr a) s with
    | none =>
      have hstop : sendData a l (n + 1) s = .waits s (.txDataFrom a l none) := by rw [sendData, h]
      rw [hstop, ← hn]
      rfl
    | some r =>
      have hleft := (memRead_dataLeft h l).trans hn
      rw [sendData_of_memRead a h hn, sendData_of_memRead a (memRead_supply bs os h) hn]
      refine sendDataFrom_held_supply bs os a l _ _ fun m u hm hu => ?_
      obtain rfl : n = m := Nat.succ.inj (hleft.symm.trans hm)
      exact ih u hu

theorem sendDataFrom_supply (a : Addr) (l : BitVec 32) (held : Option Byte) (s : State) :
    sendDataFrom a l held (s.supply bs os) = (sendDataFrom a l held s).goOn bs os := by
  cases held with
  | none => exact sendData_supply bs os a l _ s rfl
  | some b =>
    exact sendDataFrom_held_supply bs os a l b s fun n u _ hu => sendData_supply bs os a l n u hu

/-! ## Every operation, and pseudocode -/

theorem eval_supply (v : Src) (s : State) : v.eval (s.supply bs os) = v.eval s := by
  cases v <;> rfl

theorem validateCrc_supply (s : State) :
    validateCrc (s.supply bs os) = (validateCrc s).goOn bs os := by
  cases h : rxByte s with
  | none => simp only [validateCrc, h]; rfl
  | some r => simp only [validateCrc, h, rxByte_supply bs os h]; rfl

theorem sendCrc_supply (s : State) : sendCrc (s.supply bs os) = (sendCrc s).goOn bs os := by
  have hc : (s.supply bs os).txcrc = s.txcrc := rfl
  cases h : txByte s.txcrc s with
  | none => simp only [sendCrc, h]; rfl
  | some t => simp only [sendCrc, h, hc, txByte_supply bs os h]; rfl

theorem callContext_supply (s : State) :
    callContext (s.supply bs os) = (callContext s).goOn bs os := by
  have hc : (s.supply bs os).ctx = s.ctx := rfl
  cases h : callOut (s.ctx.headD 0) s.ctx.tail s with
  | none => simp only [callContext, h]; rfl
  | some t => simp only [callContext, h, hc, callOut_supply bs os h]; rfl

/-- An operation that a port has stopped goes on from its rest as if what the outside supplies
meanwhile had been there before (R13). -/
theorem Op.run_supply (o : Op) (s : State) : o.run (s.supply bs os) = (o.run s).goOn bs os := by
  cases o with
  | setPhase p => rfl
  | rxStart => rfl
  | txStart => rfl
  | rxInt d n got => exact recvInt_supply bs os d n got s
  | txInt n v => simp only [Op.run, eval_supply]; exact sendBytes_supply bs os _ s
  | txBytes xs => exact sendBytes_supply bs os xs s
  | checkPolicy => rfl
  | rxData a l =>
    simp only [Op.run, eval_supply]
    exact recvDataFrom_supply bs os _ _ none { s with cnt := 0 }
  | rxDataFrom a l held => exact recvDataFrom_supply bs os a l held s
  | txData a l =>
    simp only [Op.run, eval_supply]
    exact sendDataFrom_supply bs os _ _ none { s with cnt := 0 }
  | txDataFrom a l held => exact sendDataFrom_supply bs os a l held s
  | rxIgnoreData l =>
    simp only [Op.run, eval_supply]
    exact recvIgnore_supply bs os _ _ { s with cnt := 0 } rfl
  | rxIgnoreFrom l => exact recvIgnore_supply bs os l _ s rfl
  | rxValidateCrc => exact validateCrc_supply bs os s
  | txCrc => exact sendCrc_supply bs os s
  | txFlush =>
    cases h : flushTx s with
    | none => simp only [Op.run, h]; rfl
    | some t => simp only [Op.run, h, flushTx_supply bs os h]; rfl
  | loadContext n got => exact readContext_supply bs os n got s
  | execCall => exact callContext_supply bs os s
  | storeSlot => exact writeBytes_supply bs os _ _ s
  | storeBytes a xs => exact writeBytes_supply bs os a xs s
  | loadSlot n got => exact readSlot_supply bs os n got s

/-- The position a run has come to is what is left of it, with what the outside supplies meanwhile
(R24, R13). -/
theorem Prog.run_supply (p : Prog) (s : State) :
    p.run (s.supply bs os) = (p.run s).pos.run ((p.run s).supply bs os) := by
  induction p generalizing s with
  | done => rfl
  | dispatch => rfl
  | hardReset => rfl
  | resetting => rfl
  | op o next ih =>
    cases h : o.run s with
    | done t =>
      have hgo : o.run (s.supply bs os) = .done (t.supply bs os) := by rw [o.run_supply, h]; rfl
      rw [run_op_done h, run_op_done hgo, ih]
    | waits t rest =>
      rw [run_op_waits h]
      change _ = Prog.run (.op rest next) ((t.supply bs os).at (.op rest next))
      rw [Prog.run_at, Prog.run, Prog.run, o.run_supply, h]
      rfl
  | onCrcOk yes no ihyes ihno =>
    have hc : (s.supply bs os).crcOk = s.crcOk := rfl
    rw [run_onCrcOk, run_onCrcOk, hc]
    split
    · exact ihyes s
    · exact ihno s
  | onPolicyOk yes no ihyes ihno =>
    have hc : (s.supply bs os).policyOk = s.policyOk := rfl
    rw [run_onPolicyOk, run_onPolicyOk, hc]
    split
    · exact ihyes s
    · exact ihno s

end

/-- Settles O36: the further bytes are what the outside supplies (`Prog.run_supply`). -/
theorem moreBytesResumeWhereTheBlockStopped : Obligations.MoreBytesResumeWhereTheBlockStopped := by
  intro p s bs
  simpa only [State.hostSends_eq_supply] using (p.run_supply bs [] s).symm

end Sys2Proof.Machine
end

section
/-! SUPPORT. A step is a run from where the block is (Machine/Step.lean, log 2), at the top of the
loop too, where a frame that has arrived is decoded. So a step that ended inside a frame is gone on
with by the next, whatever the outside has supplied between them. -/

namespace Sys2Proof.Machine

/-! ## The dispatch comes once, at the end of a piece of pseudocode -/

/-- Whether a piece of pseudocode can come to the dispatch on `CMD` (42_commands.md R181). -/
def Prog.dispatches : Prog → Bool
  | .done => false
  | .dispatch => true
  | .hardReset => false
  | .resetting => false
  | .op _ next => next.dispatches
  | .onCrcOk yes no => yes.dispatches || no.dispatches
  | .onPolicyOk yes no => yes.dispatches || no.dispatches

/-- No request case comes to the dispatch again. -/
theorem requestBody_dispatches (p : Params) (c : Command) :
    (requestBody p c).dispatches = false := by
  cases c with
  | getVersion => rfl
  | getBase => rfl
  | read => rfl
  | write =>
    simp only [requestBody, writeBody, rejected]
    cases p.policyFailCrc <;> rfl
  | execute =>
    simp only [requestBody, executeBody, rejected]
    cases p.policyFailCrc <;> rfl
  | reset => rfl
  | unrecognised =>
    simp only [requestBody, unrecognisedBody]
    cases p.unknownCmdCrc <;> rfl

theorem Prog.run_pos_dispatches (p : Prog) (s : State) (h : p.dispatches = false) :
    (p.run s).pos.dispatches = false := by
  induction p generalizing s with
  | done => rfl
  | dispatch => cases h
  | hardReset => rfl
  | resetting => rfl
  | op o next ih =>
    cases hrun : o.run s with
    | done t => rw [run_op_done hrun]; exact ih t h
    | waits t rest => rw [run_op_waits hrun]; exact h
  | onCrcOk yes no ihyes ihno =>
    obtain ⟨hyes, hno⟩ := Bool.or_eq_false_iff.mp h
    rw [run_onCrcOk]
    split
    · exact ihyes s hyes
    · exact ihno s hno
  | onPolicyOk yes no ihyes ihno =>
    obtain ⟨hyes, hno⟩ := Bool.or_eq_false_iff.mp h
    rw [run_onPolicyOk]
    split
    · exact ihyes s hyes
    · exact ihno s hno

/-! ## Running on through the dispatch -/

theorem advance_of_pos_ne_dispatch {p : Prog} {s : State} (h : (p.run s).pos ≠ .dispatch) :
    advance p s = p.run s := by
  rcases advance_cases p s with hadv | ⟨hpos, -⟩
  · exact hadv
  · exact absurd hpos h

theorem advance_of_pos_dispatch {p : Prog} {s : State} (h : (p.run s).pos = .dispatch) :
    advance p s =
      (requestBody (p.run s).params ((p.run s).params.commandOf (p.run s).cmd)).run (p.run s) := by
  rw [advance, h, commandBody_eq_requestBody]

theorem advance_of_not_dispatches {p : Prog} (h : p.dispatches = false) (s : State) :
    advance p s = p.run s :=
  advance_of_pos_ne_dispatch fun hpos => by
    have hrun := p.run_pos_dispatches s h
    rw [hpos] at hrun
    cases hrun

theorem advance_congr {p q : Prog} {s t : State} (h : p.run s = q.run t) :
    advance p s = advance q t := by
  rw [advance, advance, h]

/-- Running on, stopping and running on again with what the outside has supplied meanwhile. -/
theorem advance_supply (p : Prog) (s : State) (bs : List Byte) (os : List CallOutcome) :
    advance (advance p s).pos ((advance p s).supply bs os) = advance p (s.supply bs os) := by
  have hrun := p.run_supply bs os s
  by_cases hpos : (p.run s).pos = .dispatch
  · have hcome : p.run (s.supply bs os) = (p.run s).supply bs os := by
      rw [hrun, hpos, run_dispatch, ← hpos]
      rfl
    have hbody := requestBody_dispatches (p.run s).params ((p.run s).params.commandOf (p.run s).cmd)
    rw [advance_of_pos_dispatch hpos, advance_of_not_dispatches (Prog.run_pos_dispatches _ _ hbody),
      ← Prog.run_supply, advance_of_pos_dispatch (by rw [hcome]; exact hpos), hcome]
    rfl
  · rw [advance_of_pos_ne_dispatch hpos]
    exact advance_congr hrun.symm

/-! ## The top of the loop -/

/-- A frame whose command code has arrived runs the case its code selects (R180, R181). -/
theorem serveFrame_of_code {s : State} {code : BitVec 16} {rest : List Byte}
    (h : s.rx = leBytes 2 code ++ rest) :
    serveFrame s = (frame (requestBody s.params (s.params.commandOf code))).run s := by
  have hcode := run_frame .dispatch code rest s h
  rw [serveFrame, advance_of_pos_dispatch (by rw [hcode]; rfl), hcode, run_frame _ code rest s h]
  exact Prog.run_at _ _ .dispatch

/-- What the decoder reads is executed by the case that its code selects. -/
theorem exec_of_decode_code {p : Params} {b0 b1 : Byte} {bs rest enc : List Byte} {i : Instr}
    (h : decode p (b0 :: b1 :: bs) = .ok (i, rest)) (henc : encode p i = some enc) {s : State}
    (hp : s.params = p) :
    exec i s =
      .next (receiveFrame enc (requestBody p (p.commandOf (leValue 16 [b0, b1]))) s) := by
  subst hp
  simp only [decode] at h
  cases hcmd : s.params.commandOf (leValue 16 [b0, b1]) <;> simp only [hcmd] at h
  case getVersion | getBase | reset =>
    obtain ⟨c, rfl, -⟩ := decodeChecksum_eq_ok h
    cases henc; rfl
  case read => obtain ⟨addr, len, c, rfl, -⟩ := decodeRead_eq_ok h; cases henc; rfl
  case write => obtain ⟨addr, len, data, c, rfl, -⟩ := decodeWrite_eq_ok h; cases henc; rfl
  case execute => obtain ⟨addr, c, rfl, -⟩ := decodeExecute_eq_ok h; cases henc; rfl
  case unrecognised => obtain ⟨crc, rfl, -⟩ := decodeUnrecognised_eq_ok h; cases henc; rfl

/-- Handling a decoded frame is receiving it byte by byte (R180, R181; log 10). -/
theorem exec_decoded_eq_serveFrame {s : State} {i : Instr} {rest : List Byte}
    (h : decode s.params s.rx = .ok (i, rest)) :
    exec i { s with rx := rest } = .next (serveFrame s) := by
  obtain ⟨enc, henc, hrx⟩ := encode_of_decode h
  match hs : s.rx with
  | [] => rw [hs] at h; cases h
  | [_] => rw [hs] at h; cases h
  | b0 :: b1 :: bs =>
    have hcode : s.rx = leBytes 2 (leValue 16 [b0, b1]) ++ bs := by
      rw [hs, leBytes_leValue 2 16 [b0, b1] rfl rfl]; rfl
    rw [hs] at h
    rw [exec_of_decode_code h henc (s := { s with rx := rest }) rfl, receiveFrame, ← hrx,
      serveFrame_of_code hcode]

/-- At the top of the loop a step serves a frame byte by byte, whether or not it has arrived. -/
theorem step_of_done {s : State} (h : s.pos = .done) : step s = .next (serveFrame s) := by
  unfold step
  split
  · split
    · next hdec => exact exec_decoded_eq_serveFrame hdec
    · rfl
  · next hreset => rw [h] at hreset; cases hreset
  · next hdone _ => exact absurd h hdone

/-! ## One step, and the step after it -/

/-- Where a step starts to run: the loop begins again where the last frame is over (R180, R191). -/
def Prog.entry : Prog → Prog
  | .done => frame .dispatch
  | p => p

theorem Prog.entry_of_ne_done {p : Prog} (h : p ≠ .done) : p.entry = p := by
  cases p with
  | done => exact absurd rfl h
  | _ => rfl

theorem step_eq_advance {s : State} (h : s.pos ≠ .resetting) :
    step s = .next (advance s.pos.entry s) := by
  cases hpos : s.pos with
  | done => exact step_of_done hpos
  | resetting => exact absurd hpos h
  | _ => simp only [step, hpos, Prog.entry]

/-- A step that ends inside a frame, and the next: one step with all that was supplied between
them. -/
theorem step_supply {s t : State} (h : step s = .next t) (hdone : t.pos ≠ .done)
    (hreset : t.pos ≠ .resetting) (bs : List Byte) (os : List CallOutcome) :
    step (t.supply bs os) = step (s.supply bs os) := by
  have hs : s.pos ≠ .resetting := fun hpos => by
    rw [step_of_resetting hpos] at h
    cases h
    exact hdone rfl
  rw [step_eq_advance hs] at h
  cases h
  have hentry : ((advance s.pos.entry s).supply bs os).pos.entry = (advance s.pos.entry s).pos :=
    Prog.entry_of_ne_done hdone
  rw [step_eq_advance (s := State.supply _ bs os) hreset, hentry, advance_supply,
    step_eq_advance (s := s.supply bs os) hs]
  rfl

/-- Settles O54: the further bytes are what the outside supplies between the steps. -/
theorem stepGoesOnWhenMoreBytesArrive : Obligations.StepGoesOnWhenMoreBytesArrive := by
  intro s t bs h hdone hreset
  simpa only [State.hostSends_eq_supply] using step_supply h hdone hreset bs []

end Sys2Proof.Machine
end

section
/-! SUPPORT. A block that a port has stopped waits there (00_scope.md R13; log 1); then the
operations of a frame at the port that does not answer. -/

namespace Sys2Proof.Machine

/-! ## Waiting -/

/-- What a port has stopped is stopped at once by the same port. -/
theorem Op.run_rest_of_waits {o rest : Op} {s t : State} (h : o.run s = .waits t rest) :
    rest.run t = .waits t rest := by
  have hgo := o.run_supply [] [] s
  rw [h, State.supply_nil, h, Progress.goOn, State.supply_nil] at hgo
  exact hgo.symm

theorem State.waiting_of_run_waits {o rest : Op} {s t : State} (h : o.run s = .waits t rest)
    (k : Prog) : State.waiting { t with pos := .op rest k } := by
  refine State.waiting_of_op_waits (o := rest) rfl ?_
  have hat := rest.run_at t (.op rest k)
  rw [Op.run_rest_of_waits h] at hat
  exact hat

/-! ## Operations at the port that does not answer -/

theorem op_rxValidateCrc_of_rx_nil {s : State} (h : s.rx = []) :
    Op.rxValidateCrc.run s = .waits s .rxValidateCrc := by
  simp [Op.run, validateCrc, rxByte_of_nil h]

theorem op_execCall_of_calls_nil {s : State} (h : s.calls = []) :
    Op.execCall.run s = .waits s .execCall := by
  simp [Op.run, callContext, callOut, h]

/-- `rx_data` at the first byte whose store never completes (20_memory.md R61). -/
theorem op_rxData_stuck (a l : Src) {data rest : List Byte} {b : Byte} {s : State}
    (hl : data.length < ((l.eval s).setWidth 32).toNat) (hr : s.rx = data ++ b :: rest)
    (hw : s.writable (a.eval s) data.length)
    (hs : inRanges s.noWrite (a.eval s + BitVec.ofNat 64 data.length) = true) :
    (Op.rxData a l).run s =
      .waits { s with rx := rest, rxcrc := crcFold s.rxcrc (data ++ [b]),
                      mem := s.mem.storeBytesAt (a.eval s) data,
                      cnt := BitVec.ofNat 32 data.length,
                      log := s.log ++ receiveAndStoreActions (a.eval s) data ++ [.rxByte b] }
        (.rxDataFrom (a.eval s) ((l.eval s).setWidth 32) (some b)) := by
  have hlen := ((l.eval s).setWidth 32).isLt
  have hstart : State.dataAddr { s with cnt := 0 } (a.eval s) = a.eval s := by
    simp [State.dataAddr]
  obtain ⟨m, hm⟩ : ∃ m, ((l.eval s).setWidth 32).toNat = data.length + (m + 1) :=
    ⟨((l.eval s).setWidth 32).toNat - data.length - 1, by omega⟩
  have hstuck := recvData_stuck (a.eval s) ((l.eval s).setWidth 32) data b rest m
    { s with cnt := 0 } hr (by rw [hstart]; exact hw) (by rw [hstart]; exact hs)
    (by simpa using hl.trans hlen)
  rw [hstart, ← hm] at hstuck
  simpa [Op.run, recvDataFrom, dataLeft_of_zero] using hstuck

/-- `tx_data` at the first byte that is never read (R61). -/
theorem op_txData_stuck (a l : Src) {n : Nat} {s : State}
    (hl : n < ((l.eval s).setWidth 32).toNat) (ha : s.accepts n) (hr : s.readable (a.eval s) n)
    (hs : inRanges s.noRead (a.eval s + BitVec.ofNat 64 n) = true) :
    (Op.txData a l).run s =
      .waits { s with txRoom := s.roomAfter n, reads := s.reads + n,
                      txcrc := crcFold s.txcrc (s.bytesAt (a.eval s) n),
                      cnt := BitVec.ofNat 32 n,
                      log := s.log ++ readAndSendActions (a.eval s) (s.bytesAt (a.eval s) n) }
        (.txDataFrom (a.eval s) ((l.eval s).setWidth 32) none) := by
  have hlen := ((l.eval s).setWidth 32).isLt
  have hstart : State.dataAddr { s with cnt := 0 } (a.eval s) = a.eval s := by
    simp [State.dataAddr]
  obtain ⟨m, hm⟩ : ∃ m, ((l.eval s).setWidth 32).toNat = n + (m + 1) :=
    ⟨((l.eval s).setWidth 32).toNat - n - 1, by omega⟩
  have hstuck := sendData_stuck (a.eval s) ((l.eval s).setWidth 32) n m
    { s with cnt := 0 } ha (by rw [hstart]; exact hr) (by rw [hstart]; exact hs)
    (by simpa using hl.trans hlen)
  rw [hstart, ← hm] at hstuck
  show sendData _ _ (State.dataLeft { s with cnt := 0 } _) _ = _
  rw [dataLeft_of_zero rfl, hstuck]
  congr 2
  exact BitVec.zero_add _

/-- The context at the first byte that is never read (R61, R187). -/
theorem op_loadContext_stuck {n : Nat} {s : State} (hn : n < contextSize)
    (h : s.readable s.addr n) (hs : inRanges s.noRead (s.addr + BitVec.ofNat 64 n) = true) :
    (Op.loadContext contextSize []).run s =
      .waits { s with reads := s.reads + n,
                      log := s.log ++ readActions s.addr (s.bytesAt s.addr n) }
        (.loadContext (contextSize - n) (s.bytesAt s.addr n)) := by
  obtain ⟨m, hm⟩ : ∃ m, contextSize = n + (m + 1) := ⟨contextSize - n - 1, by omega⟩
  have hstuck := readContext_stuck n m [] s (by simpa using h) (by simpa using hs)
  rw [hm, Nat.add_sub_cancel_left]
  simpa [Op.run] using hstuck

/-- The result slot at the first byte that is never stored (R61, R187). -/
theorem op_storeSlot_stuck {n : Nat} {s : State} (hn : n < 8) (h : s.writable (s.addr + 8) n)
    (hs : inRanges s.noWrite (s.addr + 8 + BitVec.ofNat 64 n) = true) :
    Op.storeSlot.run s =
      .waits { s with mem := s.mem.storeBytesAt (s.addr + 8) ((leBytes 8 s.ret).take n),
                      log := s.log ++ writeActions (s.addr + 8) ((leBytes 8 s.ret).take n) }
        (.storeBytes (s.addr + 8 + BitVec.ofNat 64 n) ((leBytes 8 s.ret).drop n)) := by
  have hlt : n < (leBytes 8 s.ret).length := by simpa using hn
  have htake : ((leBytes 8 s.ret).take n).length = n := List.length_take_of_le hlt.le
  have hstuck := writeBytes_stuck (s.addr + 8) ((leBytes 8 s.ret).take n) (leBytes 8 s.ret)[n]
    ((leBytes 8 s.ret).drop (n + 1)) s (by rw [htake]; exact h) (by rw [htake]; exact hs)
  rw [htake, List.getElem_cons_drop, List.take_append_drop] at hstuck
  exact hstuck

end Sys2Proof.Machine
end

section
/-! SUPPORT. Read, Write and Execute (42_commands.md R182, R185 to R187), part by part: their fields
received, the policy check, the right checksum, and their responses (30_encoding.md R85). -/

namespace Sys2Proof.Machine

/-! ## The fields -/

/-- The state in which a command code and an address have been received (R84, formats QA, QAL). -/
def State.addressReceived (s : State) (code : BitVec 16) (addr : Addr) (rest : List Byte) : State :=
  { s.received code (leBytes 2 code ++ leBytes 8 addr)
      (receiveActions (leBytes 2 code ++ leBytes 8 addr)) with
    phase := .decodingFields
    addr := addr
    rx := rest }

/-- The state in which a command code, an address and a length have been received (R84, formats QAL
and QALD). -/
def State.headerReceived (s : State) (code : BitVec 16) (addr : Addr) (len : BitVec 32)
    (rest : List Byte) : State :=
  { s.received code (echoHeader code addr len) (receiveActions (echoHeader code addr len)) with
    phase := .decodingFields
    addr := addr
    len := len
    rx := rest }

theorem run_frame_address (k : Prog) {code : BitVec 16} {addr : Addr} {rest : List Byte} {s : State}
    (h : s.rx = leBytes 2 code ++ leBytes 8 addr ++ rest) :
    (frame (.op (.rxInt .addr 8 []) k)).run s = k.run (s.addressReceived code addr rest) := by
  rw [run_frame _ code (leBytes 8 addr ++ rest) s (by rw [h, List.append_assoc]),
    run_op_done (op_rxInt_complete .addr (bs := leBytes 8 addr) (rest := rest) rfl (by simp)),
    State.setDest_addr_eq, leValue_leBytes 8 64 addr rfl]
  simp only [State.addressReceived, State.received, crc8_append, receiveActions_append,
    List.append_assoc]

theorem run_frame_header (k : Prog) {code : BitVec 16} {addr : Addr} {len : BitVec 32}
    {rest : List Byte} {s : State} (h : s.rx = echoHeader code addr len ++ rest) :
    (frame (Prog.seq [.rxInt .addr 8 [], .rxInt .len 4 []] k)).run s =
      k.run (s.headerReceived code addr len rest) := by
  rw [seq_cons, seq_cons, seq_nil,
    run_frame_address _ (code := code) (addr := addr) (rest := leBytes 4 len ++ rest)
      (by rw [h, echoHeader, List.append_assoc]),
    run_op_done (op_rxInt_complete .len (bs := leBytes 4 len) (rest := rest) rfl (by simp)),
    State.setDest_len_eq, leValue_leBytes_setWidth 4 32 len rfl (by decide)]
  simp only [State.addressReceived, State.headerReceived, State.received, echoHeader, crc8_append,
    crcFold_append, receiveActions_append, List.append_assoc]

/-! ## The policy -/

/-- The state in which the policy check has had its outcome (R182). -/
def State.policyChecked (s : State) (ok : Bool) : State := { s with policyOk := ok }

theorem run_policy_passed (yes no : Prog) {s : State} (h : s.params.guardAddress ≤ s.addr) :
    (Prog.op .checkPolicy (.onPolicyOk yes no)).run s = yes.run (s.policyChecked true) := by
  simp [run_onPolicyOk, State.policyChecked, h]

theorem run_policy_failed (yes no : Prog) {s : State} (h : s.addr < s.params.guardAddress) :
    (Prog.op .checkPolicy (.onPolicyOk yes no)).run s = no.run (s.policyChecked false) := by
  simp [run_onPolicyOk, State.policyChecked, BitVec.not_le.mpr h]

/-! ## The checksum -/

/-- The state in which the checksum byte of a request has been found right (R190). -/
def State.checksumRight (s : State) (payload rest : List Byte) : State :=
  { s with phase := .validatingCrc, rx := rest, crcOk := true,
           log := s.log ++ [.rxByte (crc8 payload)] }

theorem run_validated_right (k : Prog) {s : State} {payload rest : List Byte}
    (hrx : s.rx = crc8 payload :: rest) (hcrc : s.rxcrc = crc8 payload) :
    (validated k).run s = k.run (s.checksumRight payload rest) :=
  run_validated_ok k s hrx hcrc.symm

/-! ## Write (R186) -/

theorem eval_len_setWidth (s : State) : (Src.len.eval s).setWidth 32 = s.len := by
  simp [Src.eval]

theorem write_frameBytes (code : BitVec 16) (addr : Addr) (len : BitVec 32) (data : List Byte)
    (crc : Byte) (rest : List Byte) :
    frameBytes code (leBytes 8 addr ++ leBytes 4 len ++ data) crc ++ rest =
      echoHeader code addr len ++ (data ++ crc :: rest) := by
  simp [frameBytes, echoHeader]

theorem run_writeBody_passed (p : Params) {code : BitVec 16} {addr : Addr} {len : BitVec 32}
    {rest : List Byte} {s : State} (h : s.rx = echoHeader code addr len ++ rest)
    (hg : s.params.guardAddress ≤ addr) :
    (frame (writeBody p)).run s =
      (Prog.op (.rxData .addr .len) (validated respondWrote)).run
        ((s.headerReceived code addr len rest).policyChecked true) :=
  (run_frame_header _ h).trans (run_policy_passed _ _ hg)

theorem exec_write_passed {s : State} {addr : Addr} (len : BitVec 32) (data : List Byte)
    (crc : Byte) (hg : s.params.guardAddress ≤ addr) :
    exec (.write addr len data crc) s =
      .next ((Prog.op (.rxData .addr .len) (validated respondWrote)).run
        ((s.headerReceived s.params.cmdWrite addr len (data ++ crc :: s.rx)).policyChecked true)) :=
  congrArg _ (run_writeBody_passed s.params (s := { s with rx := _ }) (write_frameBytes ..) hg)

theorem exec_write_failed {s : State} {addr : Addr} (len : BitVec 32) (data : List Byte)
    (crc : Byte) (hg : addr < s.params.guardAddress) :
    exec (.write addr len data crc) s =
      .next ((Prog.op (.rxIgnoreData .len) (rejected s.params .invalidArgument)).run
        ((s.headerReceived s.params.cmdWrite addr len
          (data ++ crc :: s.rx)).policyChecked false)) :=
  congrArg _ ((run_frame_header (s := { s with rx := _ }) _ (write_frameBytes ..)).trans
    (run_policy_failed _ _ hg))

/-! ## Read (R185) -/

theorem read_frameBytes (code : BitVec 16) (addr : Addr) (len : BitVec 32) (crc : Byte)
    (rest : List Byte) :
    frameBytes code (leBytes 8 addr ++ leBytes 4 len) crc ++ rest =
      echoHeader code addr len ++ crc :: rest := by
  simp [frameBytes, echoHeader]

/-- The state in which a Read has been received and its checksum found right. -/
def State.readAccepted (s : State) (addr : Addr) (len : BitVec 32) : State :=
  (s.headerReceived s.params.cmdRead addr len s.rx).checksumRight
    (echoHeader s.params.cmdRead addr len) s.rx

theorem State.readAccepted_bytesAt (s : State) (addr : Addr) (len : BitVec 32) (a : Addr)
    (n : Nat) :
    (s.readAccepted addr len).bytesAt a n = s.bytesAt a n :=
  State.bytesAt_of_same rfl rfl rfl rfl a n

theorem State.readAccepted_transmitted (s : State) (addr : Addr) (len : BitVec 32) :
    (s.readAccepted addr len).transmitted = s.transmitted := by
  simp [State.transmitted, State.readAccepted, State.checksumRight, State.headerReceived,
    State.received, sentBytes]

theorem exec_read_right (s : State) (addr : Addr) (len : BitVec 32) :
    exec (.read addr len (crc8 (echoHeader s.params.cmdRead addr len))) s =
      .next (respondData.run (s.readAccepted addr len)) :=
  congrArg _ ((run_frame_header (s := { s with rx := _ }) _ (read_frameBytes ..)).trans
    (run_validated_right _ rfl rfl))

/-! ## Responses (30_encoding.md R85) -/

/-- A response of integer fields that ends the iteration is one answer (R191). -/
theorem run_respond_endFrame (fs : List (Nat × Src)) {s : State} {payload : List Byte}
    (hp : payload = leBytes 2 s.cmd ++ fieldBytes s fs) (h : s.accepts (payload.length + 1)) :
    (respond (txFields fs) endFrame).run s = s.answer payload := by
  rw [run_respond fs endFrame s payload hp h]
  rfl

theorem echoHeader_length (code : BitVec 16) (addr : Addr) (len : BitVec 32) :
    (echoHeader code addr len).length = 14 := by
  simp [echoHeader]

/-- Format SAL. -/
theorem run_respondWrote {s : State} (h : s.accepts 15) :
    respondWrote.run s = s.answer (echoHeader s.cmd s.addr s.len) := by
  refine run_respond_endFrame [(8, .addr), (4, .len)] ?_ (by rw [echoHeader_length]; exact h)
  simp [fieldBytes, Src.eval, echoHeader, leBytes_setWidth 4 32 s.len]

/-- Format SAR. -/
theorem run_respondResult {s : State} (h : s.accepts 19) :
    respondResult.run s = s.answer (leBytes 2 s.cmd ++ leBytes 8 s.addr ++ leBytes 8 s.result) := by
  refine run_respond_endFrame [(8, .addr), (8, .result)] ?_ (by simpa using h)
  simp [fieldBytes, Src.eval]

/-- The state in which a Read's response has been sent up to its data (format SALD). -/
def State.headerSent (s : State) : State :=
  { s with phase := .responding, txcrc := crc8 (echoHeader s.cmd s.addr s.len),
           txRoom := s.roomAfter 14,
           log := s.log ++ sendActions (echoHeader s.cmd s.addr s.len) }

theorem State.headerSent_bytesAt (s : State) (a : Addr) (n : Nat) :
    s.headerSent.bytesAt a n = s.bytesAt a n :=
  State.bytesAt_of_same rfl rfl rfl rfl a n

theorem State.headerSent_transmitted (s : State) :
    s.headerSent.transmitted = s.transmitted ++ echoHeader s.cmd s.addr s.len := by
  simp [State.transmitted, State.headerSent]

theorem run_respondData {s : State} (h : s.accepts 14) :
    respondData.run s =
      (Prog.op (.txData .addr .len) (.op .txCrc endFrame)).run s.headerSent := by
  have hfields : ∀ ph v, fieldBytes { s with phase := ph, txcrc := v }
      [(2, .cmd), (8, .addr), (4, .len)] = echoHeader s.cmd s.addr s.len := fun _ _ => by
    simp only [fieldBytes, Src.eval, echoHeader, List.flatMap_cons, List.flatMap_nil,
      List.append_nil, List.append_assoc, leBytes_setWidth 2 16 s.cmd (by decide) (by decide),
      leBytes_setWidth 4 32 s.len (by decide) (by decide)]
  have hsplit : respondData = Prog.seq [.setPhase .responding, .txStart]
      (Prog.seq (txFields [(2, .cmd), (8, .addr), (4, .len)])
        (.op (.txData .addr .len) (.op .txCrc endFrame))) := rfl
  rw [hsplit, seq_cons, seq_cons, seq_nil, run_setPhase, run_txStart,
    run_txFields _ _ _ (by rw [hfields, echoHeader_length]; exact h), hfields, echoHeader_length]
  rfl

/-- Format SALD, each byte of the data read and sent (R53, R185). -/
theorem run_respondData_complete {s : State} (h : s.accepts (15 + s.len.toNat))
    (hr : s.readable s.addr s.len.toNat) :
    respondData.run s = { s with
      txcrc := crc8 (echoHeader s.cmd s.addr s.len ++ s.bytesAt s.addr s.len.toNat)
      phase := .awaitCommand
      pos := .done
      cnt := s.len
      reads := s.reads + s.len.toNat
      txRoom := s.roomAfter (15 + s.len.toNat)
      log := s.log ++ sendActions (echoHeader s.cmd s.addr s.len) ++
        readAndSendActions s.addr (s.bytesAt s.addr s.len.toNat) ++
        sendActions [crc8 (echoHeader s.cmd s.addr s.len ++ s.bytesAt s.addr s.len.toNat)] } := by
  have hlen := eval_len_setWidth s.headerSent
  have hdata := op_txData_complete .addr .len (s := s.headerSent)
    (by rw [hlen]; exact State.accepts_of_room (s := s) (m := 14)
          (s.accepts_of_le h (by simp only [State.headerSent]; omega)) rfl)
    (by rw [hlen]; exact hr)
  rw [hlen] at hdata
  rw [run_respondData (s.accepts_of_le h (by omega)), run_op_done hdata,
    run_op_done (op_txCrc_complete (State.accepts_of_room (s := s) (m := 14 + s.len.toNat)
      (s.accepts_of_le h (by omega)) ?_))]
  · have hcount : 14 + s.len.toNat + 1 = 15 + s.len.toNat := by omega
    simp only [endFrame, run_setPhase, run_done, State.headerSent, State.roomAfter, Option.map_map,
      Function.comp_def, Nat.sub_sub, hcount, crc8_append, sendActions_cons, sendActions_nil]
    rfl
  · exact s.roomAfter_add 14 s.len.toNat

/-! ## Execute (R187) -/

theorem execute_frameBytes (code : BitVec 16) (addr : Addr) (crc : Byte) (rest : List Byte) :
    frameBytes code (leBytes 8 addr) crc ++ rest =
      leBytes 2 code ++ leBytes 8 addr ++ crc :: rest := by
  simp [frameBytes]

theorem exec_execute_failed {s : State} {addr : Addr} (crc : Byte)
    (hg : addr < s.params.guardAddress) :
    exec (.execute addr crc) s =
      .next ((rejected s.params .invalidArgument).run
        ((s.addressReceived s.params.cmdExecute addr (crc :: s.rx)).policyChecked false)) :=
  congrArg _ ((run_frame_address (s := { s with rx := _ }) _ (execute_frameBytes ..)).trans
    (run_policy_failed _ _ hg))

end Sys2Proof.Machine
end

section
/-! SUPPORT. Frames that reach no memory (20_memory.md R51, R71): those whose pseudocode has no
memory operation, and a Write or an Execute below the guard. -/

namespace Sys2Proof.Machine

/-! ## Pseudocode without a memory operation -/

/-- R51: pseudocode without a memory operation performs no action on the memory, over or stopped. -/
theorem exec_silent {i : Instr} {p : Prog} {s u : State} (hexec : exec i s = .next (p.run u))
    (hmem : u.mem = s.mem) (hlog : u.log = s.log) (hp : p.isQuiet = true) :
    ∃ t l, exec i s = .next t ∧ t.mem = s.mem ∧ t.log = s.log ++ l ∧
      ∀ a ∈ l, a.touchesMemory = false := by
  obtain ⟨l, effect⟩ := p.run_reaches true u fun _ => hp
  obtain ⟨hsilent, hkept⟩ := effect.silent rfl
  exact ⟨_, l, hexec, hkept.trans hmem, hlog ▸ effect.log, hsilent⟩

/-- A request is as quiet as its case. -/
theorem exec_request_silent {i : Instr} {body : Prog} {enc : List Byte} {s : State}
    (hexec : exec i s = .next (receiveFrame enc body s)) (hbody : body.isQuiet = true) :
    ∃ t l, exec i s = .next t ∧ t.mem = s.mem ∧ t.log = s.log ++ l ∧
      ∀ a ∈ l, a.touchesMemory = false :=
  exec_silent hexec rfl rfl hbody

theorem unrecognisedBody_isQuiet (p : Params) : (unrecognisedBody p).isQuiet = true := by
  unfold unrecognisedBody
  cases p.unknownCmdCrc <;> rfl

/-- Settles O26: none of these frames' pseudocode has a memory operation. -/
theorem otherFramesUseNoMemoryPort : Obligations.OtherFramesUseNoMemoryPort := by
  intro s crc code c
  simp only [List.forall_mem_cons]
  exact ⟨exec_request_silent (body := getVersionBody) rfl rfl,
    exec_request_silent (body := getBaseBody) rfl rfl,
    exec_request_silent (body := resetBody) rfl rfl,
    exec_request_silent rfl (unrecognisedBody_isQuiet s.params),
    exec_silent (p := raiseError .invalidCrc) rfl rfl rfl rfl,
    exec_silent (p := raiseError .invalidCommand) rfl rfl rfl rfl,
    exec_silent (p := raiseError .invalidArgument) rfl rfl rfl rfl, List.forall_mem_nil _⟩

/-! ## Below the guard -/

theorem receiveActions_silent (bs : List Byte) :
    ∀ a ∈ receiveActions bs, a.touchesMemory = false := by
  simp [receiveActions, PortAction.touchesMemory]

theorem sendActions_silent (bs : List Byte) : ∀ a ∈ sendActions bs, a.touchesMemory = false := by
  simp [sendActions, PortAction.touchesMemory]

/-- R233: the Invalid-Argument frame, its checksum by 40_crc8.md. -/
theorem errorFrame_invalidArgument :
    errorFrame .invalidArgument = [0x06, 0x00, 0x03, 0x00, 0x4B] := by decide +kernel

/-- From `s` to `t` no memory port has been used, and of bytes only the Invalid-Argument frame has
been sent (R71). -/
def RejectedSilently (s t : State) : Prop :=
  ∃ l, t.mem = s.mem ∧ t.log = s.log ++ l ∧ (∀ a ∈ l, a.touchesMemory = false) ∧
    t.transmitted = s.transmitted ++ [0x06, 0x00, 0x03, 0x00, 0x4B]

theorem answerError_log (s : State) (e : ErrorCode) :
    (s.answerError e).log = s.log ++ sendActions (errorFrame e) := rfl

theorem answerError_mem (s : State) (e : ErrorCode) : (s.answerError e).mem = s.mem := rfl

theorem answerError_rejectedSilently {s u : State} {bs : List Byte} (hmem : u.mem = s.mem)
    (hlog : u.log = s.log ++ receiveActions bs) :
    RejectedSilently s (u.answerError .invalidArgument) := by
  have hall := answerError_log u .invalidArgument
  rw [hlog, List.append_assoc] at hall
  refine ⟨_, (answerError_mem u _).trans hmem, hall, fun a ha => ?_, ?_⟩
  · rcases List.mem_append.mp ha with h | h
    · exact receiveActions_silent bs a h
    · exact sendActions_silent (errorFrame .invalidArgument) a h
  · rw [State.transmitted, hall]
    simp only [sentBytes_append, sentBytes_receiveActions, sentBytes_sendActions, List.nil_append,
      errorFrame_invalidArgument, State.transmitted]

/-- The tail of a rejected request, under both values of `POLICY_FAIL_CRC` (42_commands.md R186,
R187, D7). -/
theorem run_rejected_silently (p : Params) {s u : State} {bs rest : List Byte} {c : Byte}
    (hmem : u.mem = s.mem) (hlog : u.log = s.log ++ receiveActions bs) (hrx : u.rx = c :: rest)
    (hroom : u.accepts 5) : RejectedSilently s ((rejected p .invalidArgument).run u) := by
  unfold rejected
  cases p.policyFailCrc with
  | consumeMasked =>
    simp only [run_op_done (op_rxValidateCrc_complete hrx)]
    rw [run_raiseError _ _ (by exact hroom)]
    exact answerError_rejectedSilently (bs := bs ++ [c]) hmem (by simp [hlog])
  | skip =>
    simp only [run_raiseError _ _ hroom]
    exact answerError_rejectedSilently hmem hlog

theorem exec_of_rejectedSilently {i : Instr} {s t : State} (hexec : exec i s = .next t)
    (h : RejectedSilently s t) :
    ∃ t l, exec i s = .next t ∧ t.mem = s.mem ∧ t.log = s.log ++ l ∧
      (∀ a ∈ l, a.touchesMemory = false) ∧
      t.transmitted = s.transmitted ++ [0x06, 0x00, 0x03, 0x00, 0x4B] := by
  obtain ⟨l, hl⟩ := h
  exact ⟨t, l, hexec, hl⟩

/-- Settles O25: the data of a Write is drained without an access, an Execute has none, and both end
in the tail of a rejected request. -/
theorem belowTheGuardNothingIsTouched : Obligations.BelowTheGuardNothingIsTouched := by
  intro s addr hg hroom
  refine ⟨fun len data crc hlen => ?_, fun crc => ?_⟩
  · have hdrain := op_rxIgnoreData_complete .len (data := data) (rest := crc :: s.rx)
      (s := (s.headerReceived s.params.cmdWrite addr len (data ++ crc :: s.rx)).policyChecked false)
      (by rw [eval_len_setWidth]; exact hlen) rfl
    refine exec_of_rejectedSilently (exec_write_failed len data crc hg) ?_
    rw [run_op_done hdrain]
    exact run_rejected_silently s.params (bs := echoHeader s.params.cmdWrite addr len ++ data) rfl
      (by simp [State.policyChecked, State.headerReceived, State.received]) rfl hroom
  · exact exec_of_rejectedSilently (exec_execute_failed crc hg)
      (run_rejected_silently s.params rfl rfl rfl hroom)

end Sys2Proof.Machine
end

section
/-! SUPPORT. Write (42_commands.md R186): its data is in memory before its checksum byte has arrived
(20_memory.md R54), it is stuck at a store that never completes (R61), and a Read of the range it
has stored answers its data (R70). Read (R185) at a byte that never answers. -/

namespace Sys2Proof

/-- Under distinct codes the code of a command selects it (00_scope.md R8, 30_encoding.md R86). -/
theorem Params.commandOf_codeOf {p : Params} (h : p.wf = true) {c : Command}
    (hc : c ≠ .unrecognised) (code : BitVec 16) : p.commandOf (p.codeOf code c) = c := by
  have hdistinct : (p.commandCodes ++ [cmdError]).Nodup := of_decide_eq_true h
  simp only [Params.commandCodes, List.cons_append, List.nil_append, List.nodup_cons,
    List.mem_cons, not_or] at hdistinct
  obtain ⟨⟨hvb, hvr, hvw, hve, hvs, -⟩, ⟨hbr, hbw, hbe, hbs, -⟩, ⟨hrw, hre, hrs, -⟩, ⟨hwe, hws, -⟩,
    ⟨hes, -⟩, -⟩ := hdistinct
  cases c with
  | getVersion => simp [Params.codeOf, Params.commandOf]
  | getBase => simp [Params.codeOf, Params.commandOf, Ne.symm hvb]
  | read => simp [Params.codeOf, Params.commandOf, Ne.symm hvr, Ne.symm hbr]
  | write => simp [Params.codeOf, Params.commandOf, Ne.symm hvw, Ne.symm hbw, Ne.symm hrw]
  | execute =>
    simp [Params.codeOf, Params.commandOf, Ne.symm hve, Ne.symm hbe, Ne.symm hre, Ne.symm hwe]
  | reset =>
    simp [Params.codeOf, Params.commandOf, Ne.symm hvs, Ne.symm hbs, Ne.symm hrs, Ne.symm hws,
      Ne.symm hes]
  | unrecognised => exact absurd rfl hc

end Sys2Proof

namespace Sys2Proof.Machine

/-- The state in which the fields and all the data of an accepted Write have been received, the data
stored (R54, R150). -/
def State.writeReceived (s : State) (code : BitVec 16) (addr : Addr) (len : BitVec 32)
    (data rest : List Byte) : State :=
  { s.received code (echoHeader code addr len ++ data)
      (receiveActions (echoHeader code addr len) ++ receiveAndStoreActions addr data) with
    phase := .decodingFields
    addr := addr
    len := len
    cnt := len
    policyOk := true
    mem := s.mem.storeBytesAt addr data
    rx := rest }

theorem State.writeReceived_rx (s : State) (code : BitVec 16) (addr : Addr) (len : BitVec 32)
    (data rest : List Byte) : (s.writeReceived code addr len data rest).rx = rest := rfl

theorem State.writeReceived_rxcrc (s : State) (code : BitVec 16) (addr : Addr) (len : BitVec 32)
    (data rest : List Byte) :
    (s.writeReceived code addr len data rest).rxcrc = crc8 (echoHeader code addr len ++ data) := by
  simp only [State.writeReceived, State.received]

/-- The data of an accepted Write, stored as it arrives. -/
theorem run_rxData_of_header (k : Prog) {s : State} {addr : Addr} {len : BitVec 32}
    {data : List Byte} (code : BitVec 16) (rest : List Byte) (hlen : data.length = len.toNat)
    (hw : s.writable addr len.toNat) :
    (Prog.op (.rxData .addr .len) k).run
        ((s.headerReceived code addr len (data ++ rest)).policyChecked true) =
      k.run (s.writeReceived code addr len data rest) := by
  have hstore := op_rxData_complete .addr .len (data := data) (rest := rest)
    (s := (s.headerReceived code addr len (data ++ rest)).policyChecked true)
    (by rw [eval_len_setWidth]; exact hlen) rfl (hlen ▸ hw)
  rw [run_op_done hstore, eval_len_setWidth]
  simp only [State.policyChecked, State.headerReceived, State.writeReceived, State.received,
    Src.eval, crc8_append, List.append_assoc]

/-- The common tail where the checksum byte has not arrived (42_commands.md R190). -/
theorem run_validated_waits (k : Prog) {s : State} (h : s.rx = []) :
    ∃ t, (validated k).run s = t ∧ t.waiting ∧ t.phase = .validatingCrc ∧ t.mem = s.mem ∧
      t.rx = [] ∧ t.log = s.log := by
  have hwait := op_rxValidateCrc_of_rx_nil (s := { s with phase := .validatingCrc }) h
  exact ⟨_, (run_setPhase _ _ s).trans (run_op_waits hwait), State.waiting_of_run_waits hwait _,
    rfl, rfl, h, rfl⟩

/-- Settles O29: the step has received and stored the data, and waits for the checksum byte. -/
theorem writeStoresBeforeTheChecksumArrives : Obligations.WriteStoresBeforeTheChecksumArrives := by
  intro s addr len data hwf hpos hlen hg hw hrx
  have hcmd : s.params.commandOf s.params.cmdWrite = .write :=
    Params.commandOf_codeOf hwf (c := .write) (by decide) 0
  have hcode : s.rx = leBytes 2 s.params.cmdWrite ++ (leBytes 8 addr ++ leBytes 4 len ++ data) := by
    simp [hrx, echoHeader]
  have hdata : s.rx = echoHeader s.params.cmdWrite addr len ++ (data ++ []) := by
    rw [hrx, List.append_nil]
  obtain ⟨t, hrun, hwaiting, hphase, hmem, hempty, hlog⟩ := run_validated_waits respondWrote
    (s := s.writeReceived s.params.cmdWrite addr len data []) rfl
  refine ⟨t, ?_, hmem, hempty, hphase, ?_, hwaiting⟩
  · rw [step_of_done hpos, serveFrame_of_code hcode, hcmd, requestBody,
      run_writeBody_passed s.params hdata hg, run_rxData_of_header _ _ _ hlen hw, hrun]
  · simp [State.transmitted, hlog, State.writeReceived, State.received]

/-- Settles O52: the store that never completes stops the loop over the data. -/
theorem writeIsStuckAtAnAddressThatNeverAnswers :
    Obligations.WriteIsStuckAtAnAddressThatNeverAnswers := by
  intro s addr len data crc k hlen hk hg hw hs
  have hlt : k < data.length := hlen ▸ hk
  have htake : (data.take k).length = k := List.length_take_of_le hlt.le
  have hsplit : data ++ crc :: s.rx =
      data.take k ++ data[k] :: (data.drop (k + 1) ++ crc :: s.rx) := by
    rw [← List.cons_append, List.getElem_cons_drop, ← List.append_assoc, List.take_append_drop]
  have hstuck := op_rxData_stuck .addr .len (data := data.take k) (b := data[k])
    (rest := data.drop (k + 1) ++ crc :: s.rx)
    (s := (s.headerReceived s.params.cmdWrite addr len (data ++ crc :: s.rx)).policyChecked true)
    (by rw [eval_len_setWidth, htake]; exact hk) hsplit (by rw [htake]; exact hw)
    (by rw [htake]; exact hs)
  refine ⟨_, (exec_write_passed len data crc hg).trans (congrArg _ (run_op_waits hstuck)), rfl, rfl,
    ?_, rfl, State.waiting_of_run_waits hstuck _⟩
  simp [State.transmitted, State.policyChecked, State.headerReceived, State.received, sentBytes]

/-! ## A Read after a Write -/

/-- The state in which an accepted Write with its right checksum has been answered by its echoed
header (R186). -/
def State.writeAnswered (s : State) (addr : Addr) (len : BitVec 32) (data : List Byte) : State :=
  ((s.writeReceived s.params.cmdWrite addr len data
      (crc8 (echoHeader s.params.cmdWrite addr len ++ data) :: s.rx)).checksumRight
    (echoHeader s.params.cmdWrite addr len ++ data) s.rx).answer
      (echoHeader s.params.cmdWrite addr len)

theorem exec_write_right {s : State} {addr : Addr} {len : BitVec 32} {data : List Byte}
    (hlen : data.length = len.toNat) (hg : s.params.guardAddress ≤ addr)
    (hw : s.writable addr len.toNat) (hroom : s.accepts 15) :
    exec (.write addr len data (crc8 (echoHeader s.params.cmdWrite addr len ++ data))) s =
      .next (s.writeAnswered addr len data) := by
  rw [exec_write_passed _ _ _ hg, run_rxData_of_header _ _ _ hlen hw,
    run_validated_right respondWrote (State.writeReceived_rx ..) (State.writeReceived_rxcrc ..)]
  exact congrArg _ (run_respondWrote (s := State.checksumRight _ _ _) hroom)

theorem State.writeAnswered_transmitted (s : State) (addr : Addr) (len : BitVec 32)
    (data : List Byte) :
    (s.writeAnswered addr len data).transmitted =
      s.transmitted ++ withCrc (echoHeader s.params.cmdWrite addr len) := by
  simp [State.writeAnswered, State.transmitted, State.answer, State.checksumRight,
    State.writeReceived, State.received, sentBytes]

theorem State.writeAnswered_mem (s : State) (addr : Addr) (len : BitVec 32) (data : List Byte) :
    (s.writeAnswered addr len data).mem = s.mem.storeBytesAt addr data := by
  simp only [State.writeAnswered, State.answer, State.checksumRight, State.writeReceived]

theorem State.writeAnswered_params (s : State) (addr : Addr) (len : BitVec 32) (data : List Byte) :
    (s.writeAnswered addr len data).params = s.params := by
  simp only [State.writeAnswered, State.answer, State.checksumRight, State.writeReceived,
    State.received]

theorem State.writeAnswered_devices (s : State) (addr : Addr) (len : BitVec 32) (data : List Byte) :
    (s.writeAnswered addr len data).devices = s.devices := by
  simp only [State.writeAnswered, State.answer, State.checksumRight, State.writeReceived,
    State.received]

theorem State.writeAnswered_noRead (s : State) (addr : Addr) (len : BitVec 32) (data : List Byte) :
    (s.writeAnswered addr len data).noRead = s.noRead := by
  simp only [State.writeAnswered, State.answer, State.checksumRight, State.writeReceived,
    State.received]

theorem State.writeAnswered_txRoom (s : State) (addr : Addr) (len : BitVec 32) (data : List Byte) :
    (s.writeAnswered addr len data).txRoom = s.roomAfter 15 := by
  simp only [State.writeAnswered, State.answer, State.checksumRight, State.writeReceived,
    State.received, State.roomAfter, echoHeader_length]

/-- A Read with its right checksum answers what its `MemRead`s answer (R185). -/
theorem exec_read_transmits {s : State} {addr : Addr} {len : BitVec 32}
    (hroom : s.accepts (15 + len.toNat)) (hr : s.readable addr len.toNat) :
    ∃ t, exec (.read addr len (crc8 (echoHeader s.params.cmdRead addr len))) s = .next t ∧
      t.transmitted = s.transmitted ++
        withCrc (echoHeader s.params.cmdRead addr len ++ s.bytesAt addr len.toNat) := by
  have hcomplete := run_respondData_complete (s := s.readAccepted addr len) hroom hr
  refine ⟨_, (exec_read_right s addr len).trans (congrArg _ hcomplete), ?_⟩
  have hbefore := s.readAccepted_transmitted addr len
  simp only [State.transmitted] at hbefore
  simp only [State.transmitted, sentBytes_append, hbefore, sentBytes_sendActions,
    sentBytes_readAndSendActions, State.readAccepted_bytesAt]
  simp [State.readAccepted, State.checksumRight, State.headerReceived, State.received, withCrc]

/-- Settles O27: the Write's answer leaves the data in memory, and the Read's answer carries what
memory holds there (`State.bytesAt_of_stored`). -/
theorem readReturnsWhatWriteStored : Obligations.ReadReturnsWhatWriteStored := by
  intro s addr len data hwf hlen hg hw hr ho hroom
  have hwrite := exec_write_right hlen hg hw (s.accepts_of_le hroom (by omega))
  have hsent := s.writeAnswered_transmitted addr len data
  have hparams := s.writeAnswered_params addr len data
  have hstored : (s.writeAnswered addr len data).bytesAt addr len.toNat = data := by
    rw [← hlen]
    refine State.bytesAt_of_stored hwf addr data ?_ (s.writeAnswered_mem addr len data) ?_
    · have := len.isLt; omega
    · intro k hk
      rw [s.writeAnswered_devices]
      exact ho k (hlen ▸ hk)
  obtain ⟨u, hread, hu⟩ := exec_read_transmits (s := s.writeAnswered addr len data) (addr := addr)
    (len := len)
    (State.accepts_of_room (s := s) (m := 15) (s.accepts_of_le hroom (by omega))
      (s.writeAnswered_txRoom addr len data))
    (fun k hk => by rw [s.writeAnswered_noRead]; exact hr k hk)
  rw [hparams] at hread hu
  exact ⟨_, u, hwrite, hread, by rw [hu, hsent, hstored]⟩

/-- Settles O31: the header has been sent, and the read that never completes stops the loop over the
data. -/
theorem readIsStuckAtAnAddressThatNeverAnswers :
    Obligations.ReadIsStuckAtAnAddressThatNeverAnswers := by
  intro s addr len k hk hroom hr hs
  have hstuck := op_txData_stuck .addr .len (n := k) (s := (s.readAccepted addr len).headerSent)
    (by rw [eval_len_setWidth]; exact hk)
    (State.accepts_of_room (s := s) (m := 14) (s.accepts_of_le hroom (by omega)) rfl) hr hs
  have hrun := (run_respondData (s := s.readAccepted addr len)
    (s.accepts_of_le hroom (by omega))).trans (run_op_waits hstuck)
  refine ⟨_, (exec_read_right s addr len).trans (congrArg _ hrun), ?_, rfl,
    State.waiting_of_run_waits hstuck _⟩
  rw [State.transmitted, sentBytes_append, sentBytes_readAndSendActions, State.headerSent_bytesAt,
    State.readAccepted_bytesAt]
  exact congrArg (· ++ _) (((s.readAccepted addr len).headerSent_transmitted).trans
    (congrArg (· ++ _) (s.readAccepted_transmitted addr len)))

end Sys2Proof.Machine
end

section
/-! SUPPORT. Execute (42_commands.md R187) from its right checksum on: the context read, the call,
the result stored and read back; where it is stuck (20_memory.md R61), and how it goes on when a
call returns late (R59). -/

namespace Sys2Proof.Machine

/-! ## The states that Execute comes through -/

/-- The state in which an accepted Execute has been received, its checksum found right. -/
def State.executeAccepted (s : State) (addr : Addr) : State :=
  { ((s.addressReceived s.params.cmdExecute addr s.rx).policyChecked true).checksumRight
      (leBytes 2 s.params.cmdExecute ++ leBytes 8 addr) s.rx with phase := .responding }

/-- The 72 bytes of the context have been read (R57). -/
def State.contextRead (s : State) : State :=
  { s with reads := s.reads + 72, ctx := s.contextAt s.addr,
           log := s.log ++ readActions s.addr (s.bytesAt s.addr 72) }

/-- The call has returned with an outcome, `coming` to come (R59). -/
def State.called (s : State) (o : CallOutcome) (coming : List CallOutcome) : State :=
  { s with calls := coming, mem := s.mem.writeAll o.stores, ret := o.value,
           log := s.log ++ [.execCall (s.ctx.headD 0) s.ctx.tail o.value] }

/-- The value returned has been stored in the slot (R56). -/
def State.slotStored (s : State) : State :=
  { s with mem := s.mem.storeBytesAt (s.addr + 8) (leBytes 8 s.ret),
           log := s.log ++ writeActions (s.addr + 8) (leBytes 8 s.ret) }

/-- The slot has been read back into `RESULT` (R29, D25). -/
def State.slotRead (s : State) : State :=
  { s with reads := s.reads + 8, result := s.wordAt 0 (s.addr + 8),
           log := s.log ++ readActions (s.addr + 8) (s.bytesAt (s.addr + 8) 8) }

/-- What an accepted Execute performs once its checksum has been found right. -/
def executeRest : Prog :=
  Prog.seq [.loadContext contextSize [], .execCall, .storeSlot, .loadSlot 8 []] respondResult

theorem exec_execute_accepted {s : State} {addr : Addr} (hg : s.params.guardAddress ≤ addr) :
    exec (.execute addr (crc8 (leBytes 2 s.params.cmdExecute ++ leBytes 8 addr))) s =
      .next (executeRest.run (s.executeAccepted addr)) :=
  congrArg _ ((run_frame_address (s := { s with rx := _ }) _ (execute_frameBytes ..)).trans
    ((run_policy_passed _ _ hg).trans (run_validated_right _ rfl rfl)))

theorem State.executeAccepted_log (s : State) (addr : Addr) :
    (s.executeAccepted addr).log =
      s.log ++ receiveActions (withCrc (leBytes 2 s.params.cmdExecute ++ leBytes 8 addr)) := by
  simp [State.executeAccepted, State.checksumRight, State.policyChecked, State.addressReceived,
    State.received, withCrc]

theorem State.executeAccepted_bytesAt (s : State) (addr a : Addr) (n : Nat) :
    (s.executeAccepted addr).bytesAt a n = s.bytesAt a n :=
  State.bytesAt_of_same rfl rfl rfl rfl a n

theorem State.executeAccepted_transmitted (s : State) (addr : Addr) :
    (s.executeAccepted addr).transmitted = s.transmitted := by
  rw [State.transmitted, State.executeAccepted_log, sentBytes_append, sentBytes_receiveActions,
    List.append_nil, State.transmitted]

theorem State.contextRead_transmitted (s : State) : s.contextRead.transmitted = s.transmitted := by
  simp [State.transmitted, State.contextRead]

theorem State.called_transmitted (s : State) (o : CallOutcome) (coming : List CallOutcome) :
    (s.called o coming).transmitted = s.transmitted := by
  simp [State.transmitted, State.called, sentBytes]

theorem State.slotStored_transmitted (s : State) : s.slotStored.transmitted = s.transmitted := by
  simp [State.transmitted, State.slotStored]

theorem State.slotRead_transmitted (s : State) : s.slotRead.transmitted = s.transmitted := by
  simp [State.transmitted, State.slotRead]

theorem State.answer_transmitted (s : State) (payload : List Byte) :
    (s.answer payload).transmitted = s.transmitted ++ withCrc payload := by
  simp [State.transmitted, State.answer]

/-! ## From one to the next -/

theorem op_loadContext_done {s : State} (h : s.readable s.addr 72) :
    (Op.loadContext contextSize []).run s = .done s.contextRead := op_loadContext_complete h

theorem op_execCall_done {s : State} {o : CallOutcome} {coming : List CallOutcome}
    (h : s.calls = o :: coming) : Op.execCall.run s = .done (s.called o coming) :=
  op_execCall_complete h

theorem op_storeSlot_done {s : State} (h : s.writable (s.addr + 8) 8) :
    Op.storeSlot.run s = .done s.slotStored := op_storeSlot_complete h

theorem op_loadSlot_done {s : State} (h : s.readable (s.addr + 8) 8) :
    (Op.loadSlot 8 []).run s = .done s.slotRead := op_loadSlot_complete h

/-- Up to the call (R187). -/
theorem run_executeRest_context {s : State} (h : s.readable s.addr 72) :
    executeRest.run s =
      (Prog.seq [.execCall, .storeSlot, .loadSlot 8 []] respondResult).run s.contextRead :=
  run_op_done (op_loadContext_done h)

/-- Up to the store of the result (R187). -/
theorem run_executeRest_called {s : State} {o : CallOutcome} {coming : List CallOutcome}
    (h : s.readable s.addr 72) (hc : s.calls = o :: coming) :
    executeRest.run s =
      (Prog.seq [.storeSlot, .loadSlot 8 []] respondResult).run (s.contextRead.called o coming) :=
  (run_executeRest_context h).trans (run_op_done (op_execCall_done hc))

/-- The slot lies within the context (R57). -/
theorem State.readable_slot {s : State} {a : Addr} (h : s.readable a 72) :
    s.readable (a + 8) 8 := by
  intro k hk
  have hslot := h (8 + k) (by omega)
  rwa [BitVec.ofNat_add, ← BitVec.add_assoc] at hslot

/-- The whole of it where the platform answers (R187). -/
theorem run_executeRest_complete {s : State} {o : CallOutcome} {coming : List CallOutcome}
    (h : s.readable s.addr 72) (hc : s.calls = o :: coming) (hw : s.writable (s.addr + 8) 8)
    (hroom : s.accepts 19) :
    executeRest.run s = (s.contextRead.called o coming).slotStored.slotRead.answer
      (leBytes 2 s.cmd ++ leBytes 8 s.addr ++
        leBytes 8 (s.contextRead.called o coming).slotStored.slotRead.result) := by
  rw [run_executeRest_called h hc, seq_cons, seq_cons, seq_nil,
    run_op_done (op_storeSlot_done (s := s.contextRead.called o coming) hw),
    run_op_done (op_loadSlot_done (s := (s.contextRead.called o coming).slotStored)
      (State.readable_slot h))]
  exact run_respondResult (s := (s.contextRead.called o coming).slotStored.slotRead) hroom

/-- R70 at the slot: what is read back is what was stored. -/
theorem State.slotRead_result {s : State} (hwf : s.mem.wf = true) (ho : s.ordinary (s.addr + 8) 8) :
    s.slotStored.slotRead.result = s.ret := by
  have hback : s.slotStored.bytesAt (s.addr + 8) 8 = leBytes 8 s.ret := by
    have hstored := State.bytesAt_of_stored (s := s.slotStored) hwf (s.addr + 8) (leBytes 8 s.ret)
      (by simp) rfl (by rw [leBytes_length]; exact ho)
    rwa [leBytes_length] at hstored
  have hword : s.slotStored.wordAt 0 (s.addr + 8) =
      leValue 64 (s.slotStored.bytesAt (s.addr + 8) 8) := by
    simp [State.wordAt, State.bytesAt]
  exact hword.trans (by rw [hback, leValue_leBytes 8 64 s.ret rfl])

/-! ## Stuck at a byte of the context or of the slot -/

/-- Settles O53: the two loops over memory, the context's before the call and the slot's after it,
at the access that never completes. -/
theorem executeIsStuckAtAnAddressThatNeverAnswers :
    Obligations.ExecuteIsStuckAtAnAddressThatNeverAnswers := by
  intro s addr k hg
  refine ⟨fun hk hr hs => ?_, fun o coming hk hc hr hw hs => ?_⟩
  · have hstuck := op_loadContext_stuck (s := s.executeAccepted addr) hk hr hs
    have hlog := s.executeAccepted_log addr
    have hbytes := s.executeAccepted_bytesAt addr addr k
    refine ⟨_, (exec_execute_accepted hg).trans (congrArg _ (run_op_waits hstuck)), ?_, rfl, rfl,
      ?_, rfl, State.waiting_of_run_waits hstuck _⟩
    · rw [← hlog, ← hbytes]; rfl
    · rw [State.transmitted, sentBytes_append, sentBytes_readActions, List.append_nil]
      exact s.executeAccepted_transmitted addr
  · have hstuck := op_storeSlot_stuck (s := (s.executeAccepted addr).contextRead.called o coming) hk
      hw hs
    have hrun := (run_executeRest_called (s := s.executeAccepted addr) hr hc).trans
      (run_op_waits hstuck)
    refine ⟨_, (exec_execute_accepted hg).trans (congrArg _ hrun), rfl, rfl, ?_, rfl,
      State.waiting_of_run_waits hstuck _⟩
    rw [State.transmitted, sentBytes_append, sentBytes_writeActions, List.append_nil]
    exact ((State.called_transmitted _ _ _).trans (State.contextRead_transmitted _)).trans
      (s.executeAccepted_transmitted addr)

/-! ## A call that returns late -/

/-- An outcome that comes while a frame is being handled is as if it had been there (R59; log 8). -/
theorem receiveFrame_callReturns (bytes : List Byte) (body : Prog) (s : State) (o : CallOutcome) :
    receiveFrame bytes body (s.callReturns o) =
      (receiveFrame bytes body s).pos.run ((receiveFrame bytes body s).callReturns o) := by
  have hgo := (frame body).run_supply [] [o] { s with rx := bytes ++ s.rx }
  rw [← State.callReturns_eq_supply, ← State.callReturns_eq_supply] at hgo
  exact hgo

/-- An accepted Execute stopped by its call: the next step is the rest of the frame. -/
theorem step_executeWaiting {s t : State} {addr : Addr} {crc : Byte} {k : Prog} (o : CallOutcome)
    (hexec : exec (.execute addr crc) s = .next t) (hpos : t.pos = .op .execCall k)
    (hk : k.dispatches = false) :
    step (t.callReturns o) = exec (.execute addr crc) (s.callReturns o) := by
  obtain rfl : receiveFrame (frameBytes s.params.cmdExecute (leBytes 8 addr) crc)
    (executeBody s.params) s = t := Host.Outcome.next.inj hexec
  rw [step_of_pos_op (s := State.callReturns _ o) hpos,
    advance_of_not_dispatches (p := .op .execCall k) hk, ← hpos]
  exact congrArg _ (receiveFrame_callReturns _ _ s o).symm

/-- R187, answered with the value the call returned, which is then in the slot. -/
theorem exec_execute_answers {s : State} {addr : Addr} {o : CallOutcome} {coming : List CallOutcome}
    (hg : s.params.guardAddress ≤ addr) (hc : s.calls = o :: coming) (hr : s.readable addr 72)
    (hwf : s.mem.wf = true) (hw : s.writable (addr + 8) 8) (ho : s.ordinary (addr + 8) 8)
    (hroom : s.accepts 19) :
    let req := leBytes 2 s.params.cmdExecute ++ leBytes 8 addr
    ∃ u, exec (.execute addr (crc8 req)) s = .next u ∧
      u.transmitted = s.transmitted ++ withCrc (req ++ leBytes 8 o.value) ∧
      u.mem = (s.mem.writeAll o.stores).storeBytesAt (addr + 8) (leBytes 8 o.value) ∧
      u.calls = coming ∧ u.pos = .done ∧ u.phase = .awaitCommand := by
  have hrun := run_executeRest_complete (s := s.executeAccepted addr) hr hc hw hroom
  have hresult := State.slotRead_result (s := (s.executeAccepted addr).contextRead.called o coming)
    (Memory.wf_writeAll hwf o.stores) ho
  rw [hresult] at hrun
  refine ⟨_, (exec_execute_accepted hg).trans (congrArg _ hrun), ?_, rfl, rfl, rfl, rfl⟩
  rw [State.answer_transmitted, State.slotRead_transmitted, State.slotStored_transmitted,
    State.called_transmitted, State.contextRead_transmitted, State.executeAccepted_transmitted]
  rfl

/-- Settles O51: Execute waits at the call, the next step goes on from there, and where the outcome
is there from the start Execute answers it. -/
theorem executeGoesOnWhenTheCallReturns : Obligations.ExecuteGoesOnWhenTheCallReturns := by
  intro s addr o hg hc hr
  have hwait := op_execCall_of_calls_nil (s := (s.executeAccepted addr).contextRead) hc
  have hexec := (exec_execute_accepted hg).trans (congrArg Host.Outcome.next
    ((run_executeRest_context (s := s.executeAccepted addr) hr).trans (run_op_waits hwait)))
  have hgo := step_executeWaiting o hexec rfl rfl
  refine ⟨_, hexec, State.waiting_of_run_waits hwait _, hgo, fun hwf hw ho hroom => ?_⟩
  obtain ⟨u, hu, hlater⟩ := exec_execute_answers (s := s.callReturns o) (coming := []) hg
    (by rw [State.callReturns_calls, hc, List.nil_append]) hr hwf hw ho hroom
  exact ⟨u, hgo.trans hu, hlater⟩

end Sys2Proof.Machine
end

section
/-! SUPPORT. The opcode map and the decoder of request frames (30_encoding.md R84 to R90): which
codes are unrecognised and what is read after a code; that what is read is well formed, that long
enough bytes always hold a frame, and that a request is read back from its wire bytes. -/

namespace Sys2Proof

/-! ## The opcode map (R86, R87) -/

theorem Params.commandOf_eq_unrecognised_iff (p : Params) (code : BitVec 16) :
    p.commandOf code = .unrecognised ↔ code ∉ p.commandCodes := by
  unfold Params.commandOf Params.commandCodes
  split_ifs <;> simp [*]

/-- R8: the Error sentinel is not the code of a command. -/
theorem Params.cmdError_notMem_commandCodes {p : Params} (h : p.wf = true) :
    cmdError ∉ p.commandCodes := fun hmem =>
  List.disjoint_of_nodup_append (of_decide_eq_true h) hmem (List.mem_singleton_self _)

/-- Settles O48: 0x0006 is `cmdError`, which no command's code is equal to. -/
theorem everyOtherCodeIsUnrecognised : Obligations.EveryOtherCodeIsUnrecognised := fun p =>
  ⟨p.commandOf_eq_unrecognised_iff, fun h =>
    (p.commandOf_eq_unrecognised_iff cmdError).mpr (Params.cmdError_notMem_commandCodes h)⟩

/-! ## Taking fields from bytes (R81) -/

@[simp] theorem takeBytes_leBytes (n : Nat) {w : Nat} (v : BitVec w) (ys : List Byte) :
    takeBytes n (leBytes n v ++ ys) = some (leBytes n v, ys) :=
  takeBytes_append_of_length ys (leBytes_length n v)

theorem takeBytes_of_le_length {n : Nat} {bs : List Byte} (h : n ≤ bs.length) :
    takeBytes n bs = some (bs.take n, bs.drop n) := by
  have htake := takeBytes_append_of_length (bs.drop n) (List.length_take_of_le h)
  rwa [List.take_append_drop] at htake

/-! ## The decoder, by the command that the code selects -/

/-- What the decoder reads after a code that selects a command (R84, R86). -/
def Params.decodeFields (p : Params) (code : BitVec 16) :
    Command → List Byte → Except DecodeError (Instr × List Byte)
  | .getVersion => decodeChecksum .getVersion
  | .getBase => decodeChecksum .getBase
  | .read => decodeRead
  | .write => decodeWrite
  | .execute => decodeExecute
  | .reset => decodeChecksum .reset
  | .unrecognised => decodeUnrecognised p code

theorem decode_cons_cons (p : Params) (b0 b1 : Byte) (bs : List Byte) :
    decode p (b0 :: b1 :: bs) =
      p.decodeFields (leValue 16 [b0, b1]) (p.commandOf (leValue 16 [b0, b1])) bs := by
  rw [decode]
  cases p.commandOf (leValue 16 [b0, b1]) <;> rfl

theorem decode_leBytes (p : Params) (code : BitVec 16) (bs : List Byte) :
    decode p (leBytes 2 code ++ bs) = p.decodeFields code (p.commandOf code) bs := by
  have hcode := leValue_leBytes 2 16 code rfl
  rw [leBytes_two] at hcode ⊢
  exact (decode_cons_cons p _ _ bs).trans (by rw [hcode])

/-- R86: under distinct codes a frame is decoded by the command whose code it carries. -/
theorem decode_frameBytes {p : Params} (h : p.wf = true) {c : Command} (hc : c ≠ .unrecognised)
    (fields : List Byte) (crc : Byte) (rest : List Byte) :
    decode p (frameBytes (p.codeOf 0 c) fields crc ++ rest) =
      p.decodeFields (p.codeOf 0 c) c (fields ++ crc :: rest) := by
  rw [frameBytes, List.append_assoc, List.append_assoc, decode_leBytes,
    Params.commandOf_codeOf h hc]
  rfl

/-! ## What is read is well formed (R84, R87, R189) -/

theorem decodeChecksum_wf {p : Params} {mk : Byte → Instr} {bs rest : List Byte} {i : Instr}
    (hmk : ∀ c, (mk c).wf p = true) (h : decodeChecksum mk bs = .ok (i, rest)) :
    i.wf p = true := by
  obtain ⟨c, rfl, -⟩ := decodeChecksum_eq_ok h
  exact hmk c

/-- The data that is taken has the length the frame declares. -/
theorem decodeWrite_wf {p : Params} {bs rest : List Byte} {i : Instr}
    (h : decodeWrite bs = .ok (i, rest)) : i.wf p = true := by
  unfold decodeWrite at h
  split at h
  · cases h
  · split at h
    · cases h
    · split at h
      · cases h
      · next hdata =>
        refine decodeChecksum_wf (fun _ => ?_) h
        exact beq_iff_eq.mpr (takeBytes_eq_some hdata).1

theorem decodeUnrecognised_wf {p : Params} {code : BitVec 16} {bs rest : List Byte} {i : Instr}
    (hcode : code ∉ p.commandCodes) (h : decodeUnrecognised p code bs = .ok (i, rest)) :
    i.wf p = true := by
  unfold decodeUnrecognised at h
  split at h
  case h_1 hskip => cases h; simp [Instr.wf, hcode, hskip]
  case h_2 hmasked => exact decodeChecksum_wf (fun _ => by simp [Instr.wf, hcode, hmasked]) h
  case h_3 hreported => exact decodeChecksum_wf (fun _ => by simp [Instr.wf, hcode, hreported]) h

theorem Params.decodeFields_wf {p : Params} {code : BitVec 16} {bs rest : List Byte} {i : Instr}
    (h : p.decodeFields code (p.commandOf code) bs = .ok (i, rest)) : i.wf p = true := by
  cases hc : p.commandOf code <;> rw [hc] at h
  case getVersion | getBase | reset => exact decodeChecksum_wf (fun _ => rfl) h
  case read =>
    obtain ⟨addr, len, c, rfl, -⟩ := decodeRead_eq_ok h
    rfl
  case write => exact decodeWrite_wf h
  case execute =>
    obtain ⟨addr, c, rfl, -⟩ := decodeExecute_eq_ok h
    rfl
  case unrecognised =>
    exact decodeUnrecognised_wf ((p.commandOf_eq_unrecognised_iff code).mp hc) h

theorem wf_of_decode {p : Params} {bs rest : List Byte} {i : Instr}
    (h : decode p bs = .ok (i, rest)) : i.wf p = true := by
  match bs with
  | [] => cases h
  | [_] => cases h
  | b0 :: b1 :: bs => exact Params.decodeFields_wf (decode_cons_cons p b0 b1 bs ▸ h)

/-- R94: the instructions with an encoding are those that arrive on the wire. -/
theorem encode_isSome (p : Params) (i : Instr) : (encode p i).isSome = i.isRequest := by
  cases i <;> rfl

/-- Settles O46: the bytes taken are the encoding (`encode_of_decode`), which only a request has. -/
theorem decodedBytesAreTheEncoding : Obligations.DecodedBytesAreTheEncoding := by
  intro p i bs rest h
  obtain ⟨enc, henc, hbs⟩ := encode_of_decode h
  have hrequest : i.isRequest = true := by rw [← encode_isSome p i, henc]; rfl
  exact ⟨hrequest, wf_of_decode h, enc, henc, hbs⟩

/-! ## Long enough bytes hold a frame (R88, R90) -/

theorem decodeChecksum_of_length (mk : Byte → Instr) {bs : List Byte} (h : 1 ≤ bs.length) :
    ∃ i rest, decodeChecksum mk bs = .ok (i, rest) := by
  cases bs with
  | nil => simp at h
  | cons c bs => exact ⟨mk c, bs, rfl⟩

theorem decodeRead_of_length {bs : List Byte} (h : 13 ≤ bs.length) :
    ∃ i rest, decodeRead bs = .ok (i, rest) := by
  have haddr := takeBytes_of_le_length (n := 8) (bs := bs) (by omega)
  have hlen := takeBytes_of_le_length (n := 4) (bs := bs.drop 8) (by simp; omega)
  simp only [decodeRead, haddr, hlen]
  exact decodeChecksum_of_length _ (by simp; omega)

/-- A declared length is below 2^32, so the longest data has 2^32 - 1 bytes. -/
theorem decodeWrite_of_length {bs : List Byte} (h : 2 ^ 32 + 12 ≤ bs.length) :
    ∃ i rest, decodeWrite bs = .ok (i, rest) := by
  have haddr := takeBytes_of_le_length (n := 8) (bs := bs) (by omega)
  have hlen := takeBytes_of_le_length (n := 4) (bs := bs.drop 8) (by simp; omega)
  have hlt := (leValue 32 ((bs.drop 8).take 4)).isLt
  have hdata := takeBytes_of_le_length (n := (leValue 32 ((bs.drop 8).take 4)).toNat)
    (bs := (bs.drop 8).drop 4) (by simp only [List.length_drop]; omega)
  simp only [decodeWrite, haddr, hlen, hdata]
  exact decodeChecksum_of_length _ (by simp only [List.length_drop]; omega)

theorem decodeExecute_of_length {bs : List Byte} (h : 9 ≤ bs.length) :
    ∃ i rest, decodeExecute bs = .ok (i, rest) := by
  have haddr := takeBytes_of_le_length (n := 8) (bs := bs) (by omega)
  simp only [decodeExecute, haddr]
  exact decodeChecksum_of_length _ (by simp; omega)

theorem decodeUnrecognised_of_length (p : Params) (code : BitVec 16) {bs : List Byte}
    (h : 1 ≤ bs.length) : ∃ i rest, decodeUnrecognised p code bs = .ok (i, rest) := by
  unfold decodeUnrecognised
  split
  · exact ⟨_, _, rfl⟩
  all_goals exact decodeChecksum_of_length _ h

theorem Params.decodeFields_of_length (p : Params) (code : BitVec 16) (c : Command)
    {bs : List Byte} (h : 2 ^ 32 + 12 ≤ bs.length) :
    ∃ i rest, p.decodeFields code c bs = .ok (i, rest) := by
  cases c with
  | getVersion => exact decodeChecksum_of_length _ (by omega)
  | getBase => exact decodeChecksum_of_length _ (by omega)
  | read => exact decodeRead_of_length (by omega)
  | write => exact decodeWrite_of_length h
  | execute => exact decodeExecute_of_length (by omega)
  | reset => exact decodeChecksum_of_length _ (by omega)
  | unrecognised => exact decodeUnrecognised_of_length p code (by omega)

/-- Settles O47: two bytes are the code, and the rest holds the fields of the longest request. -/
theorem enoughBytesAlwaysDecode : Obligations.EnoughBytesAlwaysDecode := by
  intro p bs h
  match bs, h with
  | [], h => simp at h
  | [_], h => simp at h
  | b0 :: b1 :: bs, h =>
    rw [decode_cons_cons]
    exact p.decodeFields_of_length _ _ (by simp only [List.length_cons] at h; omega)

/-! ## A request is read back from its wire bytes (R84) -/

theorem decodeRead_leBytes (addr : Addr) (len : BitVec 32) (crc : Byte) (rest : List Byte) :
    decodeRead (leBytes 8 addr ++ leBytes 4 len ++ crc :: rest) =
      .ok (.read addr len crc, rest) := by
  simp [decodeRead, decodeChecksum, leValue_leBytes]

theorem decodeWrite_leBytes (addr : Addr) {len : BitVec 32} {data : List Byte} (crc : Byte)
    (rest : List Byte) (h : data.length = len.toNat) :
    decodeWrite (leBytes 8 addr ++ leBytes 4 len ++ data ++ crc :: rest) =
      .ok (.write addr len data crc, rest) := by
  simp [decodeWrite, decodeChecksum, leValue_leBytes, takeBytes_append_of_length _ h]

theorem decodeExecute_leBytes (addr : Addr) (crc : Byte) (rest : List Byte) :
    decodeExecute (leBytes 8 addr ++ crc :: rest) = .ok (.execute addr crc, rest) := by
  simp [decodeExecute, decodeChecksum, leValue_leBytes]

/-- R189: the checksum byte is there exactly when the decoder takes one. -/
theorem decodeUnrecognised_toList {p : Params} {code : BitVec 16} {crc : Option Byte}
    (rest : List Byte) (h : crc.isNone = decide (p.unknownCmdCrc = .skip)) :
    decodeUnrecognised p code (crc.toList ++ rest) = .ok (.unrecognised code crc, rest) := by
  unfold decodeUnrecognised
  cases crc with
  | none =>
    have hskip : p.unknownCmdCrc = .skip := of_decide_eq_true h.symm
    simp [hskip]
  | some c =>
    have htakes : p.unknownCmdCrc ≠ .skip := of_decide_eq_false h.symm
    split
    · next hskip => exact absurd hskip htakes
    all_goals rfl

/-- Settles O45: a request's code selects its command (`decode_frameBytes`), and the command's
fields are read back. -/
theorem decodeReadsBackEveryRequest : Obligations.DecodeReadsBackEveryRequest := by
  intro p i bs rest hp hi henc
  cases i with
  | getVersion crc =>
    obtain rfl := Option.some.inj henc
    exact decode_frameBytes hp (c := .getVersion) (by decide) [] crc rest
  | getBase crc =>
    obtain rfl := Option.some.inj henc
    exact decode_frameBytes hp (c := .getBase) (by decide) [] crc rest
  | read addr len crc =>
    obtain rfl := Option.some.inj henc
    exact (decode_frameBytes hp (c := .read) (by decide) _ crc rest).trans
      (decodeRead_leBytes addr len crc rest)
  | write addr len data crc =>
    obtain rfl := Option.some.inj henc
    exact (decode_frameBytes hp (c := .write) (by decide) _ crc rest).trans
      (decodeWrite_leBytes addr crc rest (beq_iff_eq.mp hi))
  | execute addr crc =>
    obtain rfl := Option.some.inj henc
    exact (decode_frameBytes hp (c := .execute) (by decide) _ crc rest).trans
      (decodeExecute_leBytes addr crc rest)
  | reset crc =>
    obtain rfl := Option.some.inj henc
    exact decode_frameBytes hp (c := .reset) (by decide) [] crc rest
  | unrecognised code crc =>
    obtain rfl := Option.some.inj henc
    simp only [Instr.wf, Bool.and_eq_true, Bool.not_eq_true', List.contains_eq_mem,
      decide_eq_false_iff_not, beq_iff_eq] at hi
    obtain ⟨hcode, hcrc⟩ := hi
    rw [List.append_assoc, decode_leBytes, (p.commandOf_eq_unrecognised_iff code).mpr hcode]
    exact decodeUnrecognised_toList rest hcrc
  | _ => cases henc

/-- Settles O50: under the default codes each of the frames is the encoding of its request. -/
theorem writtenOutFramesDecode : Obligations.WrittenOutFramesDecode := by
  have hback (i : Instr) {bs : List Byte} (hi : i.wf Params.initial = true)
      (h : encode Params.initial i = some bs) : decode Params.initial bs = .ok (i, []) := by
    simpa using decodeReadsBackEveryRequest Params.initial i bs [] (by decide) hi h
  exact ⟨hback _ rfl rfl, hback _ rfl rfl, hback _ rfl rfl, hback _ rfl rfl, hback _ rfl rfl,
    hback _ rfl rfl, hback _ rfl rfl⟩

end Sys2Proof
end

section
/-! SUPPORT. Response frames (30_encoding.md R85): the host reads each back from its bytes (R92),
and the block sends those that carry fields in their formats (42_commands.md R183 to R187). -/

namespace Sys2Proof

/-! ## The host's side (R92) -/

@[simp] theorem leValue_extractLsb' (code : BitVec 16) :
    leValue 16 [code.extractLsb' 0 8, code.extractLsb' 8 8] = code :=
  leValue_leBytes 2 16 code rfl

theorem frameBytes_append (code : BitVec 16) (fields : List Byte) (crc : Byte) (rest : List Byte) :
    frameBytes code fields crc ++ rest =
      code.extractLsb' 0 8 :: code.extractLsb' 8 8 :: (fields ++ crc :: rest) := by
  simp [frameBytes, leBytes_two]

/-- R92: under distinct codes the code of a success response tells its command and is not the
sentinel. -/
theorem Params.codeOf_tells {p : Params} (h : p.wf = true) {c : Command}
    (hc : c ≠ .unrecognised) :
    p.commandOf (p.codeOf 0 c) = c ∧ p.codeOf 0 c ≠ cmdError := by
  have hcmd := Params.commandOf_codeOf h hc 0
  have herr := (p.commandOf_eq_unrecognised_iff _).mpr (Params.cmdError_notMem_commandCodes h)
  exact ⟨hcmd, fun heq => hc (by rw [← hcmd, heq, herr])⟩

/-- Settles O49: the code tells the response (`Params.codeOf_tells`), and its fields, each of known
length, are taken one after the other; the length of a Read's data is the field before it. -/
theorem hostReadsBackEveryResponse : Obligations.HostReadsBackEveryResponse := by
  intro p r rest hp hr
  have hversion := Params.codeOf_tells hp (c := .getVersion) (by decide)
  have hbase := Params.codeOf_tells hp (c := .getBase) (by decide)
  have hread := Params.codeOf_tells hp (c := .read) (by decide)
  have hwrite := Params.codeOf_tells hp (c := .write) (by decide)
  have hexecute := Params.codeOf_tells hp (c := .execute) (by decide)
  have hreset := Params.codeOf_tells hp (c := .reset) (by decide)
  simp only [Params.codeOf] at hversion hbase hread hwrite hexecute hreset
  cases r <;> simp only [encodeResponse, frameBytes_append]
  case data addr len bytes crc =>
    have hdata := takeBytes_append_of_length (crc :: rest) (beq_iff_eq.mp hr)
    simp [decodeResponse, hread, leValue_leBytes, hdata, responseChecksum]
  case version => simp [decodeResponse, hversion, leValue_leBytes, responseChecksum]
  case base => simp [decodeResponse, hbase, leValue_leBytes, responseChecksum]
  case wrote => simp [decodeResponse, hwrite, leValue_leBytes, responseChecksum]
  case result => simp [decodeResponse, hexecute, leValue_leBytes, responseChecksum]
  case resetting => simp [decodeResponse, hreset, responseChecksum]
  case error => simp [decodeResponse, leValue_leBytes, responseChecksum]

end Sys2Proof

namespace Sys2Proof.Machine

/-! ## The block's side (R85) -/

/-- Format SV. -/
theorem run_respondVersion {s : State} (h : s.accepts 5) :
    respondVersion.run s = s.answer (leBytes 2 s.cmd ++ leBytes 2 s.params.protocolVersion) := by
  refine run_respond_endFrame [(2, .protocolVersion)] ?_ (by simpa using h)
  simp [fieldBytes, Src.eval, leBytes_setWidth 2 16 s.params.protocolVersion]

/-- Format SB. -/
theorem run_respondBase {s : State} (h : s.accepts 11) :
    respondBase.run s = s.answer (leBytes 2 s.cmd ++ leBytes 8 s.params.guardAddress) := by
  refine run_respond_endFrame [(8, .guardAddress)] ?_ (by simpa using h)
  simp [fieldBytes, Src.eval]

/-- Settles O14: each response is the responding part of its command (log 28). -/
theorem integerResponsesHaveTheirFormats : Obligations.IntegerResponsesHaveTheirFormats := fun _ =>
  ⟨fun h => congrArg Host.Outcome.next (run_respondVersion h),
    fun h => congrArg Host.Outcome.next (run_respondBase h),
    fun h => congrArg Host.Outcome.next (run_respondWrote h),
    fun h => congrArg Host.Outcome.next (run_respondResult h)⟩

/-- Settles O15: the responding part of Read (`run_respondData_complete`; log 28). -/
theorem dataResponseCarriesMemory : Obligations.DataResponseCarriesMemory := by
  intro s data payload hroom hreadable
  exact congrArg Host.Outcome.next (run_respondData_complete hroom hreadable)

end Sys2Proof.Machine
end

section
/-! SUPPORT. The checksum step (40_crc8.md R120, R126, R127): one iteration is linear over
exclusive-or and injective, so eight of them are, and so is the step in either argument. -/

namespace Sys2Proof.Machine

/-! ## One iteration -/

/-- The form in which R120 states the iteration: bit 7 is the most significant one. -/
theorem crcShift_eq_msb (a : Byte) :
    crcShift a = if a.msb then (a <<< 1) ^^^ 0x07#8 else a <<< 1 := by
  rw [crcShift, BitVec.msb_eq_getLsbD_last]
  rfl

theorem crcShift_eq_xor (a : Byte) :
    crcShift a = (a <<< 1) ^^^ (if a.getLsbD 7 then 0x07 else 0) := by
  unfold crcShift
  split
  · rfl
  · exact BitVec.xor_zero.symm

/-- The polynomial is exclusive-ored in once for each argument with bit 7 set; twice is not at
all. -/
theorem crcShift_xor (a b : Byte) : crcShift (a ^^^ b) = crcShift a ^^^ crcShift b := by
  have hpoly : ∀ x y : Bool, (if (x ^^ y) then (0x07 : Byte) else 0) =
      (if x then 0x07 else 0) ^^^ (if y then 0x07 else 0) := by decide
  simp only [crcShift_eq_xor, BitVec.getLsbD_xor, BitVec.shiftLeft_xor_distrib, hpoly]
  ac_rfl

/-- After a set bit 7 the polynomial leaves bit 0 set; after a clear one only zeros go to zero. -/
theorem eq_zero_of_crcShift_eq_zero {a : Byte} (h : crcShift a = 0) : a = 0 := by
  rw [crcShift] at h
  split at h
  next hset =>
    have hbit : ((a <<< 1) ^^^ 0x07).getLsbD 0 = false := by rw [h]; rfl
    simp at hbit
  next hclear =>
    ext i hi
    have hbit : (a <<< 1).getLsbD (i + 1) = false := by rw [h]; exact BitVec.getLsbD_zero
    rcases Nat.lt_or_ge i 7 with hlt | hge
    · simpa [show i + 1 < 8 by omega] using hbit
    · obtain rfl : i = 7 := by omega
      simpa using hclear

theorem crcShift_injective : Function.Injective crcShift := by
  intro a b h
  have hzero : crcShift (a ^^^ b) = 0 := by rw [crcShift_xor, h, BitVec.xor_self]; rfl
  exact BitVec.xor_eq_zero_iff.mp (eq_zero_of_crcShift_eq_zero hzero)

/-! ## Any number of iterations -/

theorem crcShifts_eq_iterate (n : Nat) : crcShifts n = crcShift^[n] := by
  induction n with
  | zero => rfl
  | succ n ih => funext a; rw [crcShifts, ih, Function.iterate_succ_apply]

theorem crcShifts_injective (n : Nat) : Function.Injective (crcShifts n) := by
  rw [crcShifts_eq_iterate]
  exact crcShift_injective.iterate n

theorem crcShifts_xor (n : Nat) (a b : Byte) :
    crcShifts n (a ^^^ b) = crcShifts n a ^^^ crcShifts n b := by
  induction n generalizing a b with
  | zero => rfl
  | succ n ih => simp only [crcShifts, crcShift_xor, ih]

theorem crcShifts_zero (n : Nat) : crcShifts n 0 = 0 := by
  have h := crcShifts_xor n 0 0
  rwa [BitVec.xor_self, BitVec.xor_self] at h

/-! ## The step -/

/-- R126 (a): the step depends on the exclusive-or of its arguments only. -/
theorem crc8Step_eq_crc8Step_zero (acc b : Byte) : crc8Step acc b = crc8Step 0 (acc ^^^ b) := by
  simp [crc8Step]

/-- R127: each of the 256 printed entries, computed. -/
theorem crc8Step_zero_eq_crcTable : ∀ x : Byte, crc8Step 0 x = crcTable.getD x.toNat 0 := by
  decide +kernel

theorem crc8Step_eq_crcTable (acc b : Byte) :
    crc8Step acc b = crcTable.getD (acc ^^^ b).toNat 0 := by
  rw [crc8Step_eq_crc8Step_zero, crc8Step_zero_eq_crcTable]

theorem crc8Step_self (a : Byte) : crc8Step a a = 0 := by
  rw [crc8Step, BitVec.xor_self]
  exact crcShifts_zero 8

theorem crc8Step_zero_xor (x y : Byte) :
    crc8Step 0 (x ^^^ y) = crc8Step 0 x ^^^ crc8Step 0 y := by
  simpa [crc8Step] using crcShifts_xor 8 x y

theorem crc8Step_left_injective (b : Byte) : Function.Injective fun acc => crc8Step acc b :=
  fun _ _ h => (BitVec.xor_left_inj b).mp (crcShifts_injective 8 h)

theorem crc8Step_right_injective (acc : Byte) : Function.Injective fun b => crc8Step acc b :=
  fun _ _ h => (BitVec.xor_right_inj acc).mp (crcShifts_injective 8 h)

theorem crc8Step_left_bijective (b : Byte) : Function.Bijective fun acc => crc8Step acc b :=
  (crc8Step_left_injective b).bijective_of_finite

theorem crc8Step_right_bijective (acc : Byte) : Function.Bijective fun b => crc8Step acc b :=
  (crc8Step_right_injective acc).bijective_of_finite

/-! ## The checksum of a sequence -/

/-- Different accumulators stay different whatever is folded into both. -/
theorem crcFold_injective (bs : List Byte) : Function.Injective fun acc => crcFold acc bs := by
  induction bs with
  | nil => exact Function.injective_id
  | cons b bs ih => exact ih.comp (crc8Step_left_injective b)

theorem crc8_replicate_zero (n : Nat) : crc8 (List.replicate n 0) = 0 := by
  induction n with
  | zero => rfl
  | succ n ih =>
    rw [List.replicate_succ', crc8_append, ih, crcFold_cons, crc8Step_self, crcFold_nil]

/-- R126 (f): the accumulators differ after the byte that differs, and from then on. -/
theorem crc8_ne_of_byte_ne (xs ys : List Byte) {b c : Byte} (h : b ≠ c) :
    crc8 (xs ++ b :: ys) ≠ crc8 (xs ++ c :: ys) := by
  rw [crc8_append, crc8_append, crcFold_cons, crcFold_cons]
  exact (crcFold_injective ys).ne ((crc8Step_right_injective (crc8 xs)).ne h)

/-! ## The instructions, driven on their own (70_reset_and_hazards.md R270) -/

theorem exec_rxValidateCrc_of_cons {s : State} {c : Byte} {rest : List Byte}
    (h : s.rx = c :: rest) :
    exec .rxValidateCrc s = .next { s with rx := rest, crcOk := c == s.rxcrc,
                                           log := s.log ++ [.rxByte c] } :=
  congrArg Host.Outcome.next (runAlone_done (op_rxValidateCrc_complete h))

theorem exec_txCrc_of_accepts {s : State} (h : s.accepts 1) :
    exec .txCrc s = .next { s with txRoom := s.roomAfter 1, log := s.log ++ [.txByte s.txcrc] } :=
  congrArg Host.Outcome.next (runAlone_done (op_txCrc_complete h))

/-! ## The statements about the step -/

/-- Settles O1: the eight iterations are the eighth iterate (`crcShifts_eq_iterate`) of the function
that R120 states (`crcShift_eq_msb`). -/
theorem crcStepFollowsItsPseudocode : Obligations.CrcStepFollowsItsPseudocode := by
  intro acc b
  rw [crc8Step, crcShifts_eq_iterate, funext crcShift_eq_msb]

/-- Settles O2: the instruction returns the step (R120), which is the table's entry. -/
theorem crcStepReturnsTheTableEntry : Obligations.CrcStepReturnsTheTableEntry := by
  intro acc b s
  rw [← crc8Step_eq_crcTable]
  rfl

/-- Settles O3: the table and laws (a) to (f) are lemmas above; by (g) the trailing byte is compared
with an accumulator that it differs from. -/
theorem crcLaws : Obligations.CrcLaws := by
  refine ⟨crc8Step_zero_eq_crcTable, crc8Step_eq_crcTable, crc8Step_right_bijective 0,
    crc8Step_left_bijective, crc8Step_right_bijective, crc8Step_zero_xor, crc8Step_self 0,
    crc8Step_self, crc8_replicate_zero, fun xs ys b c => crc8_ne_of_byte_ne xs ys, ?_⟩
  intro s payload rest c hcrc hrx hc
  have hne : (c == s.rxcrc) = false := by simpa [hcrc] using hc
  rw [exec_rxValidateCrc_of_cons hrx, hne]

end Sys2Proof.Machine
end

section
/-! SUPPORT. A payload sent and received byte by byte with the codec operations (40_crc8.md R128):
what the sender's `tx_u8`s send and the receiver's `rx_u8`s take is folded alike on both sides. -/

namespace Sys2Proof.Machine

/-! ## One byte -/

theorem exec_txU8_of_sendU8 {s t : State} {b : Byte} (h : sendU8 b s = some t) :
    exec (.txU8 b) s = .next t := by
  have hbytes : leBytes 1 (b.setWidth 64) = [b] := by
    rw [leBytes_setWidth 1 8 b (by decide) (by decide)]
    simp [leBytes]
  have hrun : (Op.txInt 1 (.imm (b.setWidth 64))).run s = .done t := by
    show sendBytes (leBytes 1 (b.setWidth 64)) s = .done t
    simp only [hbytes, sendBytes, h]
  exact congrArg Host.Outcome.next (runAlone_done hrun)

theorem exec_rxU8_of_cons {s : State} {b : Byte} {rest : List Byte} (h : s.rx = b :: rest) :
    exec .rxU8 s = .next { s with rx := rest, rxcrc := crc8Step s.rxcrc b,
                                  log := s.log ++ [.rxByte b], ret := leValue 64 [b] } :=
  congrArg Host.Outcome.next (runAlone_done (op_rxInt_complete .ret (bs := [b]) h rfl))

/-! ## A sequence -/

/-- `tx_u8` of each byte is the codec's loop over the bytes. -/
theorem runInstrs_txU8_of_sendBytes {bs : List Byte} {s t : State} (h : sendBytes bs s = .done t) :
    runInstrs (bs.map .txU8) s = .next t := by
  induction bs generalizing s with
  | nil =>
    obtain rfl : s = t := Progress.done.inj h
    rfl
  | cons b bs ih =>
    rw [sendBytes] at h
    cases hsend : sendU8 b s with
    | none => simp [hsend] at h
    | some u =>
      rw [hsend] at h
      rw [List.map_cons, runInstrs_cons_of_next (exec_txU8_of_sendU8 hsend)]
      exact ih h

/-- What the `rx_u8`s leave in `RET`, the last byte, is not said. -/
theorem runInstrs_rxU8 (bs rest : List Byte) {s : State} (h : s.rx = bs ++ rest) :
    ∃ t, runInstrs (bs.map fun _ => .rxU8) s = .next t ∧ t.rxcrc = crcFold s.rxcrc bs ∧
      t.rx = rest := by
  induction bs generalizing s with
  | nil => exact ⟨s, rfl, rfl, h⟩
  | cons b bs ih =>
    rw [List.map_cons, runInstrs_cons_of_next (exec_rxU8_of_cons h)]
    exact ih rfl

/-! ## A frame -/

/-- The sender of R128, from `tx_start` to the last `tx_u8`. -/
theorem runInstrs_txStart_txU8 (payload : List Byte) {s : State} (h : s.accepts payload.length) :
    runInstrs (.txStart :: payload.map .txU8) s = .next
      { s with txRoom := s.roomAfter payload.length, txcrc := crc8 payload,
               log := s.log ++ sendActions payload } := by
  have hstart : exec .txStart s = .next { s with txcrc := crcFrameSeed } := rfl
  rw [runInstrs_cons_of_next hstart]
  exact runInstrs_txU8_of_sendBytes (sendBytes_complete payload _ h)

/-- The receiver of R128, from `rx_start` to the last `rx_u8`. -/
theorem runInstrs_rxStart_rxU8 (payload rest : List Byte) {s : State}
    (h : s.rx = payload ++ rest) :
    ∃ t, runInstrs (.rxStart :: payload.map fun _ => .rxU8) s = .next t ∧
      t.rxcrc = crc8 payload ∧ t.rx = rest := by
  have hstart : exec .rxStart s = .next { s with rxcrc := crcFrameSeed } := rfl
  rw [runInstrs_cons_of_next hstart]
  exact runInstrs_rxU8 payload rest h

/-- Settles O57: both sides fold the payload from the same seed, so the byte that the sender sends
last is the accumulator that the receiver compares it with. -/
theorem whatIsEncodedValidates : Obligations.WhatIsEncodedValidates := by
  intro s payload hroom
  have hpayload : s.accepts payload.length := s.accepts_of_le hroom (Nat.le_succ _)
  refine ⟨_, _, runInstrs_txStart_txU8 payload hpayload, rfl,
    exec_txCrc_of_accepts (State.accepts_of_room hroom rfl), ?_, fun r rest hrx => ?_⟩
  · simp [State.transmitted, withCrc, sentBytes]
  · obtain ⟨u, hrun, hcrc, hrest⟩ :=
      runInstrs_rxStart_rxU8 payload (crc8 payload :: rest) (by simpa [withCrc] using hrx)
    exact ⟨u, _, hrun, hcrc, exec_rxValidateCrc_of_cons hrest, by simp [hcrc], rfl⟩

end Sys2Proof.Machine
end

section
/-! SUPPORT. The codec operations driven on their own (41_codec_ops.md R140 to R154;
70_reset_and_hazards.md R270), where their ports answer: each is the operation in front of no rest,
so its law is that of the operation. -/

namespace Sys2Proof

/-- The first byte received is in bits 7:0, the value of those after it above (R143 to R145). -/
theorem setWidth_append_byte {v : Nat} (w : Nat) (hi : BitVec v) (b : Byte) :
    (hi ++ b).setWidth w = b.setWidth w ||| (hi.setWidth w <<< 8) := by
  apply BitVec.eq_of_getLsbD_eq
  intro i hlt
  simp only [BitVec.getLsbD_or, BitVec.getLsbD_shiftLeft, BitVec.getLsbD_setWidth,
    BitVec.getLsbD_append, hlt, decide_true, Bool.true_and]
  rcases Nat.lt_or_ge i 8 with hlow | hhigh
  · simp [hlow]
  · simp [Nat.not_lt.mpr hhigh, BitVec.getLsbD_of_ge b i hhigh, show i - 8 < w by omega]

/-- One more byte in front is appended below the value of the others. -/
theorem leValue_cons_of_eq {v w : Nat} {hi : BitVec v} {bs : List Byte} (b : Byte)
    (h : leValue w bs = hi.setWidth w) : leValue w (b :: bs) = (hi ++ b).setWidth w := by
  rw [leValue, h, setWidth_append_byte]

theorem leValue_singleton (w : Nat) (b : Byte) : leValue w [b] = b.setWidth w := by
  simp [leValue]

theorem leValue_two (w : Nat) (b0 b1 : Byte) : leValue w [b0, b1] = (b1 ++ b0).setWidth w :=
  leValue_cons_of_eq b0 (leValue_singleton w b1)

theorem leValue_four (w : Nat) (b0 b1 b2 b3 : Byte) :
    leValue w [b0, b1, b2, b3] = (b3 ++ b2 ++ b1 ++ b0).setWidth w :=
  leValue_cons_of_eq b0 (leValue_cons_of_eq b1 (leValue_two w b2 b3))

theorem leValue_eight (b0 b1 b2 b3 b4 b5 b6 b7 : Byte) :
    leValue 64 [b0, b1, b2, b3, b4, b5, b6, b7] =
      b7 ++ b6 ++ b5 ++ b4 ++ b3 ++ b2 ++ b1 ++ b0 :=
  (leValue_cons_of_eq b0 (leValue_cons_of_eq b1 (leValue_cons_of_eq b2 (leValue_cons_of_eq b3
    (leValue_four 64 b4 b5 b6 b7))))).trans (BitVec.setWidth_eq _)

end Sys2Proof

namespace Sys2Proof.Machine

/-! ## Integers -/

/-- A receive operation that returns `v` (R142 to R145; log 12). -/
theorem runAlone_rxInt_ret {n : Nat} {bs rest : List Byte} {v : Word} {s : State}
    (h : s.rx = bs ++ rest) (hn : bs.length = n) (hv : leValue 64 bs = v) :
    (Op.rxInt .ret n []).runAlone s = { s with
      rx := rest
      rxcrc := crcFold s.rxcrc bs
      ret := v
      log := s.log ++ receiveActions bs } := by
  subst hv
  exact runAlone_done (op_rxInt_complete .ret h hn)

/-- A transmit operation of an operand whose wire bytes are `bs` (R146 to R149). -/
theorem runAlone_txInt {n : Nat} {v : Src} {bs : List Byte} {s : State} (h : s.accepts n)
    (hbs : leBytes n (v.eval s) = bs) :
    (Op.txInt n v).runAlone s = { s with
      txcrc := crcFold s.txcrc bs
      txRoom := s.roomAfter n
      log := s.log ++ sendActions bs } := by
  subst hbs
  exact runAlone_done (op_txInt_complete v h)

/-- Settles O5: the bytes are taken in order (`runAlone_rxInt_ret`), and the value assembled from
them is their concatenation, the last received uppermost. -/
theorem rxIntegersAssembleTheirBytes : Obligations.RxIntegersAssembleTheirBytes := by
  refine ⟨fun s b0 rest hrx => ?_, fun s b0 b1 rest hrx => ?_, fun s b0 b1 b2 b3 rest hrx => ?_,
    fun s b0 b1 b2 b3 b4 b5 b6 b7 rest hrx => ?_⟩
  · rw [exec_rxU8_of_cons hrx, leValue_singleton]
  · exact congrArg Host.Outcome.next (runAlone_rxInt_ret (bs := [b0, b1]) hrx rfl
      (leValue_two 64 b0 b1))
  · exact congrArg Host.Outcome.next (runAlone_rxInt_ret hrx rfl (leValue_four 64 b0 b1 b2 b3))
  · exact congrArg Host.Outcome.next (runAlone_rxInt_ret hrx rfl
      (leValue_eight b0 b1 b2 b3 b4 b5 b6 b7))

/-- Settles O6: the wire bytes of the operand, widened or not, are its bytes from bits 7:0 on
(R81). -/
theorem txIntegersSendTheirBytes : Obligations.TxIntegersSendTheirBytes := by
  refine ⟨fun s v hroom => ?_, fun s v hroom => ?_, fun s v hroom => ?_, fun s v hroom => ?_⟩
  · exact exec_txU8_of_sendU8 (sendU8_of_accepts v hroom)
  · exact congrArg Host.Outcome.next (runAlone_txInt hroom
      (leBytes_setWidth 2 16 v (by decide) (by decide)))
  · exact congrArg Host.Outcome.next (runAlone_txInt hroom
      (leBytes_setWidth 4 32 v (by decide) (by decide)))
  · exact congrArg Host.Outcome.next (runAlone_txInt hroom rfl)

/-! ## Data -/

/-- A 32-bit length given as an operand is itself again where it is used. -/
theorem eval_imm_setWidth (s : State) (len : BitVec 32) :
    ((Src.imm (len.setWidth 64)).eval s).setWidth 32 = len := by
  simp [Src.eval]

theorem exec_rxData_of_writable {s : State} {addr : Addr} {len : BitVec 32}
    {data rest : List Byte} (hlen : data.length = len.toNat) (hrx : s.rx = data ++ rest)
    (hw : s.writable addr len.toNat) :
    exec (.rxData addr len) s = .next { s with
      rx := rest
      rxcrc := crcFold s.rxcrc data
      cnt := len
      mem := s.mem.storeBytesAt addr data
      log := s.log ++ receiveAndStoreActions addr data } := by
  have hop := op_rxData_complete (.imm addr) (.imm (len.setWidth 64))
    (by rw [eval_imm_setWidth]; exact hlen) hrx (hlen ▸ hw)
  rw [eval_imm_setWidth] at hop
  exact congrArg Host.Outcome.next (runAlone_done hop)

theorem exec_txData_of_readable {s : State} {addr : Addr} {len : BitVec 32}
    (hroom : s.accepts len.toNat) (hr : s.readable addr len.toNat) :
    exec (.txData addr len) s = .next { s with
      txcrc := crcFold s.txcrc (s.bytesAt addr len.toNat)
      cnt := len
      reads := s.reads + len.toNat
      txRoom := s.roomAfter len.toNat
      log := s.log ++ readAndSendActions addr (s.bytesAt addr len.toNat) } := by
  have hop := op_txData_complete (.imm addr) (.imm (len.setWidth 64)) (s := s)
    (by rw [eval_imm_setWidth]; exact hroom) (by rw [eval_imm_setWidth]; exact hr)
  rw [eval_imm_setWidth] at hop
  exact congrArg Host.Outcome.next (runAlone_done hop)

theorem exec_rxIgnoreData_of_rx {s : State} {len : BitVec 32} {data rest : List Byte}
    (hlen : data.length = len.toNat) (hrx : s.rx = data ++ rest) :
    exec (.rxIgnoreData len) s = .next { s with
      rx := rest
      rxcrc := crcFold s.rxcrc data
      cnt := len
      log := s.log ++ receiveActions data } := by
  have hop := op_rxIgnoreData_complete (.imm (len.setWidth 64))
    (by rw [eval_imm_setWidth]; exact hlen) hrx
  rw [eval_imm_setWidth] at hop
  exact congrArg Host.Outcome.next (runAlone_done hop)

/-- Settles O7: the loop of `rx_data` (`recvData_complete`), `CNT` from 0 to the length. -/
theorem rxDataStoresEachByteAsItArrives : Obligations.RxDataStoresEachByteAsItArrives :=
  fun _ _ _ _ _ => exec_rxData_of_writable

/-- Settles O8: the loop of `tx_data` (`sendData_complete`), `CNT` from 0 to the length. -/
theorem txDataReadsEachByteAndSendsIt : Obligations.TxDataReadsEachByteAndSendsIt :=
  fun _ _ _ => exec_txData_of_readable

/-- Settles O9: the loop of `rx_ignore_data` (`recvIgnore_complete`), `CNT` from 0 to the length. -/
theorem rxIgnoreDataDrainsWithoutStoring : Obligations.RxIgnoreDataDrainsWithoutStoring :=
  fun _ _ _ _ => exec_rxIgnoreData_of_rx

/-- Settles O56: both operations fold the same bytes from the same accumulator; receiving them is
silent on the memory ports. -/
theorem rxIgnoreDataLeavesTheChecksumOfRxData :
    Obligations.RxIgnoreDataLeavesTheChecksumOfRxData := by
  intro s len data rest hlen hrx
  refine ⟨_, receiveActions data, exec_rxIgnoreData_of_rx hlen hrx, rfl, rfl, rfl, rfl, rfl, rfl,
    receiveActions_silent data, fun addr hw => ?_⟩
  exact ⟨_, exec_rxData_of_writable hlen hrx hw, rfl, rfl⟩

/-! ## The starts and the checksum byte -/

/-- Settles O4: each start is one assignment of the frame seed 0x00. -/
theorem startsResetTheirAccumulator : Obligations.StartsResetTheirAccumulator :=
  fun _ => ⟨rfl, rfl⟩

/-- Settles O10: the boolean comparison of `crcMatches` decides the equality. -/
theorem rxValidateCrcComparesOneByte : Obligations.RxValidateCrcComparesOneByte := by
  intro s c rest hrx
  rw [exec_rxValidateCrc_of_cons hrx, beq_eq_decide]

/-- Settles O11: the accumulator is handed to the transport as it is (`sendCrc_complete`). -/
theorem txCrcSendsTheAccumulator : Obligations.TxCrcSendsTheAccumulator :=
  fun _ => exec_txCrc_of_accepts

end Sys2Proof.Machine
end

section
/-! SUPPORT. What memory holds after a block has been stored (20_memory.md R50, R54, R55), and the
three instructions that store: `rx_data` (41_codec_ops.md R150), Write and Execute (42_commands.md
R186, R187). -/

namespace Sys2Proof.Machine

/-! ## The bytes memory holds -/

theorem State.memByte_of_read_eq {s t : State} {x : Addr} (hcycle : t.cycle = s.cycle)
    (hread : t.mem.read x.toNat = s.mem.read x.toNat) : t.memByte x = s.memByte x := by
  rw [State.memByte, State.memByte, hread, hcycle]

/-- Stores change no byte but those at their addresses. -/
theorem Memory.read_writeAll_of_outside {m : Memory} (h : m.wf = true)
    (stores : List (Addr × Byte)) {x : Addr} (hx : ∀ e ∈ stores, x ≠ e.1) :
    (m.writeAll stores).read x.toNat = m.read x.toNat := by
  induction stores generalizing m with
  | nil => rfl
  | cons e es ih =>
    obtain ⟨hne, hes⟩ := List.forall_mem_cons.mp hx
    calc (m.writeAll (e :: es)).read x.toNat
        = (m.write e.1.toNat e.2).read x.toNat := ih (Memory.wf_write h e.1 e.2) hes
      _ = m.read x.toNat := by
        rw [Memory.read_write h, if_neg fun heq => hne (BitVec.eq_of_toNat_eq heq)]

/-- A block of `n` bytes is at its addresses, and every other address holds what it held. -/
theorem State.memByte_of_stored {s t : State} {a : Addr} {bs : List Byte} {n : Nat}
    (hwf : s.mem.wf = true) (hmem : t.mem = s.mem.storeBytesAt a bs) (hcycle : t.cycle = s.cycle)
    (hlen : bs.length = n) (hn : n ≤ 2 ^ 64) :
    (∀ k < n, t.memByte (a + BitVec.ofNat 64 k) = bs.getD k 0) ∧
      ∀ x : Addr, (∀ k < n, x ≠ a + BitVec.ofNat 64 k) → t.memByte x = s.memByte x := by
  subst hlen
  refine ⟨fun k hk => ?_, fun x hx => State.memByte_of_read_eq hcycle ?_⟩
  · rw [State.memByte, hmem, Memory.read_storeBytesAt hwf a bs hn k hk, Option.getD_some,
      List.getD_eq_getElem _ _ hk]
  · rw [hmem, Memory.read_storeBytesAt_of_outside hwf a bs x hx]

theorem State.memByte_called_of_outside {s : State} {o : CallOutcome} {coming : List CallOutcome}
    {x : Addr} (hwf : s.mem.wf = true) (hx : ∀ e ∈ o.stores, x ≠ e.1) :
    (s.called o coming).memByte x = s.memByte x :=
  State.memByte_of_read_eq rfl (Memory.read_writeAll_of_outside hwf o.stores hx)

/-! ## The instructions that store -/

/-- An accepted Write has stored its data and nothing else whatever its checksum byte: what comes
after the data, response or error, has no memory operation (R54). -/
theorem exec_write_stores {s : State} {addr : Addr} {len : BitVec 32} {data : List Byte}
    (crc : Byte) (hlen : data.length = len.toNat) (hg : s.params.guardAddress ≤ addr)
    (hw : s.writable addr len.toNat) :
    ∃ t, exec (.write addr len data crc) s = .next t ∧ t.mem = s.mem.storeBytesAt addr data ∧
      t.cycle = s.cycle := by
  obtain ⟨l, effect⟩ := (validated respondWrote).run_reaches true
    (s.writeReceived s.params.cmdWrite addr len data (crc :: s.rx)) fun _ => rfl
  obtain ⟨-, hmem⟩ := effect.silent rfl
  refine ⟨_, ?_, hmem, effect.cycle⟩
  rw [exec_write_passed _ _ _ hg, run_rxData_of_header _ _ _ hlen hw]

/-- Settles O28: each instruction stores one block (`State.memByte_of_stored`), Execute after what
the called code has stored. -/
theorem storesReachOnlyTheirAddresses : Obligations.StoresReachOnlyTheirAddresses := by
  intro s addr hwf
  have hlen64 : ∀ len : BitVec 32, len.toNat ≤ 2 ^ 64 := fun len => by have := len.isLt; omega
  refine ⟨fun len data rest hlen hrx hw => ?_, fun len data crc hlen hg hw _ => ?_,
    fun o coming hg hc hr hw hroom => ?_⟩
  · exact ⟨_, exec_rxData_of_writable hlen hrx hw,
      State.memByte_of_stored hwf rfl rfl hlen (hlen64 len)⟩
  · obtain ⟨t, hexec, hmem, hcycle⟩ := exec_write_stores crc hlen hg hw
    exact ⟨t, hexec, State.memByte_of_stored hwf hmem hcycle hlen (hlen64 len)⟩
  · have hrun := run_executeRest_complete (s := s.executeAccepted addr) hr hc hw hroom
    obtain ⟨hslot, hothers⟩ := State.memByte_of_stored
      (s := (s.executeAccepted addr).contextRead.called o coming)
      (t := executeRest.run (s.executeAccepted addr))
      (Memory.wf_writeAll hwf o.stores) (by rw [hrun]; rfl) (by rw [hrun]; rfl)
      (leBytes_length 8 o.value) (by decide)
    refine ⟨_, exec_execute_accepted hg, hslot, fun x hx hcode => ?_⟩
    exact (hothers x hx).trans (State.memByte_called_of_outside hwf hcode)

end Sys2Proof.Machine
end

section
/-! SUPPORT. Nothing of one iteration is carried into the next (42_commands.md R191; 10_state.md
R38): from two states with the same outside that agree on the registers an operation reads, it comes
to two such states by the same port actions; and a frame reads no register it has not written. -/

namespace Sys2Proof.Machine

/-! ## The registers, one by one -/

/-- The registers of 10_state.md R20 and the model's own two, `RET` and the context (log 12, 19). -/
inductive Reg where
  | phase
  | rxcrc
  | txcrc
  | cmd
  | addr
  | len
  | cnt
  | result
  | crcOk
  | policyOk
  | ret
  | ctx

/-- What a register holds. -/
abbrev Reg.Val : Reg → Type
  | .phase => Phase
  | .rxcrc => Byte
  | .txcrc => Byte
  | .cmd => BitVec 16
  | .addr => Addr
  | .len => BitVec 32
  | .cnt => BitVec 32
  | .result => Word
  | .crcOk => Bool
  | .policyOk => Bool
  | .ret => Word
  | .ctx => List Word

def Reg.get : (r : Reg) → State → r.Val
  | .phase, s => s.phase
  | .rxcrc, s => s.rxcrc
  | .txcrc, s => s.txcrc
  | .cmd, s => s.cmd
  | .addr, s => s.addr
  | .len, s => s.len
  | .cnt, s => s.cnt
  | .result, s => s.result
  | .crcOk, s => s.crcOk
  | .policyOk, s => s.policyOk
  | .ret, s => s.ret
  | .ctx, s => s.ctx

def Reg.set : (r : Reg) → r.Val → State → State
  | .phase, v, s => { s with phase := v }
  | .rxcrc, v, s => { s with rxcrc := v }
  | .txcrc, v, s => { s with txcrc := v }
  | .cmd, v, s => { s with cmd := v }
  | .addr, v, s => { s with addr := v }
  | .len, v, s => { s with len := v }
  | .cnt, v, s => { s with cnt := v }
  | .result, v, s => { s with result := v }
  | .crcOk, v, s => { s with crcOk := v }
  | .policyOk, v, s => { s with policyOk := v }
  | .ret, v, s => { s with ret := v }
  | .ctx, v, s => { s with ctx := v }

theorem Reg.get_set_same (r : Reg) (v : r.Val) (s : State) : r.get (r.set v s) = v := by
  cases r <;> rfl

/-- Where two states agree on a register they still do when both have had a register written alike:
the one they agree on, or another. -/
theorem Reg.get_set_congr {q : Reg} {s t : State} (h : q.get s = q.get t) (r : Reg) (v : r.Val) :
    q.get (r.set v s) = q.get (r.set v t) := by
  cases r <;> cases q <;> simp_all [Reg.get, Reg.set]

/-! ## What an operation reads and writes -/

/-- The register a received integer goes to. -/
@[simp] def Dest.reg : Dest → Reg
  | .ret => .ret
  | .cmd => .cmd
  | .addr => .addr
  | .len => .len

/-- The registers a source reads. -/
@[simp] def Src.needs : Src → List Reg
  | .imm _ => []
  | .cmd => [.cmd]
  | .addr => [.addr]
  | .len => [.len]
  | .result => [.result]
  | .guardAddress => []
  | .protocolVersion => []

/-- The registers an operation reads before it has written them. -/
@[simp] def Op.needs : Op → List Reg
  | .setPhase _ => []
  | .rxStart => []
  | .txStart => []
  | .rxInt _ _ _ => [.rxcrc]
  | .txInt _ v => .txcrc :: v.needs
  | .txBytes _ => [.txcrc]
  | .checkPolicy => [.addr]
  | .rxData a l => .rxcrc :: (a.needs ++ l.needs)
  | .rxDataFrom _ _ _ => [.rxcrc, .cnt]
  | .txData a l => .txcrc :: (a.needs ++ l.needs)
  | .txDataFrom _ _ _ => [.txcrc, .cnt]
  | .rxIgnoreData l => .rxcrc :: l.needs
  | .rxIgnoreFrom _ => [.rxcrc, .cnt]
  | .rxValidateCrc => [.rxcrc]
  | .txCrc => [.txcrc]
  | .txFlush => []
  | .loadContext _ _ => [.addr]
  | .execCall => [.ctx]
  | .storeSlot => [.addr, .ret]
  | .storeBytes _ _ => []
  | .loadSlot _ _ => [.addr]

/-- The registers an operation has written, once it is over, whatever they held. -/
@[simp] def Op.gives : Op → List Reg
  | .setPhase _ => [.phase]
  | .rxStart => [.rxcrc]
  | .txStart => [.txcrc]
  | .rxInt d _ _ => [d.reg]
  | .checkPolicy => [.policyOk]
  | .rxData _ _ => [.cnt]
  | .txData _ _ => [.cnt]
  | .rxIgnoreData _ => [.cnt]
  | .rxValidateCrc => [.crcOk]
  | .loadContext _ _ => [.ctx]
  | .execCall => [.ret]
  | .loadSlot _ _ => [.result]
  | _ => []

/-- Pseudocode reads only the registers `K` and those it has written itself. -/
@[simp] def Prog.readsOnly : Prog → List Reg → Prop
  | .done, _ => True
  | .dispatch, _ => True
  | .hardReset, _ => True
  | .resetting, _ => True
  | .op o next, K => o.needs ⊆ K ∧ next.readsOnly (o.gives ++ K)
  | .onCrcOk yes no, K => .crcOk ∈ K ∧ yes.readsOnly K ∧ no.readsOnly K
  | .onPolicyOk yes no, K => .policyOk ∈ K ∧ yes.readsOnly K ∧ no.readsOnly K

/-! ## Two states alike -/

/-- Since their logs were `l₁` and `l₂`, two states have come to the same outside by the same port
actions, and they agree on the registers `K`. -/
structure Alike (l₁ l₂ : List PortAction) (K : List Reg) (s t : State) : Prop where
  params : s.params = t.params
  rx : s.rx = t.rx
  mem : s.mem = t.mem
  noRead : s.noRead = t.noRead
  noWrite : s.noWrite = t.noWrite
  txRoom : s.txRoom = t.txRoom
  flushReady : s.flushReady = t.flushReady
  calls : s.calls = t.calls
  devices : s.devices = t.devices
  reads : s.reads = t.reads
  cycle : s.cycle = t.cycle
  regs : ∀ r ∈ K, r.get s = r.get t
  log : ∃ l, s.log = l₁ ++ l ∧ t.log = l₂ ++ l

/-- Two operations have come to states alike, agreeing on `K'` where they are over; where a port has
stopped them the same is left. -/
inductive Progress.Alike (l₁ l₂ : List PortAction) (K K' : List Reg) : Progress → Progress → Prop
  | done {s t : State} (h : Machine.Alike l₁ l₂ K' s t) :
    Progress.Alike l₁ l₂ K K' (.done s) (.done t)
  | waits {s t : State} (h : Machine.Alike l₁ l₂ K s t) (rest : Op) :
    Progress.Alike l₁ l₂ K K' (.waits s rest) (.waits t rest)

section
variable {l₁ l₂ : List PortAction} {K K' : List Reg} {s t : State}

theorem Alike.of_sameOutside (h : s.sameOutside t) : Alike s.log t.log [] s t := by
  obtain ⟨hparams, hrx, hmem, hnoRead, hnoWrite, hroom, hflush, hcalls, hdevices, hreads,
    hcycle⟩ := h
  exact ⟨hparams, hrx, hmem, hnoRead, hnoWrite, hroom, hflush, hcalls, hdevices, hreads, hcycle,
    by simp, [], by simp, by simp⟩

theorem Alike.sameOutside (h : Alike l₁ l₂ K s t) : s.sameOutside t :=
  ⟨h.params, h.rx, h.mem, h.noRead, h.noWrite, h.txRoom, h.flushReady, h.calls, h.devices, h.reads,
    h.cycle⟩

theorem Alike.mono (h : Alike l₁ l₂ K s t) (hK : K' ⊆ K) : Alike l₁ l₂ K' s t :=
  { h with regs := fun r hr => h.regs r (hK hr) }

theorem Progress.Alike.mono {L L' : List Reg} {p q : Progress} (h : Progress.Alike l₁ l₂ L L' p q)
    (hK : K ⊆ L) (hK' : K' ⊆ L') : Progress.Alike l₁ l₂ K K' p q := by
  cases h with
  | done h => exact .done (h.mono hK')
  | waits h rest => exact .waits (h.mono hK) rest

/-- A register written alike is one more on which the states agree. -/
theorem Alike.set (h : Alike l₁ l₂ K s t) (r : Reg) {v w : r.Val} (hv : v = w) :
    Alike l₁ l₂ (r :: K) (r.set v s) (r.set w t) := by
  subst hv
  have hregs : ∀ q ∈ r :: K, q.get (r.set v s) = q.get (r.set v t) := by
    intro q hq
    rcases List.mem_cons.mp hq with rfl | hq
    · rw [q.get_set_same, q.get_set_same]
    · exact Reg.get_set_congr (h.regs q hq) r v
  cases r <;> exact { h with regs := hregs, log := h.log }

/-- A register on which the states agree, written alike. -/
theorem Alike.update (h : Alike l₁ l₂ K s t) (r : Reg) {v w : r.Val} (hv : v = w) :
    Alike l₁ l₂ K (r.set v s) (r.set w t) :=
  (h.set r hv).mono (List.subset_cons_self ..)

theorem Alike.log_append (h : Alike l₁ l₂ K s t) (p : PortAction) :
    ∃ l, s.log ++ [p] = l₁ ++ l ∧ t.log ++ [p] = l₂ ++ l := by
  obtain ⟨l, hs, ht⟩ := h.log
  exact ⟨l ++ [p], by rw [hs, List.append_assoc], by rw [ht, List.append_assoc]⟩

/-- A port action is one more in either log. -/
theorem Alike.act (h : Alike l₁ l₂ K s t) (p : PortAction) :
    Alike l₁ l₂ K (s.act p) (t.act p) :=
  { h with regs := fun r hr => by cases r <;> exact h.regs _ hr, log := h.log_append p }

theorem Alike.at (h : Alike l₁ l₂ K s t) (x : Prog) : Alike l₁ l₂ K (s.at x) (t.at x) :=
  { h with regs := fun r hr => by cases r <;> exact h.regs _ hr }

/-! ## The ports (00_scope.md R12) -/

/-- A port gives the same byte in either state, or does not answer in either. -/
def SameByte (R : State → State → Prop) (x y : Option (Byte × State)) : Prop :=
  (x = none ∧ y = none) ∨ ∃ b u v, x = some (b, u) ∧ y = some (b, v) ∧ R u v

/-- A port that gives nothing back answers in both states, or in neither. -/
def SameAnswer (R : State → State → Prop) (x y : Option State) : Prop :=
  (x = none ∧ y = none) ∨ ∃ u v, x = some u ∧ y = some v ∧ R u v

theorem rxByte_alike (h : Alike l₁ l₂ K s t) :
    SameByte (Alike l₁ l₂ K) (rxByte s) (rxByte t) := by
  unfold rxByte
  rw [h.rx]
  cases t.rx with
  | nil => exact .inl ⟨rfl, rfl⟩
  | cons b rest =>
    exact .inr ⟨b, _, _, rfl, rfl, { h with
      rx := rfl
      regs := fun r hr => by cases r <;> exact h.regs _ hr
      log := h.log_append _ }⟩

theorem recvU8_alike (h : Alike l₁ l₂ K s t) (hcrc : .rxcrc ∈ K) :
    SameByte (Alike l₁ l₂ K) (recvU8 s) (recvU8 t) := by
  unfold recvU8
  rcases rxByte_alike h with ⟨hs, ht⟩ | ⟨b, u, v, hs, ht, huv⟩ <;> rw [hs, ht]
  · exact .inl ⟨rfl, rfl⟩
  · exact .inr ⟨b, _, _, rfl, rfl,
      huv.update .rxcrc (congrArg (crc8Step · b) (huv.regs .rxcrc hcrc))⟩

theorem txByte_alike (b : Byte) (h : Alike l₁ l₂ K s t) :
    SameAnswer (Alike l₁ l₂ K) (txByte b s) (txByte b t) := by
  unfold txByte
  rw [h.txRoom]
  rcases t.txRoom with _ | _ | n
  · exact .inr ⟨_, _, rfl, rfl, h.act _⟩
  · exact .inl ⟨rfl, rfl⟩
  · exact .inr ⟨_, _, rfl, rfl, { h with
      txRoom := rfl
      regs := fun r hr => by cases r <;> exact h.regs _ hr
      log := h.log_append _ }⟩

theorem sendU8_alike (b : Byte) (h : Alike l₁ l₂ K s t) (hcrc : .txcrc ∈ K) :
    SameAnswer (Alike l₁ l₂ K) (sendU8 b s) (sendU8 b t) := by
  unfold sendU8
  rcases txByte_alike b h with ⟨hs, ht⟩ | ⟨u, v, hs, ht, huv⟩ <;> rw [hs, ht]
  · exact .inl ⟨rfl, rfl⟩
  · exact .inr ⟨_, _, rfl, rfl,
      huv.update .txcrc (congrArg (crc8Step · b) (huv.regs .txcrc hcrc))⟩

theorem flushTx_alike (h : Alike l₁ l₂ K s t) :
    SameAnswer (Alike l₁ l₂ K) (flushTx s) (flushTx t) := by
  unfold flushTx
  rw [h.flushReady]
  cases t.flushReady with
  | false => exact .inl ⟨rfl, rfl⟩
  | true => exact .inr ⟨_, _, rfl, rfl, h.act _⟩

/-- What a `MemRead` answers depends on the outside alone (10_state.md R37). -/
theorem Alike.memAnswer (h : Alike l₁ l₂ K s t) (k : Nat) (a : Addr) :
    s.memAnswer k a = t.memAnswer k a := by
  simp only [State.memAnswer, State.memByte, h.devices, h.reads, h.mem, h.cycle]

theorem memRead_alike (a : Addr) (h : Alike l₁ l₂ K s t) :
    SameByte (Alike l₁ l₂ K) (memRead a s) (memRead a t) := by
  cases hr : inRanges t.noRead a with
  | true => exact .inl ⟨memRead_of_unreadable (h.noRead ▸ hr), memRead_of_unreadable hr⟩
  | false =>
    rw [memRead_of_readable hr, memRead_of_readable (h.noRead ▸ hr), h.memAnswer]
    exact .inr ⟨_, _, _, rfl, rfl, { h with
      reads := congrArg (· + 1) h.reads
      regs := fun r hr => by cases r <;> exact h.regs _ hr
      log := h.log_append _ }⟩

theorem memWrite_alike (a : Addr) (b : Byte) (h : Alike l₁ l₂ K s t) :
    SameAnswer (Alike l₁ l₂ K) (memWrite a b s) (memWrite a b t) := by
  cases hw : inRanges t.noWrite a with
  | true => exact .inl ⟨memWrite_of_unwritable b (h.noWrite ▸ hw), memWrite_of_unwritable b hw⟩
  | false =>
    exact .inr ⟨_, _, memWrite_of_writable b (h.noWrite ▸ hw), memWrite_of_writable b hw, { h with
      mem := congrArg (Memory.write · a.toNat b) h.mem
      regs := fun r hr => by cases r <;> exact h.regs _ hr
      log := h.log_append _ }⟩

theorem callOut_alike (fn : Word) (args : List Word) (h : Alike l₁ l₂ K s t) :
    SameAnswer (Alike l₁ l₂ (.ret :: K)) (callOut fn args s) (callOut fn args t) := by
  unfold callOut
  rw [h.calls]
  cases t.calls with
  | nil => exact .inl ⟨rfl, rfl⟩
  | cons o rest =>
    have hcall : Alike l₁ l₂ K { s with calls := rest, mem := s.mem.writeAll o.stores }
        { t with calls := rest, mem := t.mem.writeAll o.stores } := { h with
      calls := rfl, mem := congrArg (Memory.writeAll · o.stores) h.mem,
      regs := fun r hr => by cases r <;> exact h.regs _ hr }
    exact .inr ⟨_, _, rfl, rfl, (hcall.set .ret (v := o.value) rfl).act _⟩

/-! ## The loops -/

theorem recvInt_alike (d : Dest) (n : Nat) (got : List Byte) (h : Alike l₁ l₂ K s t)
    (hcrc : .rxcrc ∈ K) :
    Progress.Alike l₁ l₂ K (d.reg :: K) (recvInt d n got s) (recvInt d n got t) := by
  induction n generalizing got s t with
  | zero => cases d <;> exact .done (h.set _ rfl)
  | succ n ih =>
    unfold recvInt
    rcases recvU8_alike h hcrc with ⟨hs, ht⟩ | ⟨b, u, v, hs, ht, huv⟩ <;> rw [hs, ht]
    · exact .waits h _
    · exact ih _ huv

theorem sendBytes_alike (bs : List Byte) (h : Alike l₁ l₂ K s t) (hcrc : .txcrc ∈ K) :
    Progress.Alike l₁ l₂ K K (sendBytes bs s) (sendBytes bs t) := by
  induction bs generalizing s t with
  | nil => exact .done h
  | cons b bs ih =>
    unfold sendBytes
    rcases sendU8_alike b h hcrc with ⟨hs, ht⟩ | ⟨u, v, hs, ht, huv⟩ <;> rw [hs, ht]
    · exact .waits h _
    · exact ih huv

theorem Alike.dataAddr (h : Alike l₁ l₂ K s t) (hcnt : .cnt ∈ K) (a : Addr) :
    s.dataAddr a = t.dataAddr a :=
  congrArg (fun c : BitVec 32 => a + c.setWidth 64) (h.regs .cnt hcnt)

theorem Alike.dataLeft (h : Alike l₁ l₂ K s t) (hcnt : .cnt ∈ K) (l : BitVec 32) :
    s.dataLeft l = t.dataLeft l :=
  congrArg (fun c : BitVec 32 => (l - c).toNat) (h.regs .cnt hcnt)

theorem Alike.bumpCnt (h : Alike l₁ l₂ K s t) (hcnt : .cnt ∈ K) :
    Alike l₁ l₂ K s.bumpCnt t.bumpCnt :=
  h.update .cnt (congrArg (fun c : BitVec 32 => c + 1) (h.regs .cnt hcnt))

theorem recvData_alike (a : Addr) (l : BitVec 32) (n : Nat) (h : Alike l₁ l₂ K s t)
    (hcrc : .rxcrc ∈ K) (hcnt : .cnt ∈ K) :
    Progress.Alike l₁ l₂ K K (recvData a l n s) (recvData a l n t) := by
  induction n generalizing s t with
  | zero => exact .done h
  | succ n ih =>
    unfold recvData
    rcases recvU8_alike h hcrc with ⟨hs, ht⟩ | ⟨b, u, v, hs, ht, huv⟩ <;> simp only [hs, ht]
    · exact .waits h _
    · rw [huv.dataAddr hcnt]
      rcases memWrite_alike (v.dataAddr a) b huv with ⟨hu, hv⟩ | ⟨x, y, hu, hv, hxy⟩ <;>
        simp only [hu, hv]
      · exact .waits huv _
      · exact ih (hxy.bumpCnt hcnt)

theorem recvDataFrom_alike (a : Addr) (l : BitVec 32) (held : Option Byte)
    (h : Alike l₁ l₂ K s t) (hcrc : .rxcrc ∈ K) (hcnt : .cnt ∈ K) :
    Progress.Alike l₁ l₂ K K (recvDataFrom a l held s) (recvDataFrom a l held t) := by
  unfold recvDataFrom
  rw [h.dataAddr hcnt]
  cases held with
  | none => simp only [h.dataLeft hcnt]; exact recvData_alike a l _ h hcrc hcnt
  | some b =>
    rcases memWrite_alike (t.dataAddr a) b h with ⟨hs, ht⟩ | ⟨u, v, hs, ht, huv⟩ <;>
      simp only [hs, ht]
    · exact .waits h _
    · rw [huv.dataLeft hcnt]
      exact recvData_alike a l _ (huv.bumpCnt hcnt) hcrc hcnt

theorem sendData_alike (a : Addr) (l : BitVec 32) (n : Nat) (h : Alike l₁ l₂ K s t)
    (hcrc : .txcrc ∈ K) (hcnt : .cnt ∈ K) :
    Progress.Alike l₁ l₂ K K (sendData a l n s) (sendData a l n t) := by
  induction n generalizing s t with
  | zero => exact .done h
  | succ n ih =>
    unfold sendData
    rw [h.dataAddr hcnt]
    rcases memRead_alike (t.dataAddr a) h with ⟨hs, ht⟩ | ⟨b, u, v, hs, ht, huv⟩ <;>
      simp only [hs, ht]
    · exact .waits h _
    · rcases sendU8_alike b huv hcrc with ⟨hu, hv⟩ | ⟨x, y, hu, hv, hxy⟩ <;> simp only [hu, hv]
      · exact .waits huv _
      · exact ih (hxy.bumpCnt hcnt)

theorem sendDataFrom_alike (a : Addr) (l : BitVec 32) (held : Option Byte)
    (h : Alike l₁ l₂ K s t) (hcrc : .txcrc ∈ K) (hcnt : .cnt ∈ K) :
    Progress.Alike l₁ l₂ K K (sendDataFrom a l held s) (sendDataFrom a l held t) := by
  unfold sendDataFrom
  cases held with
  | none => simp only [h.dataLeft hcnt]; exact sendData_alike a l _ h hcrc hcnt
  | some b =>
    rcases sendU8_alike b h hcrc with ⟨hs, ht⟩ | ⟨u, v, hs, ht, huv⟩ <;> simp only [hs, ht]
    · exact .waits h _
    · rw [huv.dataLeft hcnt]
      exact sendData_alike a l _ (huv.bumpCnt hcnt) hcrc hcnt

theorem recvIgnore_alike (l : BitVec 32) (n : Nat) (h : Alike l₁ l₂ K s t)
    (hcrc : .rxcrc ∈ K) (hcnt : .cnt ∈ K) :
    Progress.Alike l₁ l₂ K K (recvIgnore l n s) (recvIgnore l n t) := by
  induction n generalizing s t with
  | zero => exact .done h
  | succ n ih =>
    unfold recvIgnore
    rcases recvU8_alike h hcrc with ⟨hs, ht⟩ | ⟨b, u, v, hs, ht, huv⟩ <;> rw [hs, ht]
    · exact .waits h _
    · exact ih (huv.bumpCnt hcnt)

theorem recvIgnoreFrom_alike (l : BitVec 32) (h : Alike l₁ l₂ K s t) (hcrc : .rxcrc ∈ K)
    (hcnt : .cnt ∈ K) :
    Progress.Alike l₁ l₂ K K (recvIgnoreFrom l s) (recvIgnoreFrom l t) := by
  unfold recvIgnoreFrom
  rw [h.dataLeft hcnt]
  exact recvIgnore_alike l _ h hcrc hcnt

theorem validateCrc_alike (h : Alike l₁ l₂ K s t) (hcrc : .rxcrc ∈ K) :
    Progress.Alike l₁ l₂ K (.crcOk :: K) (validateCrc s) (validateCrc t) := by
  unfold validateCrc
  rcases rxByte_alike h with ⟨hs, ht⟩ | ⟨c, u, v, hs, ht, huv⟩ <;> rw [hs, ht]
  · exact .waits h _
  · exact .done (huv.set .crcOk (congrArg (fun x : Byte => c == x) (huv.regs .rxcrc hcrc)))

theorem sendCrc_alike (h : Alike l₁ l₂ K s t) (hcrc : .txcrc ∈ K) :
    Progress.Alike l₁ l₂ K K (sendCrc s) (sendCrc t) := by
  have htxcrc : s.txcrc = t.txcrc := h.regs .txcrc hcrc
  unfold sendCrc
  rw [htxcrc]
  rcases txByte_alike t.txcrc h with ⟨hs, ht⟩ | ⟨u, v, hs, ht, huv⟩ <;> rw [hs, ht]
  · exact .waits h _
  · exact .done huv

theorem readContext_alike (n : Nat) (got : List Byte) (h : Alike l₁ l₂ K s t)
    (haddr : .addr ∈ K) :
    Progress.Alike l₁ l₂ K (.ctx :: K) (readContext n got s) (readContext n got t) := by
  induction n generalizing got s t with
  | zero => exact .done (h.set .ctx rfl)
  | succ n ih =>
    have hfrom : s.addr = t.addr := h.regs .addr haddr
    unfold readContext
    rw [hfrom]
    rcases memRead_alike (t.addr + BitVec.ofNat 64 got.length) h with
      ⟨hs, ht⟩ | ⟨b, u, v, hs, ht, huv⟩ <;> rw [hs, ht]
    · exact .waits h _
    · exact ih _ huv

theorem callContext_alike (h : Alike l₁ l₂ K s t) (hctx : .ctx ∈ K) :
    Progress.Alike l₁ l₂ K (.ret :: K) (callContext s) (callContext t) := by
  have hwords : s.ctx = t.ctx := h.regs .ctx hctx
  unfold callContext
  rw [hwords]
  rcases callOut_alike (t.ctx.headD 0) t.ctx.tail h with
    ⟨hs, ht⟩ | ⟨u, v, hs, ht, huv⟩ <;> rw [hs, ht]
  · exact .waits h _
  · exact .done huv

theorem writeBytes_alike (a : Addr) (bs : List Byte) (h : Alike l₁ l₂ K s t) :
    Progress.Alike l₁ l₂ K K (writeBytes a bs s) (writeBytes a bs t) := by
  induction bs generalizing a s t with
  | nil => exact .done h
  | cons b bs ih =>
    unfold writeBytes
    rcases memWrite_alike a b h with ⟨hs, ht⟩ | ⟨u, v, hs, ht, huv⟩ <;> rw [hs, ht]
    · exact .waits h _
    · exact ih _ huv

theorem readSlot_alike (n : Nat) (got : List Byte) (h : Alike l₁ l₂ K s t) (haddr : .addr ∈ K) :
    Progress.Alike l₁ l₂ K (.result :: K) (readSlot n got s) (readSlot n got t) := by
  induction n generalizing got s t with
  | zero => exact .done (h.set .result rfl)
  | succ n ih =>
    have hfrom : s.slotAddr = t.slotAddr := congrArg (fun a : Addr => a + 8) (h.regs .addr haddr)
    unfold readSlot
    rw [hfrom]
    rcases memRead_alike (t.slotAddr + BitVec.ofNat 64 got.length) h with
      ⟨hs, ht⟩ | ⟨b, u, v, hs, ht, huv⟩ <;> rw [hs, ht]
    · exact .waits h _
    · exact ih _ huv

/-! ## Operations -/

theorem Src.eval_alike (v : Src) (h : Alike l₁ l₂ K s t) (hv : v.needs ⊆ K) :
    v.eval s = v.eval t := by
  cases v with
  | imm v => rfl
  | cmd => exact congrArg (BitVec.setWidth 64) (h.regs .cmd (hv (List.mem_singleton_self _)))
  | addr => exact h.regs .addr (hv (List.mem_singleton_self _))
  | len => exact congrArg (BitVec.setWidth 64) (h.regs .len (hv (List.mem_singleton_self _)))
  | result => exact h.regs .result (hv (List.mem_singleton_self _))
  | guardAddress => exact congrArg Params.guardAddress h.params
  | protocolVersion => exact congrArg (fun p => p.protocolVersion.setWidth 64) h.params

/-- An operation on states that agree on what it reads. -/
theorem Op.run_alike (o : Op) (h : Alike l₁ l₂ K s t) (ho : o.needs ⊆ K) :
    Progress.Alike l₁ l₂ K (o.gives ++ K) (o.run s) (o.run t) := by
  cases o <;> simp only [Op.needs, List.cons_subset, List.append_subset, List.nil_subset, and_true]
    at ho <;> simp only [Op.gives, Op.run, List.cons_append, List.nil_append]
  case setPhase p => exact .done (h.set .phase rfl)
  case rxStart => exact .done (h.set .rxcrc rfl)
  case txStart => exact .done (h.set .txcrc rfl)
  case rxInt d n got => exact recvInt_alike d n got h ho
  case txInt n v =>
    obtain ⟨hcrc, hv⟩ := ho
    rw [v.eval_alike h hv]
    exact sendBytes_alike _ h hcrc
  case txBytes bs => exact sendBytes_alike bs h ho
  case checkPolicy =>
    have haddr : s.addr = t.addr := h.regs .addr ho
    exact .done (h.set .policyOk (by rw [h.params, haddr]))
  case rxData a l =>
    obtain ⟨hcrc, ha, hl⟩ := ho
    rw [a.eval_alike h ha, l.eval_alike h hl]
    exact (recvDataFrom_alike _ _ none (h.set .cnt (v := 0) rfl) (List.mem_cons_of_mem _ hcrc)
      List.mem_cons_self).mono (List.subset_cons_self ..) (List.Subset.refl _)
  case rxDataFrom a l held => exact recvDataFrom_alike a l held h ho.1 ho.2
  case txData a l =>
    obtain ⟨hcrc, ha, hl⟩ := ho
    rw [a.eval_alike h ha, l.eval_alike h hl]
    exact (sendDataFrom_alike _ _ none (h.set .cnt (v := 0) rfl) (List.mem_cons_of_mem _ hcrc)
      List.mem_cons_self).mono (List.subset_cons_self ..) (List.Subset.refl _)
  case txDataFrom a l held => exact sendDataFrom_alike a l held h ho.1 ho.2
  case rxIgnoreData l =>
    obtain ⟨hcrc, hl⟩ := ho
    rw [l.eval_alike h hl]
    exact (recvIgnoreFrom_alike _ (h.set .cnt (v := 0) rfl) (List.mem_cons_of_mem _ hcrc)
      List.mem_cons_self).mono (List.subset_cons_self ..) (List.Subset.refl _)
  case rxIgnoreFrom l => exact recvIgnoreFrom_alike l h ho.1 ho.2
  case rxValidateCrc => exact validateCrc_alike h ho
  case txCrc => exact sendCrc_alike h ho
  case txFlush =>
    rcases flushTx_alike h with ⟨hs, ht⟩ | ⟨u, v, hs, ht, huv⟩ <;> rw [hs, ht]
    · exact .waits h _
    · exact .done huv
  case loadContext n got => exact readContext_alike n got h ho
  case execCall => exact callContext_alike h ho
  case storeSlot =>
    obtain ⟨haddr, hret⟩ := ho
    have hto : s.slotAddr = t.slotAddr := congrArg (fun a : Addr => a + 8) (h.regs .addr haddr)
    have hvalue : s.ret = t.ret := h.regs .ret hret
    rw [hto, hvalue]
    exact writeBytes_alike _ _ h
  case storeBytes a bs => exact writeBytes_alike a bs h
  case loadSlot n got => exact readSlot_alike n got h ho

/-! ## Pseudocode -/

/-- Pseudocode on states that agree on what it may read: no register they do not agree on gets into
what it does on the ports, or into where it comes to. -/
theorem Prog.run_alike (p : Prog) (h : Alike l₁ l₂ K s t) (hp : p.readsOnly K) :
    Alike l₁ l₂ K (p.run s) (p.run t) ∧ (p.run s).pos = (p.run t).pos := by
  induction p generalizing K s t with
  | done => exact ⟨h.at .done, rfl⟩
  | dispatch => exact ⟨h.at .dispatch, rfl⟩
  | hardReset => exact ⟨(h.at .resetting).act .hardReset, rfl⟩
  | resetting => exact ⟨h.at .resetting, rfl⟩
  | op o next ih =>
    obtain ⟨ho, hnext⟩ := hp
    have hrun := o.run_alike h ho
    generalize hs : o.run s = x, ht : o.run t = y at hrun
    cases hrun with
    | done huv =>
      rw [run_op_done hs, run_op_done ht]
      obtain ⟨hend, hpos⟩ := ih huv hnext
      exact ⟨hend.mono (List.subset_append_right ..), hpos⟩
    | waits huv rest =>
      rw [run_op_waits hs, run_op_waits ht]
      exact ⟨huv.at _, rfl⟩
  | onCrcOk yes no ihyes ihno =>
    obtain ⟨hflag, hyes, hno⟩ := hp
    have hok : s.crcOk = t.crcOk := h.regs .crcOk hflag
    rw [run_onCrcOk, run_onCrcOk, hok]
    cases t.crcOk with
    | false => exact ihno h hno
    | true => exact ihyes h hyes
  | onPolicyOk yes no ihyes ihno =>
    obtain ⟨hflag, hyes, hno⟩ := hp
    have hok : s.policyOk = t.policyOk := h.regs .policyOk hflag
    rw [run_onPolicyOk, run_onPolicyOk, hok]
    cases t.policyOk with
    | false => exact ihno h hno
    | true => exact ihyes h hyes

end

/-! ## A request (R191) -/

@[simp] theorem raiseError_readsOnly (e : ErrorCode) (K : List Reg) :
    (raiseError e).readsOnly K := by
  simp [raiseError]

@[simp] theorem validated_readsOnly (k : Prog) (K : List Reg) :
    (validated k).readsOnly K ↔ .rxcrc ∈ K ∧ k.readsOnly (.crcOk :: .phase :: K) := by
  simp [validated]

theorem rejected_readsOnly (p : Params) (e : ErrorCode) {K : List Reg} (hcrc : .rxcrc ∈ K) :
    (rejected p e).readsOnly K := by
  unfold rejected
  cases p.policyFailCrc <;> simp [hcrc]

/-- No request case reads a register before the frame has written it, under every value of the two
policy parameters. -/
theorem requestBody_readsOnly (p : Params) (c : Command) :
    (Prog.op .rxStart (awaitCode (requestBody p c))).readsOnly [.phase] := by
  cases c with
  | getVersion => simp [requestBody, getVersionBody, awaitCode, respondVersion, respond, endFrame]
  | getBase => simp [requestBody, getBaseBody, awaitCode, respondBase, respond, endFrame]
  | read => simp [requestBody, readBody, awaitCode, respondData, respond, endFrame]
  | write =>
    simp [requestBody, writeBody, awaitCode, respondWrote, respond, endFrame, rejected_readsOnly]
  | execute =>
    simp [requestBody, executeBody, awaitCode, respondResult, respond, endFrame,
      rejected_readsOnly]
  | reset => simp [requestBody, resetBody, awaitCode, respondResetting, respond]
  | unrecognised =>
    simp only [requestBody, unrecognisedBody]
    cases p.unknownCmdCrc <;> simp [awaitCode]

/-- The bytes of a request and its case depend on the arguments alone. -/
theorem exec_of_encode_params {i : Instr} {p : Params} {enc : List Byte}
    (h : encode p i = some enc) :
    ∃ c, ∀ s : State, s.params = p → exec i s = .next (receiveFrame enc (requestBody p c) s) := by
  cases i with
  | getVersion => cases h; exact ⟨.getVersion, by rintro s rfl; rfl⟩
  | getBase => cases h; exact ⟨.getBase, by rintro s rfl; rfl⟩
  | read => cases h; exact ⟨.read, by rintro s rfl; rfl⟩
  | write => cases h; exact ⟨.write, by rintro s rfl; rfl⟩
  | execute => cases h; exact ⟨.execute, by rintro s rfl; rfl⟩
  | reset => cases h; exact ⟨.reset, by rintro s rfl; rfl⟩
  | unrecognised => cases h; exact ⟨.unrecognised, by rintro s rfl; rfl⟩
  | _ => cases h

/-- Handling a frame from two states with the same outside: `STATE` is the first register written
(R180). -/
theorem receiveFrame_alike {s t : State} (h : s.sameOutside t) (enc : List Byte) (p : Params)
    (c : Command) :
    Alike s.log t.log [.phase] (receiveFrame enc (requestBody p c) s)
        (receiveFrame enc (requestBody p c) t) ∧
      (receiveFrame enc (requestBody p c) s).pos = (receiveFrame enc (requestBody p c) t).pos := by
  have hstart := Alike.of_sameOutside h
  have harrived : Alike s.log t.log [] { s with rx := enc ++ s.rx } { t with rx := enc ++ t.rx } :=
    { hstart with rx := congrArg (enc ++ ·) hstart.rx, regs := by simp, log := hstart.log }
  exact (Prog.op .rxStart (awaitCode (requestBody p c))).run_alike
    (harrived.set .phase (v := .awaitCommand) rfl) (requestBody_readsOnly p c)

/-- Settles O44: the frame is handled alike (`receiveFrame_alike`), and what being alike says of the
outside, `STATE` and the port log is the statement. -/
theorem nothingIsCarriedIntoTheNextFrame : Obligations.NothingIsCarriedIntoTheNextFrame := by
  intro s t i hi h
  obtain ⟨enc, henc⟩ := Option.isSome_iff_exists.mp ((encode_isSome s.params i).trans hi)
  obtain ⟨c, hexec⟩ := exec_of_encode_params henc
  obtain ⟨hend, hpos⟩ := receiveFrame_alike h enc s.params c
  obtain ⟨l, hs, ht⟩ := hend.log
  exact ⟨_, _, l, hexec s rfl, hexec t (Alike.of_sameOutside h).params.symm, hs, ht,
    hend.sameOutside, hend.regs .phase List.mem_cons_self, hpos⟩

end Sys2Proof.Machine
end

section
/-! SUPPORT. The two ways in which the model runs a request that has arrived (42_commands.md R180,
R181; log 2, 10): a step from the top of the loop and `exec` of the decoded frame. -/

namespace Sys2Proof.Machine

/-- Settles O33 (`exec_decoded_eq_serveFrame`). -/
theorem serialReceptionRunsTheDecodedFrame : Obligations.SerialReceptionRunsTheDecodedFrame :=
  fun _ _ _ => exec_decoded_eq_serveFrame

/-- Settles O32: at the top of the loop a step serves a frame byte by byte, which is executing the
frame that has arrived. -/
theorem stepRunsTheDecodedFrame : Obligations.StepRunsTheDecodedFrame :=
  fun _ _ _ hpos hdecode => (step_of_done hpos).trans (exec_decoded_eq_serveFrame hdecode).symm

end Sys2Proof.Machine
end

section
/-! SUPPORT. The seven requests (42_commands.md R183 to R189): each has its frame received and its
checksum byte compared, and then sends the response or the error that the comparison selects. -/

namespace Sys2Proof.Machine

/-! ## The checksum byte -/

/-- The state in which a checksum byte has been taken and compared with that of a payload (R153). -/
def State.checksumTaken (s : State) (payload : List Byte) (crc : Byte) (rest : List Byte) : State :=
  { s with rx := rest, crcOk := decide (crc = crc8 payload), log := s.log ++ [.rxByte crc] }

theorem op_rxValidateCrc_taken {s : State} {payload rest : List Byte} {crc : Byte}
    (hrx : s.rx = crc :: rest) (hcrc : s.rxcrc = crc8 payload) :
    Op.rxValidateCrc.run s = .done (s.checksumTaken payload crc rest) := by
  rw [op_rxValidateCrc_complete hrx, State.checksumTaken, ← hcrc]
  rfl

theorem run_onCrcOk_taken (yes no : Prog) (s : State) (payload rest : List Byte) (crc : Byte) :
    (Prog.onCrcOk yes no).run (s.checksumTaken payload crc rest) =
      (if crc = crc8 payload then yes else no).run (s.checksumTaken payload crc rest) := by
  rw [run_onCrcOk]
  by_cases h : crc = crc8 payload <;> simp [State.checksumTaken, h]

/-- The common tail (R190): the comparison selects between the rest of the case and Invalid-CRC. -/
theorem run_validated (k : Prog) {s : State} {payload rest : List Byte} {crc : Byte}
    (hrx : s.rx = crc :: rest) (hcrc : s.rxcrc = crc8 payload) :
    (validated k).run s = (if crc = crc8 payload then k else raiseError .invalidCrc).run
      (State.checksumTaken { s with phase := .validatingCrc } payload crc rest) := by
  rw [validated, run_setPhase, run_op_done (op_rxValidateCrc_taken (by exact hrx) (by exact hcrc)),
    run_onCrcOk_taken]

/-- The tail of a rejected request that consumes its checksum byte (R186, R187, D7). -/
theorem run_rejected_consumeMasked {p : Params} (hp : p.policyFailCrc = .consumeMasked)
    (e : ErrorCode) {s : State} (ph : Phase) {payload : List Byte} (crc : Byte)
    (hcrc : s.rxcrc = crc8 payload) (hroom : s.accepts 5) :
    (rejected p e).run { s with phase := ph, rx := crc :: s.rx } =
      State.answerError { s with crcOk := decide (crc = crc8 payload),
                                 log := s.log ++ [.rxByte crc] } e := by
  simp only [rejected, hp]
  refine (run_op_done (op_rxValidateCrc_taken (s := { s with phase := ph, rx := crc :: s.rx })
    rfl hcrc)).trans ?_
  exact run_raiseError e _ hroom

/-- The tail of a rejected request that leaves its checksum byte in the stream (D7). -/
theorem run_rejected_skip {p : Params} (hp : p.policyFailCrc = .skip) (e : ErrorCode) {s : State}
    (ph : Phase) (rx : List Byte) (hroom : s.accepts 5) :
    (rejected p e).run { s with phase := ph, rx := rx } =
      State.answerError { s with rx := rx } e := by
  simp only [rejected, hp]
  exact run_raiseError e _ hroom

/-- Room for a response does not depend on anything else of the state. -/
theorem State.accepts_of_txRoom {s t : State} {n : Nat} (ht : t.txRoom = s.txRoom)
    (h : s.accepts n) : t.accepts n :=
  State.accepts_of_room (s := s) (m := 0) (by simpa using h) (by simpa using ht)

theorem State.received_txRoom (s : State) (code : BitVec 16) (payload : List Byte)
    (actions : List PortAction) : (s.received code payload actions).txRoom = s.txRoom := rfl

theorem State.received_rxcrc (s : State) (code : BitVec 16) (payload : List Byte)
    (actions : List PortAction) : (s.received code payload actions).rxcrc = crc8 payload := rfl

/-! ## Requests without fields (30_encoding.md R84, format Q0) -/

/-- The state in which a command code and a checksum byte have been received, the comparison
latched. -/
def State.codeReceived (s : State) (ph : Phase) (code : BitVec 16) (crc : Byte) : State :=
  { s.received code (leBytes 2 code) (receiveActions (leBytes 2 code ++ [crc])) with
    phase := ph
    crcOk := decide (crc = crc8 (leBytes 2 code)) }

theorem State.codeReceived_txRoom (s : State) (ph : Phase) (code : BitVec 16) (crc : Byte) :
    (s.codeReceived ph code crc).txRoom = s.txRoom := by
  simp only [State.codeReceived, State.received]

theorem receiveFrame_validated (k : Prog) (code : BitVec 16) (crc : Byte) (s : State) :
    receiveFrame (frameBytes code [] crc) (validated k) s =
      (if crc = crc8 (leBytes 2 code) then k else raiseError .invalidCrc).run
        (s.codeReceived .validatingCrc code crc) := by
  rw [receiveFrame, run_frame _ code (crc :: s.rx) _ (by simp [frameBytes]),
    run_validated k (payload := leBytes 2 code) rfl rfl]
  simp only [State.checksumTaken, State.codeReceived, State.received, receiveActions_append,
    receiveActions_cons, receiveActions_nil, List.append_assoc]

/-- Under a wrong checksum byte a request without fields is answered with Invalid-CRC (R190). -/
theorem receiveFrame_validated_wrong (k : Prog) {code : BitVec 16} {crc : Byte} {s : State}
    (h : crc ≠ crc8 (leBytes 2 code)) (hroom : s.accepts 5) :
    receiveFrame (frameBytes code [] crc) (validated k) s =
      (s.codeReceived .validatingCrc code crc).answerError .invalidCrc := by
  rw [receiveFrame_validated, if_neg h]
  exact run_raiseError _ _ (State.accepts_of_txRoom (s.codeReceived_txRoom ..) hroom)

/-- Settles O18: both outcomes of the comparison have five bytes to send. -/
theorem getVersionFollowsItsRule : Obligations.GetVersionFollowsItsRule := by
  intro s crc hroom code req t
  refine congrArg Host.Outcome.next ?_
  by_cases h : crc = crc8 req
  · rw [if_pos h]
    refine (receiveFrame_validated respondVersion code crc s).trans ?_
    rw [if_pos h]
    exact run_respondVersion (State.accepts_of_txRoom (s.codeReceived_txRoom ..) hroom)
  · rw [if_neg h]
    exact receiveFrame_validated_wrong respondVersion h hroom

/-- Settles O19: the tail selects between SB and the Invalid-CRC frame. -/
theorem getBaseFollowsItsRule : Obligations.GetBaseFollowsItsRule := by
  intro s crc req t
  refine ⟨fun h hroom => congrArg Host.Outcome.next ?_, fun h hroom =>
    congrArg Host.Outcome.next ?_⟩
  · refine (receiveFrame_validated respondBase cmdGetBaseAddress crc s).trans ?_
    rw [if_pos h]
    exact run_respondBase (State.accepts_of_txRoom (s.codeReceived_txRoom ..) hroom)
  · exact receiveFrame_validated_wrong respondBase h hroom

/-! ## Reset (R188) -/

/-- Format S0, then the flush and the reset. -/
theorem run_respondResetting {s : State} (hroom : s.accepts 3) (hflush : s.flushReady = true) :
    respondResetting.run s = { s with
      txcrc := crc8 (leBytes 2 s.cmd)
      phase := .responding
      pos := .resetting
      txRoom := s.roomAfter 3
      log := s.log ++ sendActions (withCrc (leBytes 2 s.cmd)) ++ [.txFlush, .hardReset] } := by
  refine (run_respond [] (.op .txFlush .hardReset) s (leBytes 2 s.cmd) (by simp [fieldBytes])
    (by simpa using hroom)).trans ?_
  rw [run_op_done (op_txFlush_complete (by exact hflush)), run_hardReset]
  simp only [leBytes_length, List.append_assoc, List.cons_append, List.nil_append]

/-- Settles O16: the response of Reset (log 23). -/
theorem resettingResponseFlushesAndResets : Obligations.ResettingResponseFlushesAndResets :=
  fun _ hroom hflush => congrArg Host.Outcome.next (run_respondResetting hroom hflush)

/-- Settles O23: the tail selects between the response with the reset and the Invalid-CRC frame. -/
theorem resetFollowsItsRule : Obligations.ResetFollowsItsRule := by
  intro s crc code req t
  refine ⟨fun h hroom hflush => congrArg Host.Outcome.next ?_, fun h hroom =>
    congrArg Host.Outcome.next (receiveFrame_validated_wrong respondResetting h hroom)⟩
  refine (receiveFrame_validated respondResetting code crc s).trans ?_
  rw [if_pos h]
  exact run_respondResetting (State.accepts_of_txRoom (s.codeReceived_txRoom ..) hroom) hflush

/-! ## Unrecognised (R189, D8) -/

/-- A checksum byte after a code, where it is taken without the common tail. -/
theorem receiveFrame_rxValidateCrc (k : Prog) (code : BitVec 16) (crc : Byte) (s : State) :
    receiveFrame (leBytes 2 code ++ [crc]) (.op .rxValidateCrc k) s =
      k.run (s.codeReceived .decodingFields code crc) := by
  rw [receiveFrame, run_frame _ code (crc :: s.rx) _ (by simp),
    run_op_done (op_rxValidateCrc_taken (payload := leBytes 2 code) rfl rfl)]
  simp only [State.checksumTaken, State.codeReceived, State.received, receiveActions_append,
    receiveActions_cons, receiveActions_nil, List.append_assoc]

theorem exec_unrecognised (code : BitVec 16) (crc : Option Byte) (s : State) :
    exec (.unrecognised code crc) s =
      .next (receiveFrame (leBytes 2 code ++ crc.toList) (unrecognisedBody s.params) s) := rfl

/-- Settles O24: the argument selects whether the byte is taken and whether its comparison is used.
-/
theorem unrecognisedFollowsItsRule : Obligations.UnrecognisedFollowsItsRule := by
  intro s code crc hroom req t
  have htaken : (s.codeReceived .decodingFields code crc).accepts 5 :=
    State.accepts_of_txRoom (s.codeReceived_txRoom ..) hroom
  refine ⟨fun hp => ?_, fun hp => ?_, fun hp => ?_⟩ <;>
    refine (exec_unrecognised code _ s).trans (congrArg Host.Outcome.next ?_) <;>
    simp only [unrecognisedBody, hp, Option.toList_some, Option.toList_none]
  · rw [receiveFrame_rxValidateCrc]
    exact run_raiseError _ _ htaken
  · rw [receiveFrame, run_frame _ code s.rx _ (by simp)]
    exact run_raiseError _ _ hroom
  · rw [receiveFrame_rxValidateCrc, run_onCrcOk]
    by_cases h : crc = crc8 req
    · have hok : (s.codeReceived .decodingFields code crc).crcOk = true := decide_eq_true h
      rw [if_pos h, if_pos hok]
      exact run_raiseError _ _ htaken
    · have hok : ¬(s.codeReceived .decodingFields code crc).crcOk = true := by
        simpa only [State.codeReceived, decide_eq_true_eq] using h
      rw [if_neg h, if_neg hok]
      exact run_raiseError _ _ htaken

/-! ## Read (R185) -/

/-- The state in which a Read has been received, the comparison latched. -/
def State.readReceived (s : State) (addr : Addr) (len : BitVec 32) (crc : Byte) : State :=
  { s.received s.params.cmdRead (echoHeader s.params.cmdRead addr len)
      (receiveActions (echoHeader s.params.cmdRead addr len ++ [crc])) with
    phase := .validatingCrc
    addr := addr
    len := len
    crcOk := decide (crc = crc8 (echoHeader s.params.cmdRead addr len)) }

theorem State.readReceived_txRoom (s : State) (addr : Addr) (len : BitVec 32) (crc : Byte) :
    (s.readReceived addr len crc).txRoom = s.txRoom := by
  simp only [State.readReceived, State.received]

theorem exec_read (addr : Addr) (len : BitVec 32) (crc : Byte) (s : State) :
    exec (.read addr len crc) s =
      .next ((if crc = crc8 (echoHeader s.params.cmdRead addr len) then respondData
        else raiseError .invalidCrc).run (s.readReceived addr len crc)) := by
  refine congrArg Host.Outcome.next
    ((run_frame_header (s := { s with rx := _ }) _ (read_frameBytes ..)).trans ?_)
  rw [run_validated respondData (payload := echoHeader s.params.cmdRead addr len) rfl rfl]
  simp only [State.checksumTaken, State.headerReceived, State.readReceived, State.received,
    receiveActions_append, receiveActions_cons, receiveActions_nil, List.append_assoc]

/-- Settles O20: the tail selects between SALD and the Invalid-CRC frame. -/
theorem readFollowsItsRule : Obligations.ReadFollowsItsRule := by
  intro s addr len crc code req data t
  have hroomOf : ∀ {n}, s.accepts n → (s.readReceived addr len crc).accepts n :=
    State.accepts_of_txRoom (s.readReceived_txRoom ..)
  refine ⟨fun h hroom hr => (exec_read addr len crc s).trans (congrArg Host.Outcome.next ?_),
    fun h hroom => (exec_read addr len crc s).trans (congrArg Host.Outcome.next ?_)⟩
  · rw [if_pos h]
    exact run_respondData_complete (s := s.readReceived addr len crc) (hroomOf hroom) hr
  · rw [if_neg h]
    exact run_raiseError _ _ (hroomOf hroom)

/-! ## Write (R186) -/

/-- The state in which an accepted Write has been received and stored, the comparison latched. -/
def State.writeValidated (s : State) (addr : Addr) (len : BitVec 32) (data : List Byte)
    (crc : Byte) : State :=
  { s.received s.params.cmdWrite (echoHeader s.params.cmdWrite addr len ++ data)
      (receiveActions (echoHeader s.params.cmdWrite addr len) ++ receiveAndStoreActions addr data ++
        [.rxByte crc]) with
    phase := .validatingCrc
    addr := addr
    len := len
    cnt := len
    policyOk := true
    crcOk := decide (crc = crc8 (echoHeader s.params.cmdWrite addr len ++ data))
    mem := s.mem.storeBytesAt addr data }

theorem State.writeValidated_txRoom (s : State) (addr : Addr) (len : BitVec 32) (data : List Byte)
    (crc : Byte) : (s.writeValidated addr len data crc).txRoom = s.txRoom := by
  simp only [State.writeValidated, State.received]

theorem exec_write_validated {s : State} {addr : Addr} {len : BitVec 32} {data : List Byte}
    (crc : Byte) (hlen : data.length = len.toNat) (hg : s.params.guardAddress ≤ addr)
    (hw : s.writable addr len.toNat) :
    exec (.write addr len data crc) s =
      .next ((if crc = crc8 (echoHeader s.params.cmdWrite addr len ++ data) then respondWrote
        else raiseError .invalidCrc).run (s.writeValidated addr len data crc)) := by
  rw [exec_write_passed _ _ _ hg, run_rxData_of_header _ _ _ hlen hw,
    run_validated respondWrote (State.writeReceived_rx ..) (State.writeReceived_rxcrc ..)]
  simp only [State.checksumTaken, State.writeReceived, State.writeValidated, State.received,
    List.append_assoc]

/-- A Write below the guard, received up to its checksum byte and its data dropped. -/
theorem exec_write_drained {s : State} {addr : Addr} {len : BitVec 32} {data req : List Byte}
    (crc : Byte) (hlen : data.length = len.toNat) (hg : addr < s.params.guardAddress)
    (hreq : req = echoHeader s.params.cmdWrite addr len ++ data) :
    exec (.write addr len data crc) s =
      .next ((rejected s.params .invalidArgument).run
        { s.received s.params.cmdWrite req (receiveActions req) with
          phase := .decodingFields
          addr := addr
          len := len
          cnt := len
          policyOk := false
          rx := crc :: s.rx }) := by
  have hdrain := op_rxIgnoreData_complete .len (data := data) (rest := crc :: s.rx)
    (s := (s.headerReceived s.params.cmdWrite addr len (data ++ crc :: s.rx)).policyChecked false)
    (by rw [eval_len_setWidth]; exact hlen) rfl
  rw [exec_write_failed _ _ _ hg, run_op_done hdrain, eval_len_setWidth, hreq]
  simp only [State.policyChecked, State.headerReceived, State.received,
    crc8_append, receiveActions_append, List.append_assoc]

/-- Settles O21: with the policy passed the tail selects between SAL and the Invalid-CRC frame, with
the policy failed the argument selects what becomes of the checksum byte. -/
theorem writeFollowsItsRule : Obligations.WriteFollowsItsRule := by
  intro s addr len data crc hlen code header req
  constructor
  · intro hg hw t
    have hexec := exec_write_validated crc hlen hg hw
    have hroomOf : ∀ {n}, s.accepts n → (s.writeValidated addr len data crc).accepts n :=
      State.accepts_of_txRoom (s.writeValidated_txRoom ..)
    refine ⟨fun h hroom => hexec.trans (congrArg Host.Outcome.next ?_),
      fun h hroom => hexec.trans (congrArg Host.Outcome.next ?_)⟩
    · rw [if_pos h]
      exact run_respondWrote (hroomOf hroom)
    · rw [if_neg h]
      exact run_raiseError _ _ (hroomOf hroom)
  · intro hg hroom t
    have hroomLeft : t.accepts 5 :=
      State.accepts_of_txRoom (s.received_txRoom code req (receiveActions req)) hroom
    refine (exec_write_drained (req := req) crc hlen hg rfl).trans (congrArg Host.Outcome.next ?_)
    -- Opaque bytes: no comparison of states below runs the checksum over the header.
    clear_value req
    cases hp : s.params.policyFailCrc with
    | consumeMasked =>
      exact run_rejected_consumeMasked hp _ (s := t) _ crc
        (s.received_rxcrc code req (receiveActions req)) hroomLeft
    | skip => exact run_rejected_skip hp _ (s := t) _ _ hroomLeft

/-! ## Execute (R187) -/

/-- The state in which an Execute has passed the policy, the comparison latched. -/
def State.executeReceived (s : State) (addr : Addr) (crc : Byte) : State :=
  { s.received s.params.cmdExecute (leBytes 2 s.params.cmdExecute ++ leBytes 8 addr)
      (receiveActions (leBytes 2 s.params.cmdExecute ++ leBytes 8 addr ++ [crc])) with
    phase := .validatingCrc
    addr := addr
    policyOk := true
    crcOk := decide (crc = crc8 (leBytes 2 s.params.cmdExecute ++ leBytes 8 addr)) }

theorem State.executeReceived_txRoom (s : State) (addr : Addr) (crc : Byte) :
    (s.executeReceived addr crc).txRoom = s.txRoom := by
  simp only [State.executeReceived, State.received]

theorem exec_execute_passed {s : State} {addr : Addr} (crc : Byte)
    (hg : s.params.guardAddress ≤ addr) :
    exec (.execute addr crc) s =
      .next ((if crc = crc8 (leBytes 2 s.params.cmdExecute ++ leBytes 8 addr)
          then .op (.setPhase .responding) executeRest
          else raiseError .invalidCrc).run (s.executeReceived addr crc)) := by
  refine congrArg Host.Outcome.next
    ((run_frame_address (s := { s with rx := _ }) _ (execute_frameBytes ..)).trans
      ((run_policy_passed _ _ hg).trans ((run_validated _
        (payload := leBytes 2 s.params.cmdExecute ++ leBytes 8 addr) rfl rfl).trans ?_)))
  simp only [State.checksumTaken, State.policyChecked, State.addressReceived,
    State.executeReceived, State.received, receiveActions_append, receiveActions_cons,
    receiveActions_nil, List.append_assoc, seq_cons, executeRest]

theorem State.wordAt_zero (s : State) (a : Addr) : s.wordAt 0 a = leValue 64 (s.bytesAt a 8) := by
  simp [State.wordAt, State.bytesAt]

theorem State.slotRead_eq (s : State) :
    s.slotRead =
      { s with reads := s.reads + 8, result := leValue 64 (s.bytesAt (s.addr + 8) 8),
               log := s.log ++ readActions (s.addr + 8) (s.bytesAt (s.addr + 8) 8) } := by
  rw [State.slotRead, State.wordAt_zero]

/-- An accepted Execute whose call returns, answered with what its slot reads back (D25). -/
theorem run_executeRest_answer {s : State} {o : CallOutcome} {coming : List CallOutcome}
    (h : s.readable s.addr 72) (hc : s.calls = o :: coming) (hw : s.writable (s.addr + 8) 8)
    (hroom : s.accepts 19) :
    executeRest.run s = (s.contextRead.called o coming).slotStored.slotRead.answer
      (leBytes 2 s.cmd ++ leBytes 8 s.addr ++
        (s.contextRead.called o coming).slotStored.bytesAt (s.addr + 8) 8) := by
  rw [run_executeRest_complete h hc hw hroom, State.slotRead_eq,
    leBytes_leValue 8 64 _ (State.bytesAt_length ..) rfl]
  rfl

/-- Settles O22: with the policy passed the tail selects between the call with its response and the
Invalid-CRC frame; what is read back from ordinary memory is what was stored
(`State.bytesAt_of_stored`). -/
theorem executeFollowsItsRule : Obligations.ExecuteFollowsItsRule := by
  intro s addr crc code req
  constructor
  · intro hg t
    have hexec := exec_execute_passed crc hg
    constructor
    · intro o coming h hc hr hw hroom ctx after back
      constructor
      · refine hexec.trans (congrArg Host.Outcome.next ?_)
        rw [if_pos h, run_setPhase]
        refine (run_executeRest_answer
          (s := { s.executeReceived addr crc with phase := .responding }) hr hc hw
          (State.accepts_of_txRoom (s.executeReceived_txRoom addr crc) hroom)).trans ?_
        rw [State.slotRead_eq]
        rfl
      · intro hwf ho
        have hstored := State.bytesAt_of_stored
          (s := { s with mem := after, reads := s.reads + 72 })
          (Memory.wf_writeAll hwf o.stores) (addr + 8) (leBytes 8 o.value) (by simp) rfl
          (by rw [leBytes_length]; exact ho)
        rwa [leBytes_length] at hstored
    · intro h hroom
      refine hexec.trans (congrArg Host.Outcome.next ?_)
      rw [if_neg h]
      exact run_raiseError _ _ (State.accepts_of_txRoom (s.executeReceived_txRoom ..) hroom)
  · intro hg hroom t
    have hroomLeft : t.accepts 5 :=
      State.accepts_of_txRoom (s.received_txRoom code req (receiveActions req)) hroom
    refine (exec_execute_failed crc hg).trans (congrArg Host.Outcome.next ?_)
    cases hp : s.params.policyFailCrc with
    | consumeMasked =>
      exact run_rejected_consumeMasked hp _ (s := t) _ crc
        (s.received_rxcrc code req (receiveActions req)) hroomLeft
    | skip => exact run_rejected_skip hp _ (s := t) _ _ hroomLeft

end Sys2Proof.Machine
end

section
/-! SUPPORT. The three Error responses (60_exceptions.md R230): raising an error answers with the
frame of its code (`run_raiseError`), whose five bytes are evaluated here once for each code. -/

namespace Sys2Proof.Machine

/-! ## The constant frames -/

/-- R231: the Invalid-CRC frame, its checksum by 40_crc8.md. -/
theorem errorFrame_invalidCrc :
    errorFrame .invalidCrc = [0x06, 0x00, 0x01, 0x00, 0x61] := by decide +kernel

/-- R232: the Invalid-Command frame, its checksum by 40_crc8.md. -/
theorem errorFrame_invalidCommand :
    errorFrame .invalidCommand = [0x06, 0x00, 0x02, 0x00, 0x5E] := by decide +kernel

/-- The bytes of an Error frame say where raising the error ends: `TXCRC` is left at the last of
them, which is not folded into it (D16). -/
theorem run_raiseError_of_errorFrame {e : ErrorCode} {b₀ b₁ b₂ b₃ crc : Byte}
    (hframe : errorFrame e = [b₀, b₁, b₂, b₃, crc]) {s : State} (hroom : s.accepts 5) :
    (raiseError e).run s = { s with
      txcrc := crc
      phase := .awaitCommand
      pos := .done
      txRoom := s.roomAfter 5
      log := s.log ++ sendActions [b₀, b₁, b₂, b₃, crc] } := by
  have hsplit : errorPayload e ++ [crc8 (errorPayload e)] = [b₀, b₁, b₂, b₃] ++ [crc] := hframe
  obtain ⟨hpayload, hcrc⟩ := List.append_inj' hsplit rfl
  rw [run_raiseError e s hroom, State.answerError, State.answer, List.singleton_inj.mp hcrc,
    withCrc, hsplit, hpayload]
  rfl

/-- Settles O17: each Error response raises its error. -/
theorem errorFramesAreConstant : Obligations.ErrorFramesAreConstant := fun _ hroom =>
  ⟨congrArg Host.Outcome.next (run_raiseError_of_errorFrame errorFrame_invalidCrc hroom),
    congrArg Host.Outcome.next (run_raiseError_of_errorFrame errorFrame_invalidCommand hroom),
    congrArg Host.Outcome.next (run_raiseError_of_errorFrame errorFrame_invalidArgument hroom)⟩

end Sys2Proof.Machine
end

section
/-! SUPPORT. Resets (70_reset_and_hazards.md R260 to R263) and the idle block (R266): the first step
from an empty stream, the quiescent block, and the power-on, after `HardReset` or from outside. -/

namespace Sys2Proof.Machine

/-! ## The top of the loop with nothing in the stream -/

/-- R180 on an empty stream: `rx_start` is all that is performed. -/
theorem serveFrame_of_rx_nil {s : State} (h : s.rx = []) :
    serveFrame s =
      { s with phase := .awaitCommand, rxcrc := 0x00, pos := awaitCode .dispatch } :=
  advance_op_waits (s := { s with phase := .awaitCommand, rxcrc := 0x00 })
    (op_rxInt_of_rx_nil .cmd [] h (by decide))

/-- Where `rx_start` has been performed in `AwaitCommand`, the start of an iteration changes nothing
(R180). -/
theorem run_frame_of_started (body : Prog) {s : State} (hphase : s.phase = .awaitCommand)
    (hcrc : s.rxcrc = 0x00) : (frame body).run s = (awaitCode body).run s := by
  have hstarted : { s with phase := .awaitCommand, rxcrc := 0x00 } = s := by rw [← hphase, ← hcrc]
  rw [frame, seq_cons, seq_cons, seq_nil, run_setPhase, run_rxStart]
  exact congrArg _ hstarted

/-! ## The quiescent block (R266) -/

theorem State.waiting_of_quiescent {s : State} (h : s.quiescent) : s.waiting := by
  obtain ⟨-, hpos, hrx⟩ := h
  exact State.waiting_of_op_waits hpos (op_rxInt_of_rx_nil .cmd [] hrx (by decide))

/-- What the host sends is all that the stream of a quiescent block then holds. -/
theorem State.hostSends_of_rx_nil {s : State} (h : s.rx = []) (bs : List Byte) :
    s.hostSends bs = { s with rx := bs } := by
  rw [State.hostSends, h, List.nil_append]

/-- Settles O35: the command code finds the stream empty, once at the top of the loop and again
wherever the block is quiescent. -/
theorem idleBlockBecomesQuiescentAndStaysSo : Obligations.IdleBlockBecomesQuiescentAndStaysSo := by
  refine ⟨fun s hpos hrx => ⟨serveFrame s, step_of_done hpos, ?_⟩,
    fun s => State.waiting_of_quiescent⟩
  rw [serveFrame_of_rx_nil hrx]
  exact ⟨⟨rfl, rfl, hrx⟩, rfl, rfl, rfl⟩

/-- Settles O34: from where it waits a quiescent block runs the rest of the iteration that the
decoded frame is executed by (`exec_decoded_eq_serveFrame`). -/
theorem quiescentBlockServesTheNextFrame : Obligations.QuiescentBlockServesTheNextFrame := by
  intro s bs i rest hquiescent hcrc hdecode
  obtain ⟨hphase, hpos, hrx⟩ := hquiescent
  rw [State.hostSends_of_rx_nil hrx]
  calc step { s with rx := bs }
      = .next (advance (awaitCode .dispatch) { s with rx := bs }) := step_of_pos_op hpos
    _ = .next (serveFrame { s with rx := bs }) :=
      congrArg _ (advance_congr
        (run_frame_of_started (s := { s with rx := bs }) .dispatch hphase hcrc).symm)
    _ = exec i { s with rx := rest } :=
      (exec_decoded_eq_serveFrame (s := { s with rx := bs }) hdecode).symm

/-! ## Power-on -/

/-- Settles O41: nothing has been stored at reset, and the block is at the top of the loop. -/
theorem resetMeetsTheInvariant : Obligations.ResetMeetsTheInvariant := ⟨Memory.wf_reset, rfl⟩

/-- Settles O42: at reset the stream is empty (`serveFrame_of_rx_nil`). -/
theorem powerOnIsAsTheRuleSays : Obligations.PowerOnIsAsTheRuleSays :=
  ⟨rfl, rfl, rfl, rfl,
    (step_of_done rfl).trans (congrArg _ (serveFrame_of_rx_nil (s := State.reset) rfl))⟩

/-- Settles O43: the step is the power-on, in whose memory nothing has been stored. -/
theorem hardResetIsFollowedByPowerOn : Obligations.HardResetIsFollowedByPowerOn := fun s hpos =>
  ⟨powerOn s, step_of_resetting hpos, powerOn_rxcrc s, powerOn_txcrc s, powerOn_phase s,
    powerOn_pos s, powerOn_params s, powerOn_log s, powerOn_rx s, Memory.wf_nil,
    powerOn_memByte s, powerOn_cycle s⟩

/-- All that the power-on takes over from the state before it (R262, D18). -/
theorem powerOn_congr {s t : State} (hparams : s.params = t.params) (hlog : s.log = t.log)
    (hnoRead : s.noRead = t.noRead) (hnoWrite : s.noWrite = t.noWrite)
    (hroom : s.txRoom = t.txRoom) (hflush : s.flushReady = t.flushReady)
    (hcalls : s.calls = t.calls) (hcycle : s.cycle = t.cycle) (hdevices : s.devices = t.devices)
    (hreads : s.reads = t.reads) : powerOn s = powerOn t := by
  simp only [powerOn, hparams, hlog, hnoRead, hnoWrite, hroom, hflush, hcalls, hcycle, hdevices,
    hreads]

/-- Settles O55: the reset from outside is the same power-on, which does not look at the
position. -/
theorem externalResetIsThePowerOn : Obligations.ExternalResetIsThePowerOn :=
  ⟨fun s => ⟨step_of_resetting rfl, powerOn_rxcrc s, powerOn_txcrc s, powerOn_phase s,
      powerOn_pos s, powerOn_params s, congrArg sentBytes (powerOn_log s)⟩,
    fun _ _ => powerOn_congr⟩

end Sys2Proof.Machine
end

section
/-! SUPPORT. Every complete frame is answered once (70_reset_and_hazards.md R280) where every port
answers, and an Execute whose call has not returned is not (R276). -/

namespace Sys2Proof.Machine

/-! ## An Execute whose call has not returned -/

/-- Settles O30: the context is read, and the call stops the block before anything is sent. -/
theorem executeWaitsWhileTheCallHasNotReturned :
    Obligations.ExecuteWaitsWhileTheCallHasNotReturned := by
  intro s addr hg hc hr
  have hwait := op_execCall_of_calls_nil (s := (s.executeAccepted addr).contextRead) hc
  have hrun := (run_executeRest_context (s := s.executeAccepted addr) hr).trans
    (run_op_waits hwait)
  exact ⟨_, (exec_execute_accepted hg).trans (congrArg _ hrun),
    (State.contextRead_transmitted _).trans (s.executeAccepted_transmitted addr), rfl, rfl,
    State.waiting_of_run_waits hwait _⟩

/-! ## Every port answers -/

/-- Every port answers (00_scope.md R13; 20_memory.md R61), but for the call. -/
structure State.PortsAnswer (s : State) : Prop where
  txRoom : s.txRoom = none
  flushReady : s.flushReady = true
  noRead : s.noRead = []
  noWrite : s.noWrite = []

theorem State.PortsAnswer.accepts {s : State} (h : s.PortsAnswer) (n : Nat) : s.accepts n := by
  rw [State.accepts, h.txRoom]
  trivial

theorem State.PortsAnswer.readable {s : State} (h : s.PortsAnswer) (a : Addr) (n : Nat) :
    s.readable a n := fun _ _ => by rw [h.noRead]; rfl

theorem State.PortsAnswer.writable {s : State} (h : s.PortsAnswer) (a : Addr) (n : Nat) :
    s.writable a n := fun _ _ => by rw [h.noWrite]; rfl

/-- From `s` to `u` a request has been received and nothing has been sent, the ports still
answering. -/
structure Unanswered (s u : State) : Prop where
  ports : u.PortsAnswer
  transmitted : u.transmitted = s.transmitted

theorem Unanswered.refl {s : State} (h : s.PortsAnswer) : Unanswered s s := ⟨h, rfl⟩

/-- Port actions that send no byte leave a request unanswered. -/
theorem Unanswered.after {s u t : State} (hu : Unanswered s u) {l : List PortAction}
    (hlog : t.log = u.log ++ l) (hl : sentBytes l = []) (hroom : t.txRoom = u.txRoom)
    (hflush : t.flushReady = u.flushReady) (hread : t.noRead = u.noRead)
    (hwrite : t.noWrite = u.noWrite) : Unanswered s t where
  ports := ⟨hroom.trans hu.ports.txRoom, hflush.trans hu.ports.flushReady,
    hread.trans hu.ports.noRead, hwrite.trans hu.ports.noWrite⟩
  transmitted := by
    rw [State.transmitted, hlog, sentBytes_append, hl, List.append_nil]
    exact hu.transmitted

/-- Receiving bytes leaves a request unanswered. -/
theorem Unanswered.of_received {s u : State} (h : s.PortsAnswer) {bs : List Byte}
    (hlog : u.log = s.log ++ receiveActions bs) (hroom : u.txRoom = s.txRoom)
    (hflush : u.flushReady = s.flushReady) (hread : u.noRead = s.noRead)
    (hwrite : u.noWrite = s.noWrite) : Unanswered s u :=
  (Unanswered.refl h).after hlog (sentBytes_receiveActions bs) hroom hflush hread hwrite

/-! ## One response -/

/-- From `s` to `t` the block has answered a request: one frame with its right checksum, which the
host reads as a response to its last byte (30_encoding.md R92); then `AwaitCommand` again, or, for
Reset alone, the hard reset (42_commands.md R188, R191). -/
def Answered (i : Instr) (s t : State) : Prop :=
  ∃ payload r, t.transmitted = s.transmitted ++ withCrc payload ∧
    decodeResponse s.params (withCrc payload) = some (r, []) ∧
    ((t.pos = .done ∧ t.phase = .awaitCommand) ∨ ((∃ crc, i = .reset crc) ∧ t.pos = .resetting))

section
variable {i : Instr} {s u : State}

/-- The host reads what the encoder of responses gives (R92). -/
theorem decodeResponse_of_encodeResponse {p : Params} {bs : List Byte} {r : Response}
    (hp : p.wf = true) (hr : r.wf = true) (henc : encodeResponse p r = bs) :
    decodeResponse p bs = some (r, []) := by
  have hread := hostReadsBackEveryResponse p r [] hp hr
  rwa [List.append_nil, henc] at hread

theorem Answered.of_answer {payload : List Byte} (hu : u.transmitted = s.transmitted)
    (hp : s.params.wf = true) {r : Response} (hr : r.wf = true)
    (henc : encodeResponse s.params r = withCrc payload) : Answered i s (u.answer payload) :=
  ⟨payload, r, by rw [State.answer_transmitted, hu], decodeResponse_of_encodeResponse hp hr henc,
    .inl ⟨rfl, rfl⟩⟩

theorem run_raiseError_answered (e : ErrorCode) (hu : Unanswered s u) (hp : s.params.wf = true) :
    Answered i s ((raiseError e).run u) := by
  rw [run_raiseError e u (hu.ports.accepts 5)]
  exact .of_answer (r := .error (errorValue e) (crc8 (errorPayload e))) hu.transmitted hp rfl rfl

/-! ## The tails of a request -/

/-- The common tail (R190): where the checksum byte is wrong, Invalid-CRC is the answer. -/
theorem run_ite_raiseError_answered {c : Prop} [Decidable c] {k : Prog} (hu : Unanswered s u)
    (hp : s.params.wf = true) (hk : c → Answered i s (k.run u)) :
    Answered i s ((if c then k else raiseError .invalidCrc).run u) := by
  split
  · next hc => exact hk hc
  · exact run_raiseError_answered _ hu hp

theorem op_rxValidateCrc_unanswered {c : Byte} {rest : List Byte} (hu : Unanswered s u)
    (hrx : u.rx = c :: rest) :
    ∃ t, Op.rxValidateCrc.run u = .done t ∧ Unanswered s t :=
  ⟨_, op_rxValidateCrc_complete hrx, hu.after (l := [.rxByte c]) rfl rfl rfl rfl rfl rfl⟩

/-- The tail of a rejected request, under both values of `POLICY_FAIL_CRC` (D7). -/
theorem run_rejected_answered {p : Params} {e : ErrorCode} {c : Byte} {rest : List Byte}
    (hu : Unanswered s u) (hrx : u.rx = c :: rest) (hp : s.params.wf = true) :
    Answered i s ((rejected p e).run u) := by
  unfold rejected
  cases p.policyFailCrc with
  | consumeMasked =>
    obtain ⟨t, hrun, ht⟩ := op_rxValidateCrc_unanswered hu hrx
    simp only [run_op_done hrun]
    exact run_raiseError_answered e ht hp
  | skip => exact run_raiseError_answered e hu hp

/-! ## Requests without fields (30_encoding.md R84, format Q0) -/

theorem State.codeReceived_unanswered (h : s.PortsAnswer) (ph : Phase) (code : BitVec 16)
    (crc : Byte) : Unanswered s (s.codeReceived ph code crc) :=
  .of_received h rfl rfl rfl rfl rfl

theorem receiveFrame_validated_answered {k : Prog} {code : BitVec 16} {crc : Byte}
    (h : s.PortsAnswer) (hp : s.params.wf = true)
    (hk : Answered i s (k.run (s.codeReceived .validatingCrc code crc))) :
    Answered i s (receiveFrame (frameBytes code [] crc) (validated k) s) := by
  rw [receiveFrame_validated]
  exact run_ite_raiseError_answered (State.codeReceived_unanswered h ..) hp fun _ => hk

theorem exec_getVersion_answered (crc : Byte) (h : s.PortsAnswer) (hp : s.params.wf = true) :
    ∃ t, exec (.getVersion crc) s = .next t ∧ Answered i s t := by
  refine ⟨_, rfl, receiveFrame_validated_answered h hp ?_⟩
  have hu := State.codeReceived_unanswered h .validatingCrc s.params.cmdGetVersion crc
  rw [run_respondVersion (hu.ports.accepts 5)]
  exact .of_answer (r := .version s.params.protocolVersion _) hu.transmitted hp rfl rfl

theorem exec_getBase_answered (crc : Byte) (h : s.PortsAnswer) (hp : s.params.wf = true) :
    ∃ t, exec (.getBase crc) s = .next t ∧ Answered i s t := by
  refine ⟨_, rfl, receiveFrame_validated_answered h hp ?_⟩
  have hu := State.codeReceived_unanswered h .validatingCrc cmdGetBaseAddress crc
  rw [run_respondBase (hu.ports.accepts 11)]
  exact .of_answer (r := .base s.params.guardAddress _) hu.transmitted hp rfl rfl

/-- R188: the one request after which the block does not come back. -/
theorem exec_reset_answered (crc : Byte) (h : s.PortsAnswer) (hp : s.params.wf = true) :
    ∃ t, exec (.reset crc) s = .next t ∧ Answered (.reset crc) s t := by
  refine ⟨_, rfl, receiveFrame_validated_answered h hp ?_⟩
  have hu := State.codeReceived_unanswered h .validatingCrc s.params.cmdReset crc
  rw [run_respondResetting (hu.ports.accepts 3) hu.ports.flushReady]
  refine ⟨leBytes 2 s.params.cmdReset, .resetting _, ?_,
    decodeResponse_of_encodeResponse hp rfl rfl, .inr ⟨⟨crc, rfl⟩, rfl⟩⟩
  rw [State.transmitted, sentBytes_append, sentBytes_append, sentBytes_sendActions,
    ← hu.transmitted]
  exact List.append_nil _

/-- R189, under each value of `UNKNOWN_CMD_CRC` (D8). -/
theorem exec_unrecognised_answered {code : BitVec 16} {crc : Option Byte}
    (hcrc : crc.isNone = decide (s.params.unknownCmdCrc = .skip)) (h : s.PortsAnswer)
    (hp : s.params.wf = true) :
    ∃ t, exec (.unrecognised code crc) s = .next t ∧ Answered i s t := by
  refine ⟨_, exec_unrecognised code crc s, ?_⟩
  cases crc with
  | none =>
    have hskip : s.params.unknownCmdCrc = .skip := of_decide_eq_true hcrc.symm
    rw [receiveFrame, run_frame _ code s.rx _ (by simp), unrecognisedBody, hskip]
    exact run_raiseError_answered _ (.of_received h rfl rfl rfl rfl rfl) hp
  | some c =>
    have hu := State.codeReceived_unanswered h .decodingFields code c
    rw [Option.toList_some, unrecognisedBody]
    cases hmode : s.params.unknownCmdCrc with
    | consumeMasked =>
      simp only [receiveFrame_rxValidateCrc]
      exact run_raiseError_answered _ hu hp
    | skip => simp [hmode] at hcrc
    | consumeReported =>
      simp only [receiveFrame_rxValidateCrc, run_onCrcOk]
      split
      · exact run_raiseError_answered _ hu hp
      · exact run_raiseError_answered _ hu hp

/-! ## Read, Write and Execute (R185 to R187) -/

/-- Format SALD read by the host: as many bytes of data as the length says (R85, R92). -/
theorem run_respondData_answered (hu : Unanswered s u) (hp : s.params.wf = true)
    (hcmd : u.cmd = s.params.cmdRead) : Answered i s (respondData.run u) := by
  have hdata := u.bytesAt_length u.addr u.len.toNat
  rw [run_respondData_complete (hu.ports.accepts _) (hu.ports.readable _ _)]
  generalize u.bytesAt u.addr u.len.toNat = data at hdata
  refine ⟨echoHeader u.cmd u.addr u.len ++ data,
    .data u.addr u.len data (crc8 (echoHeader u.cmd u.addr u.len ++ data)), ?_,
    decodeResponse_of_encodeResponse hp (beq_iff_eq.mpr hdata) ?_, .inl ⟨rfl, rfl⟩⟩
  · rw [← hu.transmitted]
    simp only [State.transmitted, withCrc, sentBytes_append, sentBytes_sendActions,
      sentBytes_readAndSendActions, List.append_assoc]
  · simp only [encodeResponse, frameBytes, withCrc, echoHeader, hcmd, List.append_assoc]

theorem exec_read_answered (addr : Addr) (len : BitVec 32) (crc : Byte) (h : s.PortsAnswer)
    (hp : s.params.wf = true) : ∃ t, exec (.read addr len crc) s = .next t ∧ Answered i s t := by
  have hu : Unanswered s (s.readReceived addr len crc) := .of_received h rfl rfl rfl rfl rfl
  exact ⟨_, exec_read addr len crc s, run_ite_raiseError_answered hu hp fun _ =>
    run_respondData_answered hu hp rfl⟩

/-- Format SAL read by the host. -/
theorem run_respondWrote_answered (hu : Unanswered s u) (hp : s.params.wf = true)
    (hcmd : u.cmd = s.params.cmdWrite) : Answered i s (respondWrote.run u) := by
  rw [run_respondWrote (hu.ports.accepts 15)]
  refine .of_answer (r := .wrote u.addr u.len (crc8 (echoHeader u.cmd u.addr u.len)))
    hu.transmitted hp rfl ?_
  simp only [encodeResponse, frameBytes, withCrc, echoHeader, hcmd, List.append_assoc]

theorem exec_write_answered (addr : Addr) {len : BitVec 32} {data : List Byte} (crc : Byte)
    (hlen : data.length = len.toNat) (h : s.PortsAnswer) (hp : s.params.wf = true) :
    ∃ t, exec (.write addr len data crc) s = .next t ∧ Answered i s t := by
  by_cases hg : s.params.guardAddress ≤ addr
  · have hu : Unanswered s (s.writeValidated addr len data crc) :=
      (Unanswered.refl h).after (l := receiveActions (echoHeader s.params.cmdWrite addr len) ++
        receiveAndStoreActions addr data ++ [.rxByte crc]) rfl (by simp [sentBytes]) rfl rfl rfl rfl
    exact ⟨_, exec_write_validated crc hlen hg (h.writable _ _),
      run_ite_raiseError_answered hu hp fun _ => run_respondWrote_answered hu hp rfl⟩
  · exact ⟨_, exec_write_drained crc hlen (BitVec.not_le.mp hg) rfl,
      run_rejected_answered (.of_received h rfl rfl rfl rfl rfl) rfl hp⟩

/-- What an accepted Execute performs once its call can return, answered in format SAR. -/
theorem run_executeRest_answered (hu : Unanswered s u) (hp : s.params.wf = true)
    (hcalls : u.calls ≠ []) (hcmd : u.cmd = s.params.cmdExecute) :
    Answered i s (executeRest.run u) := by
  obtain ⟨o, coming, hc⟩ := List.exists_cons_of_ne_nil hcalls
  rw [run_executeRest_complete (hu.ports.readable _ _) hc (hu.ports.writable _ _)
    (hu.ports.accepts 19)]
  have hsent : (u.contextRead.called o coming).slotStored.slotRead.transmitted = s.transmitted := by
    rw [State.slotRead_transmitted, State.slotStored_transmitted, State.called_transmitted,
      State.contextRead_transmitted, hu.transmitted]
  generalize (u.contextRead.called o coming).slotStored.slotRead = v at hsent ⊢
  refine .of_answer (r := .result u.addr v.result
    (crc8 (leBytes 2 u.cmd ++ leBytes 8 u.addr ++ leBytes 8 v.result))) hsent hp rfl ?_
  simp only [encodeResponse, frameBytes, withCrc, hcmd, List.append_assoc]

theorem exec_execute_answered (addr : Addr) (crc : Byte) (hcalls : s.calls ≠ [])
    (h : s.PortsAnswer) (hp : s.params.wf = true) :
    ∃ t, exec (.execute addr crc) s = .next t ∧ Answered i s t := by
  by_cases hg : s.params.guardAddress ≤ addr
  · have hu : Unanswered s (s.executeReceived addr crc) := .of_received h rfl rfl rfl rfl rfl
    refine ⟨_, exec_execute_passed crc hg, run_ite_raiseError_answered hu hp fun _ => ?_⟩
    rw [run_setPhase]
    exact run_executeRest_answered
      (hu.after (List.append_nil _).symm rfl rfl rfl rfl rfl) hp hcalls rfl
  · exact ⟨_, exec_execute_failed crc (BitVec.not_le.mp hg),
      run_rejected_answered (.of_received h rfl rfl rfl rfl rfl) rfl hp⟩

/-! ## Every request -/

theorem exec_request_answered (hrequest : i.isRequest = true) (hi : i.wf s.params = true)
    (h : s.PortsAnswer) (hp : s.params.wf = true)
    (hcalls : (∃ addr crc, i = .execute addr crc) → s.calls ≠ []) :
    ∃ t, exec i s = .next t ∧ Answered i s t := by
  cases i with
  | getVersion crc => exact exec_getVersion_answered crc h hp
  | getBase crc => exact exec_getBase_answered crc h hp
  | read addr len crc => exact exec_read_answered addr len crc h hp
  | write addr len data crc => exact exec_write_answered addr crc (beq_iff_eq.mp hi) h hp
  | execute addr crc => exact exec_execute_answered addr crc (hcalls ⟨addr, crc, rfl⟩) h hp
  | reset crc => exact exec_reset_answered crc h hp
  | unrecognised code crc =>
    obtain ⟨-, hcrc⟩ := (Bool.and_eq_true _ _).mp hi
    exact exec_unrecognised_answered (beq_iff_eq.mp hcrc) h hp
  | _ => cases hrequest

end

/-- Settles O37: the step executes the decoded frame (`stepRunsTheDecodedFrame`), a well-formed
request, and each of the seven is answered (`exec_request_answered`). -/
theorem everyCompleteFrameIsAnsweredOnce : Obligations.EveryCompleteFrameIsAnsweredOnce := by
  intro s i rest hp _ hpos hdecode hroom hflush hread hwrite hcalls
  obtain ⟨hrequest, hi, -⟩ := decodedBytesAreTheEncoding s.params i s.rx rest hdecode
  obtain ⟨t, hexec, payload, r, hanswered⟩ := exec_request_answered (s := { s with rx := rest })
    hrequest hi ⟨hroom, hflush, hread, hwrite⟩ hp hcalls
  exact ⟨t, payload, r, (stepRunsTheDecodedFrame s i rest hpos hdecode).trans hexec, hanswered⟩

end Sys2Proof.Machine
end
